-- ==== Sys2Proof/Word.lean ====
section
/-! DEFINITION. The word types of TONECODEC (00_scope R8, R10): a 32-bit command or register word,
a 16-bit two's-complement sample, an 8-bit character code. -/

namespace Sys2Proof

/-- A command word or a host-visible register value: 32 bits, bit 0 least significant (R8, R70). -/
abbrev Word := BitVec 32

/-- A 16-bit sample field; it denotes the integer `BitVec.toInt`, the spec's `int16` (R8, R10). -/
abbrev Sample := BitVec 16

/-- An 8-bit character code (R10, R11). -/
abbrev Char8 := BitVec 8

end Sys2Proof
end

