-- ==== Sys2Proof/Config.lean ====
section
/-! DEFINITION. What no step ever writes (00_scope R6, R7, R16): the constants the source fixes, and
the parameters it leaves open, the sampling rate `FS`, the symbol table `SIGTAB` and the character codes
`CHARCODE`, with the values the spec decides. The machine's parameters stand in `State.config`, at
`Config.decided` after `State.reset`; every operation that depends on them takes a `Config`. -/

namespace Sys2Proof

/-- `N`: samples in one Symbol Block (R6). -/
def blockLength : Nat := 320

/-- `NSYM`: 26 letters and space (R6). -/
def symbolCount : Nat := 27

/-- `CANON`: the canonical frequencies in hertz, in the fixed enumeration order (R6). -/
def canon : List Nat := [100, 200, 400, 600, 800, 1000, 1200, 1600, 2000, 2400, 4000]

/-- `R9 = CANON[2..10]`: the canonical frequencies without the two case tones (R6). -/
def restricted : List Nat := canon.drop 2

/-- `F_LOWER = CANON[0]`: the case tone that marks lowercase, in hertz (R6). -/
def lowerTone : Nat := 100

/-- `F_UPPER = CANON[1]`: the case tone that marks uppercase, in hertz (R6). -/
def upperTone : Nat := 200

/-- `Q`: the quality factor of every band-pass filter (R6). -/
def qualityFactor : Nat := 5

/-- `PCM_SCALE`: the storage scaling constant (R6). -/
def pcmScale : Nat := 100

/-- `K_SPEC`: bins selected by the spectral peak detector (R6). -/
def spectralPeaks : Nat := 4

/-- `K_FB`: responses selected by the filter-bank ranker (R6). -/
def filterPeaks : Nat := 3

/-- One row of `SIGTAB`: the low, middle and high group frequency of a Symbol, in hertz (R91). -/
structure Signature where
  low : Nat
  middle : Nat
  high : Nat
deriving DecidableEq, Repr

/-- The three frequencies of a row, in the row's own order (R91, R102). -/
def Signature.toList (g : Signature) : List Nat := [g.low, g.middle, g.high]

/-- `sort_asc` of three numbers, duplicates kept (R9). -/
def sortAsc (l : List Nat) : List Nat := l.insertionSort (· ≤ ·)

/-- The ascending triple used for matching (R92). -/
def Signature.sorted (g : Signature) : List Nat := sortAsc g.toList

/-- `CHARCODE`: the 8-bit codes of the 53 characters of the alphabet and of `*` (R7). -/
structure CharCode where
  /-- The codes of `A` to `Z`, in order. -/
  upper : List Char8
  /-- The codes of `a` to `z`, in order. -/
  lower : List Char8
  /-- The code of space. -/
  space : Char8
  /-- The code of `*`, the character `PLACEHOLDER` of R6. -/
  star : Char8
deriving DecidableEq, Repr

/-- What R7 requires of `CHARCODE`: injective on the 53 characters, and `*` distinct from all. -/
abbrev CharCode.WellFormed (c : CharCode) : Prop :=
  c.upper.length = 26 ∧ c.lower.length = 26 ∧ (c.upper ++ c.lower ++ [c.space, c.star]).Nodup

/-- The parameters the source leaves open (R7). -/
structure Config where
  /-- `FS`, the sampling rate in hertz. -/
  fs : Nat
  /-- `SIGTAB`, row `s` for Symbol `s`. -/
  sigtab : List Signature
  /-- `CHARCODE`. -/
  charcode : CharCode
deriving DecidableEq, Repr

/-- What R7 requires of the parameters: `FS >= 8000` (twice the highest canonical frequency); the
table invariants of R93: 27 rows, each of three distinct members of `R9`, the sorted triples
pairwise distinct over all 27 Symbols (90_conflicts C1); injective character codes. -/
abbrev Config.WellFormed (c : Config) : Prop :=
  8000 ≤ c.fs ∧ c.sigtab.length = symbolCount ∧
  (∀ g ∈ c.sigtab, g.toList.Nodup ∧ ∀ f ∈ g.toList, f ∈ restricted) ∧
  (c.sigtab.map Signature.sorted).Nodup ∧ c.charcode.WellFormed

/-- The 27 rows the spec decides (R91), written out as its table gives them. -/
def decidedTable : List Signature :=
  [⟨400, 800, 1600⟩, ⟨400, 800, 2400⟩, ⟨400, 800, 4000⟩,
   ⟨400, 1200, 1600⟩, ⟨400, 1200, 2400⟩, ⟨400, 1200, 4000⟩,
   ⟨400, 2000, 1600⟩, ⟨400, 2000, 2400⟩, ⟨400, 2000, 4000⟩,
   ⟨600, 800, 1600⟩, ⟨600, 800, 2400⟩, ⟨600, 800, 4000⟩,
   ⟨600, 1200, 1600⟩, ⟨600, 1200, 2400⟩, ⟨600, 1200, 4000⟩,
   ⟨600, 2000, 1600⟩, ⟨600, 2000, 2400⟩, ⟨600, 2000, 4000⟩,
   ⟨1000, 800, 1600⟩, ⟨1000, 800, 2400⟩, ⟨1000, 800, 4000⟩,
   ⟨1000, 1200, 1600⟩, ⟨1000, 1200, 2400⟩, ⟨1000, 1200, 4000⟩,
   ⟨1000, 2000, 1600⟩, ⟨1000, 2000, 2400⟩, ⟨1000, 2000, 4000⟩]

/-- 7-bit ASCII: `upper_char(s) = 0x41 + s`, `lower_char(s) = 0x61 + s`, space 0x20, `*` 0x2A (R11). -/
def CharCode.ascii : CharCode where
  upper := (List.range 26).map fun s => BitVec.ofNat 8 (0x41 + s)
  lower := (List.range 26).map fun s => BitVec.ofNat 8 (0x61 + s)
  space := 0x20#8
  star := 0x2A#8

/-- The parameters the spec decides: `FS = 8000` (92 D1), the table of R91 (92 D2), ASCII (92 D3). -/
def Config.decided : Config := ⟨8000, decidedTable, .ascii⟩

end Sys2Proof
end

