-- ==== Sys2Proof/Syntax.lean ====
section
/-! DEFINITION. The 13 commands (30_encoding R77), one constructor per row of the opcode table, each
with the operand fields of its format (R71 to R76) as the word carries them. -/

namespace Sys2Proof

/-- A command with its operand fields. -/
inductive Instr where
  /-- NOP, format Z (R171). -/
  | nop
  /-- SIG sym, format B: `IMM8` (R95). -/
  | sig (imm8 : BitVec 8)
  /-- LET case, j2, j1, j0, format T: `CASE`, `J2`, `J1`, `J0` (R96). -/
  | let_ (upper : Bool) (j2 j1 j0 : BitVec 4)
  /-- SETA imm16, format H: `IMM16` (R101). -/
  | seta (imm16 : BitVec 16)
  /-- SYN sym, u, format Y: `SYM`, `U` (R105). -/
  | syn (sym : BitVec 5) (upper : Bool)
  /-- ENC char, format B: `IMM8` (R106). -/
  | enc (imm8 : BitVec 8)
  /-- QNT imm16, format H: `IMM16` (R122). -/
  | qnt (imm16 : BitVec 16)
  /-- DECS, format Z (R138). -/
  | decs
  /-- DECF, format Z (R160). -/
  | decf
  /-- LDS sample, format H: `IMM16` (R172). -/
  | lds (imm16 : BitVec 16)
  /-- ENDS, format Z (R173). -/
  | ends
  /-- CLRF, format Z (R174). -/
  | clrf
  /-- RST, format Z (R175). -/
  | rst
deriving DecidableEq, Repr

end Sys2Proof
end

