-- ==== Sys2Proof/WellFormed.lean ====
section
/-! DEFINITION. Which commands carry legal operand values (30_encoding R76, R82 (c), (d), (e)). -/

namespace Sys2Proof

/-- A `Sym` is at most 26 (R10, R76). -/
def isSym (n : Nat) : Bool := n < symbolCount

/-- A `CIdx` is at most 10 (R10, R76). -/
def isCanonIndex (n : Nat) : Bool := n < canon.length

/-- No operand field holds a reserved value (R82): SIG and SYN take a symbol 0..26, LET three indices
0..10; every value of the other operands is legal. -/
def Instr.legalOperands : Instr → Bool
  | .nop => true
  | .sig imm8 => isSym imm8.toNat
  | .let_ _ j2 j1 j0 => isCanonIndex j2.toNat && isCanonIndex j1.toNat && isCanonIndex j0.toNat
  | .seta _ => true
  | .syn sym _ => isSym sym.toNat
  | .enc _ => true
  | .qnt _ => true
  | .decs => true
  | .decf => true
  | .lds _ => true
  | .ends => true
  | .clrf => true
  | .rst => true

/-- A command a legal word stands for (R82). -/
abbrev Instr.WellFormed (i : Instr) : Prop := i.legalOperands = true

end Sys2Proof
end

