-- ==== Sys2Proof/Decode.lean ====
section
/-! DEFINITION. From a command word to a command and back (30_encoding R70 to R82): the opcode map, the
decoder, total on all 2^32 words and rejecting by name, and the encoder. -/

namespace Sys2Proof

/-- Why a word is illegal (R82). In the machine each of them raises IllegalCommand and nothing else. -/
inductive DecodeError where
  /-- R82 (a), R81: opcode 0x0D..0xFF. -/
  | reservedOpcode
  /-- R82 (b): a bit the format requires to be 0 is 1. -/
  | mustBeZero
  /-- R82 (c), (d), (e): a reserved operand value of SIG, SYN or LET. -/
  | reservedOperand
deriving DecidableEq, Repr

/-- One row of the opcode map (R77): `W` selects the row iff `W &&& mask = pattern`; `fields` assembles
the operands of the row's format (R71 to R76). -/
structure OpcodeRow where
  mnemonic : String
  pattern : Word
  mask : Word
  fields : Word → Instr

/-- The opcode map of R77, the row of opcode `n` at position `n`. -/
def opcodeMap : List OpcodeRow :=
  [⟨"NOP",  0x00000000, 0xFFFFFFFF, fun _ => .nop⟩,
   ⟨"SIG",  0x01000000, 0xFFFFFF00, fun w => .sig (w.extractLsb' 0 8)⟩,
   ⟨"LET",  0x02000000, 0xFFFFE000, fun w =>
      .let_ (w.getLsbD 12) (w.extractLsb' 8 4) (w.extractLsb' 4 4) (w.extractLsb' 0 4)⟩,
   ⟨"SETA", 0x03000000, 0xFFFF0000, fun w => .seta (w.extractLsb' 0 16)⟩,
   ⟨"SYN",  0x04000000, 0xFFFFFEE0, fun w => .syn (w.extractLsb' 0 5) (w.getLsbD 8)⟩,
   ⟨"ENC",  0x05000000, 0xFFFFFF00, fun w => .enc (w.extractLsb' 0 8)⟩,
   ⟨"QNT",  0x06000000, 0xFFFF0000, fun w => .qnt (w.extractLsb' 0 16)⟩,
   ⟨"DECS", 0x07000000, 0xFFFFFFFF, fun _ => .decs⟩,
   ⟨"DECF", 0x08000000, 0xFFFFFFFF, fun _ => .decf⟩,
   ⟨"LDS",  0x09000000, 0xFFFF0000, fun w => .lds (w.extractLsb' 0 16)⟩,
   ⟨"ENDS", 0x0A000000, 0xFFFFFFFF, fun _ => .ends⟩,
   ⟨"CLRF", 0x0B000000, 0xFFFFFFFF, fun _ => .clrf⟩,
   ⟨"RST",  0x0C000000, 0xFFFFFFFF, fun _ => .rst⟩]

/-- `OPC = W[31:24]` (R70). -/
def opcodeOf (w : Word) : BitVec 8 := w.extractLsb' 24 8

/-- The decoding algorithm of R78: opcode, then must-be-zero bits, then operand values (R201 (a)). -/
def decode (w : Word) : Except DecodeError Instr :=
  match opcodeMap[(opcodeOf w).toNat]? with
  | none => .error .reservedOpcode
  | some row =>
    if w &&& row.mask = row.pattern then
      if (row.fields w).legalOperands then .ok (row.fields w) else .error .reservedOperand
    else .error .mustBeZero

/-- Format Z (R71). -/
def formatZ (opc : BitVec 8) : Word := opc ++ 0#24

/-- Format B (R72). -/
def formatB (opc imm8 : BitVec 8) : Word := opc ++ 0#16 ++ imm8

/-- Format H (R73). -/
def formatH (opc : BitVec 8) (imm16 : BitVec 16) : Word := opc ++ 0#8 ++ imm16

/-- Format Y (R74). -/
def formatY (opc : BitVec 8) (u : Bool) (sym : BitVec 5) : Word :=
  opc ++ 0#15 ++ BitVec.ofBool u ++ 0#3 ++ sym

/-- Format T (R75). -/
def formatT (opc : BitVec 8) (case : Bool) (j2 j1 j0 : BitVec 4) : Word :=
  opc ++ 0#11 ++ BitVec.ofBool case ++ j2 ++ j1 ++ j0

/-- The word of a command (R71 to R77). -/
def encode : Instr → Word
  | .nop => formatZ 0x00
  | .sig imm8 => formatB 0x01 imm8
  | .let_ upper j2 j1 j0 => formatT 0x02 upper j2 j1 j0
  | .seta imm16 => formatH 0x03 imm16
  | .syn sym upper => formatY 0x04 upper sym
  | .enc imm8 => formatB 0x05 imm8
  | .qnt imm16 => formatH 0x06 imm16
  | .decs => formatZ 0x07
  | .decf => formatZ 0x08
  | .lds imm16 => formatH 0x09 imm16
  | .ends => formatZ 0x0A
  | .clrf => formatZ 0x0B
  | .rst => formatZ 0x0C

/-- The command the decoder reads from the first `nbits` bits of `w` (bit 0 least significant, as the
opcode table numbers them); every command is one 32-bit word, so the bits above 31 do not exist and the
bits from `nbits` up are 0. `none` where the decoder refuses. -/
def decodeTableWord (nbits w : Nat) : Option Instr :=
  match decode (BitVec.ofNat 32 (w % 2 ^ nbits)) with
  | .ok i => some i
  | .error _ => none

end Sys2Proof
end

