-- ==== Sys2Proof/Machine/State.lean ====
section
/-! DEFINITION. The architectural state of 10_state R20, the block's parameters (00_scope R7), the host's
pending actions and what its reads have returned (00_scope R17), the reset state (R31, R221), and the
reasons a step can stop. -/

namespace Sys2Proof.Machine

/-- The width of a host access to the register map (20_memory R52: only 32 bits has a meaning). -/
inductive AccessWidth where
  | byte
  | half
  | word
deriving DecidableEq, Repr

/-- One action of the host (00_scope R17). Offsets are byte offsets from the block's base address, which
is the platform's (20_memory R50). -/
inductive HostAction where
  /-- A write; at offset 0 (`CMD`) of width `word` it issues `value` as a command. -/
  | write (width : AccessWidth) (offset : Nat) (value : Word)
  /-- A read; at `SDATA` and `CDATA` it pops a queue. -/
  | read (width : AccessWidth) (offset : Nat)
  /-- Hardware reset, between two commands (R17, R220). -/
  | reset
deriving DecidableEq, Repr

/-- The listed entries of the block buffer: sample index and sample, indices strictly rising, no entry
equal to what an unlisted index reads as (`Memory.wf`). One address holds one 16-bit sample (R26, R50). -/
abbrev Memory := List (Nat × Sample)

/-- The state. The first seven fields are the tuple of R20; `config` is the block's configuration; the last
two are the model's. -/
structure State where
  /-- `AMP`, UQ8.8 (R23). -/
  amp : BitVec 16
  /-- `SCNT`, 0..320 (R22). -/
  scnt : Fin 321
  /-- `RES` (R24). -/
  res : Word
  /-- `STATUS`, the sticky flags (R25). -/
  status : Word
  /-- `BLK[0..319]` (R26). -/
  blk : Memory
  /-- `SOUT`, head first (R27). -/
  sout : List Sample
  /-- `COUT`, head first (R27). -/
  cout : List Char8
  /-- The parameters `FS`, `SIGTAB` and `CHARCODE` this block was built with: configuration, never written
  by any step (00_scope R7, R16). That it stands among the state is the model's choice (log entry 4). -/
  config : Config
  /-- The host's actions not yet taken, the next one first (R17). The model's own field. -/
  inputs : List HostAction
  /-- What the host's reads have returned, oldest first (R17). The model's own field. -/
  observed : List Word
deriving DecidableEq, Repr

/-- The state after hardware reset (R31, R221) of a block with the given parameters. `blk` is unspecified
there and cannot be observed (R30): nothing is listed, so every entry reads as 0 (DESIGN CHOICE, log entry
5). No host action is pending and none has been taken (DESIGN CHOICE, log entries 1 and 2). -/
def State.resetWith (config : Config) : State where
  amp := 0x0100
  scnt := 0
  res := 0
  status := 0
  blk := []
  sout := []
  cout := []
  config := config
  inputs := []
  observed := []

/-- The state after hardware reset at the parameters the spec decides (00_scope R7: "the decided value as
the default"). -/
def State.reset : State := .resetWith .decided

/-- The reasons the machine can stop with a fault: none. "There is no fault state, no stuck state and no
hang" (00_scope R17); a condition sets a flag and the command completes (60_exceptions R191, R202). -/
inductive Fault where
deriving DecidableEq, Repr

/-- The reasons a step has no meaning. -/
inductive Refusal where
  /-- An instruction the model gives no meaning. No arm of `exec` raises it. Safe. -/
  | notModelled (mnemonic : String)
  /-- Raised by the host port for an access that is not 32 bits wide or not at a multiple of 4: "outside
  this spec: the model refuses it (it has no meaning)" (20_memory R52, 93 U7). Safe: the machine stops. -/
  | unsupportedHostAccess
deriving DecidableEq, Repr

end Sys2Proof.Machine
end

