-- ==== Sys2Proof/Machine/Flags.lean ====
section
/-! DEFINITION. The seven conditions and the STATUS register (60_exceptions R190 to R198, 10_state R25). -/

namespace Sys2Proof.Machine

/-- The seven conditions, in the order of their codes (R190, R192 to R198). -/
inductive Condition where
  /-- R192, flag `UNREC`. -/
  | unrecognizedSymbol
  /-- R193, flag `DEGEN`. -/
  | degenerateBlock
  /-- R194, flag `DROP`. -/
  | encodingInputRejected
  /-- R195, flag `CLIP`. -/
  | pcmClip
  /-- R196, flag `UNDER`. -/
  | blockUnderrun
  /-- R197, flag `OVER`. -/
  | blockOverrun
  /-- R198, flag `ILL`. -/
  | illegalCommand
deriving DecidableEq, Repr

/-- The code of a condition: the number of its STATUS bit (R190). -/
def Condition.code : Condition → Nat
  | .unrecognizedSymbol => 0
  | .degenerateBlock => 1
  | .encodingInputRejected => 2
  | .pcmClip => 3
  | .blockUnderrun => 4
  | .blockOverrun => 5
  | .illegalCommand => 6

/-- The implemented bits of STATUS; bits 31:7 are hardwired to 0 (R25). -/
def statusMask : Word := 0x0000007F

/-- The one operation that writes STATUS: bits 31:7 stay 0 whatever is written (R25). -/
def State.setStatus (s : State) (v : Word) : State := { s with status := v &&& statusMask }

/-- `STATUS.flag(c) <- 1` on a status word (R191); the other flags keep their values (R203). -/
def setFlag (c : Condition) (v : Word) : Word := v ||| (1#32 <<< c.code)

/-- Whether the flag of `c` is set. -/
def State.flag (s : State) (c : Condition) : Bool := s.status.getLsbD c.code

end Sys2Proof.Machine
end

