-- ==== Sys2Proof/Machine/Ops.lean ====
section
/-! DEFINITION. The operations every command shares: raising a condition, the block buffer, the queues,
the reset (60_exceptions R191; 10_state R26 to R28, R31; 20_memory R50, R51). -/

namespace Sys2Proof.Machine

/-- `raise c` (R191): set the condition's flag and nothing more. This is all there is of taking an
exception on this hardware: no trap entry, nothing saved, no control transfer (R202), and no return from
it (R203). -/
def raise (c : Condition) (s : State) : State := s.setStatus (setFlag c s.status)

/-- `raise c` when `b` is 1. -/
def raiseIf (b : Bool) (c : Condition) (s : State) : State := if b then raise c s else s

/-- What an entry of `BLK` that is not listed reads as: 0 (DESIGN CHOICE, log entry 5; no command reads
an entry that has not been written, R30). -/
def unlistedSample : Sample := 0

/-- `BLK[a]` (R9). -/
def Memory.read (m : Memory) (a : Nat) : Sample :=
  match m with
  | [] => unlistedSample
  | (b, v) :: rest => if a = b then v else Memory.read rest a

/-- `BLK[a] <- v` (R9), keeping the one canonical form. -/
def Memory.write (m : Memory) (a : Nat) (v : Sample) : Memory :=
  match m with
  | [] => if v = unlistedSample then [] else [(a, v)]
  | (b, u) :: rest =>
    if a < b then
      if v = unlistedSample then (b, u) :: rest else (a, v) :: (b, u) :: rest
    else if a = b then
      if v = unlistedSample then rest else (a, v) :: rest
    else (b, u) :: Memory.write rest a v

/-- Indices strictly rising from `lo`, all below 320 (R26, R50), no listed entry equal to what an
unlisted one reads as. -/
def Memory.wfFrom (lo : Nat) (m : Memory) : Bool :=
  match m with
  | [] => true
  | (a, v) :: rest =>
    decide (lo ≤ a) && decide (a < blockLength) && decide (v ≠ unlistedSample) && Memory.wfFrom (a + 1) rest

/-- The one canonical form of the block buffer. -/
def Memory.wf (m : Memory) : Bool := Memory.wfFrom 0 m

/-- The whole block as the integers its samples denote, entry 0 first: what DECS and DECF read (R26,
R62, R179). -/
def State.block (s : State) : List Int := (List.range blockLength).map fun n => (s.blk.read n).toInt

/-- `push(SOUT, v)` for each sample of a block, in order (R9, R27). -/
def State.pushSamples (s : State) (p : List Sample) : State := { s with sout := s.sout ++ p }

/-- `push(COUT, c)` (R9, R27). -/
def State.pushChar (s : State) (c : Char8) : State := { s with cout := s.cout ++ [c] }

/-- `RES <- v`. -/
def State.setRes (s : State) (v : Word) : State := { s with res := v }

/-- `AMP <- v`. -/
def State.setAmp (s : State) (v : BitVec 16) : State := { s with amp := v }

/-- `SCNT <- 0`. -/
def State.clearCount (s : State) : State := { s with scnt := 0 }

/-- The reset state (R31), reached by hardware reset and by RST alike (R220). `BLK` is unspecified there:
it keeps its contents (DESIGN CHOICE, log entry 6; unobservable, R30). The
parameters stay (00_scope R16). What the host has waiting and what it has read are no state of the block
and stay. -/
def State.toReset (s : State) : State :=
  { s with
    amp := State.reset.amp, scnt := State.reset.scnt, res := State.reset.res,
    status := State.reset.status, sout := State.reset.sout, cout := State.reset.cout }

end Sys2Proof.Machine
end

