-- ==== Sys2Proof/Machine/Operands.lean ====
section
/-! DEFINITION. How operand fields are read (30_encoding R76), character codes (00_scope R11), the PCM
byte pair (20_memory R51), and the formats of RES (10_state R24). -/

namespace Sys2Proof.Machine

/-- `upper_char(s)` (R11), for any character codes (R7). -/
def upperChar (codes : CharCode) (s : Nat) : Char8 := codes.upper.getD s 0

/-- `lower_char(s)` (R11), for any character codes (R7). -/
def lowerChar (codes : CharCode) (s : Nat) : Char8 := codes.lower.getD s 0

/-- The number of the space Symbol (R10, R90). -/
def spaceSym : Nat := 26

/-- `sym_of_char` (R11): the Symbol of a character, `none` outside {A-Z, a-z, space}. -/
def symOfChar (codes : CharCode) (c : Char8) : Option Nat :=
  if c ∈ codes.upper then some (codes.upper.idxOf c)
  else if c ∈ codes.lower then some (codes.lower.idxOf c)
  else if c = codes.space then some spaceSym
  else none

/-- `is_upper` (R11). -/
def isUpper (codes : CharCode) (c : Char8) : Bool := decide (c ∈ codes.upper)

/-- A sample from the two bytes of a PCM stream, the byte at the lower position first (R51, R172). The
bytes are outside the block; the host places the sample in an LDS operand. -/
def sampleOfBytes (lo hi : BitVec 8) : Sample := hi ++ lo

/-- The two bytes of a sample in a PCM stream, lower position first (R51). -/
def bytesOfSample (v : Sample) : List (BitVec 8) := [v.extractLsb' 0 8, v.extractLsb' 8 8]

/-- `int16` (R8, R76): the integer a sample field denotes. -/
def int16 (u : Sample) : Int := u.toInt

/-- The sample field of an integer in -32768..32767 (R8). -/
def sampleOfInt (v : Int) : Sample := BitVec.ofInt 16 v

/-- RES after SIG: `[3:0] = I0`, `[7:4] = I1`, `[11:8] = I2` (R24, R95). -/
def resOfSignature (i0 i1 i2 : Nat) : Word :=
  0#20 ++ BitVec.ofNat 4 i2 ++ BitVec.ofNat 4 i1 ++ BitVec.ofNat 4 i0

/-- RES after LET: `[7:0] = CH`, `[8] = NF`; NotFound is rendered as `*` (R24, R96). -/
def resOfLookup (codes : CharCode) (r : Option Char8) : Word :=
  match r with
  | some c => 0#23 ++ 0#1 ++ c
  | none => 0#23 ++ 1#1 ++ codes.star

/-- RES after QNT: `[3:0] = IDX` (R24, R122). -/
def resOfIndex (i : Nat) : Word := BitVec.ofNat 32 i

end Sys2Proof.Machine
end

