-- ==== Sys2Proof/Machine/Decoder.lean ====
section
/-! DEFINITION. What the two decoders share: selection with ties (00_scope R13) and the course of a
decode command (43 R138, 44 R160). -/

namespace Sys2Proof.Machine

/-- Insert `x` into a list sorted by `before`. -/
def insertBy {α : Type} (before : α → α → Bool) (x : α) : List α → List α
  | [] => [x]
  | y :: ys => if before y x then y :: insertBy before x ys else x :: y :: ys

/-- Sort a list by `before`. -/
def sortBy {α : Type} (before : α → α → Bool) : List α → List α
  | [] => []
  | x :: xs => insertBy before x (sortBy before xs)

/-- `top_k` (R13): the indices of the first `k` entries when a list of values with their indices is
sorted by `before`. -/
def topK {α : Type} (before : α × Nat → α × Nat → Bool) (v : List α) (k : Nat) : List Nat :=
  ((sortBy before v.zipIdx).take k).map Prod.snd

/-- "Index `i` precedes index `j` iff `v[i] > v[j]`, or `v[i] = v[j]` and `i < j`" (R13), for values
known to within half of `tol` units, of which two that lie within `tol` are equal. -/
def precedes (tol : Int) (a b : Int × Nat) : Bool :=
  decide (b.1 + tol < a.1) || (decide (b.1 ≤ a.1 + tol) && decide (a.2 < b.2))

/-- What a decoder answers for a block: `(c, degen, unrec)` (R137, R159). -/
structure Decoded where
  char : Char8
  degen : Bool
  unrec : Bool
deriving DecidableEq, Repr

/-- The fallback for a degenerate block: the placeholder (R136, R161, R193). -/
def Decoded.degenerate (codes : CharCode) : Decoded := ⟨codes.star, true, true⟩

/-- The answer for the result of `letter_of` (R135, R158): NotFound gives the placeholder. -/
def Decoded.ofLookup (codes : CharCode) (r : Option Char8) : Decoded :=
  match r with
  | some c => ⟨c, false, false⟩
  | none => ⟨codes.star, false, true⟩

/-- Push the character, raise what the decoder reports, set SCNT to 0 (R138, R160, R192, R193). -/
def deliver (r : Decoded) (s : State) : State :=
  match r with
  | ⟨char, degen, unrec⟩ =>
    (raiseIf unrec .unrecognizedSymbol (raiseIf degen .degenerateBlock (s.pushChar char))).clearCount

/-- The course of DECS and of DECF around their decoder (R138, R160): BlockUnderrun unless a full block
is loaded. -/
def decodeCommand (decoder : List Int → Decoded) (s : State) : State :=
  if s.scnt.val < blockLength then raise .blockUnderrun s else deliver (decoder s.block) s

end Sys2Proof.Machine
end

