-- ==== Sys2Proof/Machine/Symbol.lean ====
section
/-! DEFINITION. The symbol table's two functions and the commands SIG and LET (40_symbol_table). -/

namespace Sys2Proof.Machine

/-- `sig_sorted(s)` (R92); `signature_of(s)` is the same list (R94). A number that is no Symbol has the
empty list. -/
def sigSorted (cfg : Config) (s : Nat) : List Nat :=
  match cfg.sigtab[s]? with
  | some g => g.sorted
  | none => []

/-- The character of a matched Symbol: space ignores case (R94). -/
def charOfSym (codes : CharCode) (s : Nat) (upper : Bool) : Char8 :=
  if s = spaceSym then codes.space else if upper then upperChar codes s else lowerChar codes s

/-- `letter_of(t, upper)` (R94): the loop over the Symbols in order; `none` is NotFound. -/
def letterOf (cfg : Config) (t : List Nat) (upper : Bool) : Option Char8 :=
  ((List.range symbolCount).find? fun s => sigSorted cfg s == t).map fun s => charOfSym cfg.charcode s upper

/-- The index of a frequency in `CANON` (R95). -/
def canonIndex (f : Nat) : Nat := canon.idxOf f

/-- `CANON[i]` (R9). -/
def canonAt (i : Nat) : Nat := canon.getD i 0

/-- The value SIG writes to RES (R95). -/
def sigResult (cfg : Config) (s : Nat) : Word :=
  let t := (sigSorted cfg s).map canonIndex
  resOfSignature (t.getD 0 0) (t.getD 1 0) (t.getD 2 0)

/-- The value LET writes to RES (R96): the three indices in any order. -/
def letResult (cfg : Config) (upper : Bool) (j2 j1 j0 : Nat) : Word :=
  resOfLookup cfg.charcode (letterOf cfg (sortAsc [canonAt j0, canonAt j1, canonAt j2]) upper)

/-- SIG sym (R95). -/
def execSig (imm8 : BitVec 8) (s : State) : Host.Outcome State Fault Refusal :=
  .next (if isSym imm8.toNat then s.setRes (sigResult s.config imm8.toNat) else raise .illegalCommand s)

/-- LET case, j2, j1, j0 (R96). -/
def execLet (upper : Bool) (j2 j1 j0 : BitVec 4) (s : State) : Host.Outcome State Fault Refusal :=
  .next (if isCanonIndex j0.toNat && isCanonIndex j1.toNat && isCanonIndex j2.toNat then
      s.setRes (letResult s.config upper j2.toNat j1.toNat j0.toNat)
    else raise .illegalCommand s)

end Sys2Proof.Machine
end

