-- ==== Sys2Proof/Machine/Trig.lean ====
section
/-! DEFINITION. Cosines on integers (00_scope R12). Every real of the spec is exact; what the host
observes depends on reals only through comparisons and roundings. The model decides those on integers:
`cosFix p a q` and the entries of `cosTable p q` are `2^p * cos(2*pi*a/q)` to within 2 units, for every
`p`, and each command takes `p` so large that two different values of its own could not lie that close
(log entry 10). So an outcome is the one exact arithmetic gives, ties included. -/

namespace Sys2Proof.Machine

/-- `k z`, with `z` evaluated first. It changes no value; it keeps evaluation by Lean's kernel from
carrying unevaluated terms along. -/
def forced {α : Type} (z : Int) (k : Int → α) : α :=
  match z with
  | .ofNat 0 => k (.ofNat 0)
  | .ofNat (n + 1) => k (.ofNat (n + 1))
  | .negSucc 0 => k (.negSucc 0)
  | .negSucc (n + 1) => k (.negSucc (n + 1))

/-- `k n`, with `n` evaluated first. -/
def forcedNat {α : Type} (n : Nat) (k : Nat → α) : α :=
  match n with
  | 0 => k 0
  | m + 1 => k (m + 1)

/-- `k l`, with the entries of `l` evaluated first. -/
def forcedList {α : Type} (l : List Int) (k : List Int → α) : α :=
  match l with
  | [] => k []
  | x :: xs => forced x fun y => forcedList xs fun ys => k (y :: ys)

/-- The alternating sum `t/d - (t/m2)/(d+2) + ...` of `n` terms, each rounded down. -/
def arctanLoop (m2 : Nat) : Nat → Nat → Nat → Int
  | 0, _, _ => 0
  | n + 1, t, d => ((t / d : Nat) : Int) - arctanLoop m2 n (t / m2) (d + 2)

/-- `2^v * arctan(1/m)` to within `n + 1`, by `n` terms of its power series. -/
def arctanInv (v m n : Nat) : Int := arctanLoop (m * m) n (2 ^ v / m) 1

/-- `2^w * pi` to within 2: `pi = 16*arctan(1/5) - 4*arctan(1/239)`. -/
def piFix (w : Nat) : Nat :=
  let v := w + (w.log2 + 16)
  ((16 * arctanInv v 5 (v / 4 + 1) - 4 * arctanInv v 239 (v / 15 + 1)) / (2 ^ (w.log2 + 16) : Nat)).toNat

/-- Horner's rule, `n` steps, for the power series of the cosine in the square `y2 / 2^w` of the angle,
at scale `2^w`; `j` counts the steps above. -/
def cosHorner (w y2 : Nat) : Nat → Nat → Nat
  | 0, _ => 2 ^ w
  | n + 1, j => 2 ^ w - cosHorner w y2 n (j + 1) * y2 / 2 ^ w / ((2 * j + 1) * (2 * j + 2))

/-- `n` doublings of the angle, `cos(2x) = 2*cos(x)^2 - 1`, at scale `2^w`. -/
def doubleAngle (w : Nat) : Nat → Int → Int
  | 0, c => c
  | n + 1, c => doubleAngle w n (c * c / (2 ^ (w - 1) : Nat) - (2 ^ w : Nat))

/-- How often the angle is halved before the series, and doubled after it. -/
def halvings : Nat := 35

/-- `2^p * cos(2*pi*a/q)` to within 2, for `q > 0`. -/
def cosFix (p a q : Nat) : Int :=
  let w := p + 90
  let y := 2 * piFix w * (a % q) / (q * 2 ^ halvings)
  doubleAngle w halvings (cosHorner w (y * y / 2 ^ w) (w / 64 + 1) 0) / (2 ^ 90 : Nat)

/-- The `n` values from `c` on of the recurrence `cos((j+1)x) = 2*cos(x)*cos(jx) - cos((j-1)x)` at scale
`2^w`, where `c1` is the cosine of `x` and `c`, `c'` are two successive values. -/
def cosRecurrence (w : Nat) (c1 : Int) : Nat → Int → Int → List Int
  | 0, _, _ => []
  | n + 1, c, c' => c :: forced (2 * c1 * c' / (2 ^ w : Nat) - c) fun c'' => cosRecurrence w c1 n c' c''

/-- `2^p * cos(2*pi*j/q)` to within 2, for `j = 0 .. q-1` and `q > 0`. -/
def cosTable (p q : Nat) : List Int :=
  let w := p + (2 * q + 2)
  forced (cosFix w 1 q) fun c1 => (cosRecurrence w c1 q (2 ^ w : Nat) c1).map (· / (2 ^ (2 * q + 2) : Nat))

/-- `k` at a table cut into rows of 16 entries, `n` rows, evaluated first: an entry is then found in two
short walks. -/
def withRows {α : Type} (n : Nat) (l : List Int) (k : List (List Int) → α) : α :=
  match n with
  | 0 => k []
  | n + 1 => forcedList (l.take 16) fun r => withRows n (l.drop 16) fun rs => k (r :: rs)

/-- Entry `n` of a list, `d` past its end. -/
def nth {α : Type} (d : α) : List α → Nat → α
  | [], _ => d
  | x :: _, 0 => x
  | _ :: xs, n + 1 => nth d xs n

/-- Entry `j` of a table in rows. -/
def entry (t : List (List Int)) (j : Nat) : Int := nth 0 (nth [] t (j / 16)) (j % 16)

/-- `k` at the cosine table of `p`, `q`, in rows. -/
def withCosTable {α : Type} (p q : Nat) (k : List (List Int) → α) : α :=
  forcedList (cosTable p q) fun l => withRows (q / 16 + 1) l k

end Sys2Proof.Machine
end

