-- ==== Sys2Proof/Machine/Filterbank.lean ====
section
/-! DEFINITION. The filter-bank decoder and the command DECF (44_filterbank_decoder). -/

namespace Sys2Proof.Machine

/-- The coefficients of one channel (R152), at scale `2^w`. -/
structure Coef where
  b0 : Int
  a1 : Int
  a2 : Int
deriving DecidableEq, Repr

/-- One row of COEF (R152) at scale `2^w`. With `theta = pi*f/(Q*FS)` and `beta = tan(theta)`,
`b0 = beta/(1+beta) = sin/(cos+sin)`, `a1 = -2*cos(2*pi*f/FS)/(1+beta) = -2*cos(2*pi*f/FS)*cos/(cos+sin)`,
`a2 = (1-beta)/(1+beta) = (cos-sin)/(cos+sin)`, the sine and cosine being those of
`theta = 2*pi*2f/(4*Q*FS)`; the sine is the cosine three quarters of a turn on. -/
def coefAt (cfg : Config) (w f : Nat) : Coef :=
  let turn := 4 * qualityFactor * cfg.fs
  forced (cosFix w (2 * f) turn) fun c =>
  forced (cosFix w (2 * f + 3 * (qualityFactor * cfg.fs)) turn) fun s =>
  forced (cosFix w f cfg.fs) fun phi =>
  forced (s * (2 ^ w : Nat) / (c + s)) fun b0 =>
  forced (-(2 * phi * c) / (c + s)) fun a1 =>
  forced ((c - s) * (2 ^ w : Nat) / (c + s)) fun a2 => ⟨b0, a1, a2⟩

/-- One filtering pass from rest (R153): `y[n] = b0*x[n] - b0*x[n-2] - a1*y[n-1] - a2*y[n-2]`. -/
def filterPass (w : Nat) (k : Coef) : List Int → Int → Int → Int → Int → List Int
  | [], _, _, _, _ => []
  | x :: xs, x1, x2, y1, y2 =>
    forced ((k.b0 * (x - x2) - k.a1 * y1 - k.a2 * y2) / (2 ^ w : Nat)) fun y =>
      y :: filterPass w k xs x x1 y y1

/-- `filt_i(x)` (R153). -/
def filt (w : Nat) (k : Coef) (x : List Int) : List Int := filterPass w k x 0 0 0 0

/-- The zero-phase pass (R154): forward from rest, reversed, forward from rest again, reversed. -/
def zeroPhase (w : Nat) (k : Coef) (x : List Int) : List Int := (filt w k (filt w k x).reverse).reverse

/-- The maximum absolute value of a list (R155). -/
def peak (y : List Int) : Int := (y.map fun v => (v.natAbs : Int)).foldl max 0

/-- `m`, the largest sample value with its sign (R151). -/
def blockMax (b : List Int) : Int :=
  match b with
  | [] => 0
  | x :: xs => xs.foldl max x

/-- The normalized block `xn[n] = b[n] / m` (R151) at scale `2^w`. -/
def normalizeBlock (w : Nat) (m : Int) (b : List Int) : List Int := b.map fun x => x * (2 ^ w : Nat) / m

/-- `RESP[0..10]` (R155) at scale `2^w`, to within half of `filterTolerance`. -/
def responses (cfg : Config) (w : Nat) (m : Int) (b : List Int) : List Int :=
  forcedList (normalizeBlock w m b) fun x => canon.map fun f => peak (zeroPhase w (coefAt cfg w f) x)

/-- Two responses at scale `2^w` that are known to within half of this. -/
def filterTolerance : Int := (2 ^ 2000 : Nat)

/-- Whether each comparison the decoder makes is settled at this scale: the two case channels, and every
two of the nine channels that are ranked. -/
def settled (r : List Int) : Bool :=
  decide (filterTolerance.natAbs < (r.getD 1 0 - r.getD 0 0).natAbs) &&
  decide ((r.drop 2).Pairwise fun x y => filterTolerance.natAbs < (x - y).natAbs)

/-- Binary digits at which nearly every block is settled. -/
def filterPrecision : Nat := 2200

/-- Binary digits enough to decide every comparison exactly: responses that agree within the tolerance
at this scale are equal (log entry 10). -/
def filterPrecisionExact (cfg : Config) : Nat :=
  4000 * (4 * qualityFactor * cfg.fs / Nat.gcd 200 (qualityFactor * cfg.fs)) + 2200

/-- Case indicator and peak ranker (R156, R157): 200 Hz strictly above 100 Hz means uppercase; the three
largest of the nine responses, the lower frequency first on a tie. -/
def lookupResponses (cfg : Config) (r : List Int) : Option Char8 :=
  let upper := decide (r.getD 0 0 + filterTolerance < r.getD 1 0)
  let t := sortAsc ((topK (precedes filterTolerance) (r.drop 2) filterPeaks).map fun i => restricted.getD i 0)
  letterOf cfg t upper

/-- `fb_decode(b)` (R159). -/
def fbDecode (cfg : Config) (b : List Int) : Decoded :=
  forcedList b fun b =>
    let m := blockMax b
    if m = 0 then .degenerate cfg.charcode
    else forcedList (responses cfg filterPrecision m b) fun r =>
      if settled r then .ofLookup cfg.charcode (lookupResponses cfg r)
      else .ofLookup cfg.charcode (lookupResponses cfg (responses cfg (filterPrecisionExact cfg) m b))

/-- DECF (R160). -/
def execDecf (s : State) : Host.Outcome State Fault Refusal := .next (decodeCommand (fbDecode s.config) s)

end Sys2Proof.Machine
end

