-- ==== Sys2Proof/Machine/Quantizer.lean ====
section
/-! DEFINITION. The frequency quantizer and the command QNT (42_frequency_quantizer). -/

namespace Sys2Proof.Machine

/-- The loop of R120 on the frequency `num / den` hertz, both sides of every comparison multiplied by
`den`: `i` is the index of the head of the list, `best` and `bd` the best index so far and its distance.
Strictly less: an equal distance keeps the earlier index. -/
def quantizeLoop (num den : Nat) : List Nat → Nat → Nat → Nat → Nat
  | [], _, best, _ => best
  | f :: fs, i, best, bd =>
    let d := ((num : Int) - (den : Int) * (f : Int)).natAbs
    if d < bd then quantizeLoop num den fs (i + 1) i d else quantizeLoop num den fs (i + 1) best bd

/-- `quantize(num / den)` (R120): the index in `CANON` of the nearest canonical frequency, the earliest
on a tie. The frequency is an exact rational (R178 (d), (g)). -/
def quantize (num den : Nat) : Nat :=
  quantizeLoop num den (canon.drop 1) 1 0 ((num : Int) - (den : Int) * (canonAt 0 : Int)).natAbs

/-- `quantize_hz` (R120). -/
def quantizeHz (num den : Nat) : Nat := canonAt (quantize num den)

/-- QNT imm16 (R122): the operand is in eighths of a hertz. -/
def execQnt (imm16 : BitVec 16) (s : State) : Host.Outcome State Fault Refusal :=
  .next (s.setRes (resOfIndex (quantize imm16.toNat 8)))

end Sys2Proof.Machine
end

