-- ==== Sys2Proof/Machine/Spectral.lean ====
section
/-! DEFINITION. The spectral decoder and the command DECS (43_spectral_decoder). -/

namespace Sys2Proof.Machine

/-- Binary digits enough to decide every comparison of two magnitudes exactly (log entry 10). -/
def spectralPrecision : Nat := 6200

/-- The sum over `n` of `x[n]` times entry `j + k*n` (modulo 320) of the table, added to `acc`. With `j = 0`
it correlates with the cosine of bin `k`; with `j = 240`, where the cosine is the sine, with its sine. -/
def correlate (table : List (List Int)) (k : Nat) (x : List Int) (j : Nat) (acc : Int) : Int :=
  match x with
  | [] => acc
  | b :: bs =>
    forced (if b = 0 then acc else acc + b * entry table j) fun acc =>
    forcedNat ((j + k) % 320) fun j => correlate table k bs j acc

/-- A list `x[0..2h]` folded about its middle, `x[n] + sign * x[2h-n]` for `n < h`, then `x[h]`: the sum of
`x[n] * c[n]` is kept when `c[2h-n] = sign * c[n]`. -/
def foldMiddle (sign : Int) (h : Nat) (x : List Int) : List Int :=
  List.zipWith (fun a b => a + sign * b) (x.take h) (x.reverse.take h) ++ (x.drop h).take 1

/-- A block folded twice, to 81 values. `cos(2*pi*k*n/320)` is the same at `320-n`, and at `160-n` the same
for even `k`, opposite for odd `k`; `sin` is opposite at `320-n`, and at `160-n` opposite for even `k`, the
same for odd `k`. `sign` is 1 for the cosine and -1 for the sine. -/
def foldBlock (sign : Int) (odd : Bool) (b : List Int) : List Int :=
  foldMiddle (if odd then -sign else sign) 80 (foldMiddle sign 160 (b ++ [0]))

/-- `Re[k]^2 + Im[k]^2` (R131) at scale `2^(2p)`, from the folded blocks for the cosine and the sine: the
square of `160 * MAG[k]` (R132). Squares of magnitudes compare as magnitudes do. -/
def power (table : List (List Int)) (c s : List Int) (k : Nat) : Int :=
  forced (correlate table k c 0 0) fun re =>
  forced (correlate table k s 240 0) fun im => re * re + im * im

/-- The powers of the 161 bins 0..160 (R131, R132: bin 160 is the Nyquist frequency, 90_conflicts C3). -/
def binPowers (b : List Int) : List Int :=
  forcedList (foldBlock 1 false b) fun c0 => forcedList (foldBlock (-1) false b) fun s0 =>
  forcedList (foldBlock 1 true b) fun c1 => forcedList (foldBlock (-1) true b) fun s1 =>
  withCosTable spectralPrecision 320 fun table =>
    (List.range 161).map fun k => if k % 2 = 0 then power table c0 s0 k else power table c1 s1 k

/-- Two powers that lie this close are equal (log entry 10). -/
def spectralTolerance : Int := (2 ^ (spectralPrecision + 51) : Nat)

/-- The degeneracy test of R136: `MAG[k] = MAG[0]` for every `k`. -/
def flatSpectrum (v : List Int) : Bool :=
  v.all fun x => decide ((x - v.headD 0).natAbs ≤ spectralTolerance.natAbs)

/-- Steps 3 to 5 of R130 for the four bins found: quantize `k * FS / 320` hertz, sort, split, look up
(R134, R135). The smallest is the case indicator; any value but 100 means uppercase (R134, R230 (a)). -/
def lookupBins (cfg : Config) (bins : List Nat) : Option Char8 :=
  let q := sortAsc (bins.map fun k => quantizeHz (k * cfg.fs) blockLength)
  letterOf cfg (q.drop 1) (q.getD 0 0 != lowerTone)

/-- `spec_decode(b)` (R137). -/
def specDecode (cfg : Config) (b : List Int) : Decoded :=
  forcedList b fun b => forcedList (binPowers b) fun v =>
    if flatSpectrum v then .degenerate cfg.charcode
    else .ofLookup cfg.charcode (lookupBins cfg (topK (precedes spectralTolerance) v spectralPeaks))

/-- DECS (R138). -/
def execDecs (s : State) : Host.Outcome State Fault Refusal := .next (decodeCommand (specDecode s.config) s)

end Sys2Proof.Machine
end

