-- ==== Sys2Proof/Machine/Stream.lean ====
section
/-! DEFINITION. The stream, block and housekeeping commands NOP, LDS, ENDS, CLRF, RST (45_codec_driver). -/

namespace Sys2Proof.Machine

/-- NOP (R171). -/
def execNop (s : State) : Host.Outcome State Fault Refusal := .next s

/-- `BLK[SCNT] <- v; SCNT <- SCNT + 1`, where the count has room (R172, R178 (a)). -/
def State.loadSample (s : State) (v : Sample) (room : s.scnt.val < blockLength) : State :=
  { s with blk := s.blk.write s.scnt.val v, scnt := ⟨s.scnt.val + 1, Nat.succ_lt_succ room⟩ }

/-- LDS sample (R172). -/
def execLds (imm16 : BitVec 16) (s : State) : Host.Outcome State Fault Refusal :=
  if room : s.scnt.val < blockLength then .next (s.loadSample imm16 room)
  else .next (raise .blockOverrun s)

/-- ENDS (R173). -/
def execEnds (s : State) : Host.Outcome State Fault Refusal := .next s.clearCount

/-- CLRF (R174). -/
def execClrf (s : State) : Host.Outcome State Fault Refusal := .next (s.setStatus 0)

/-- RST (R175). -/
def execRst (s : State) : Host.Outcome State Fault Refusal := .next s.toReset

end Sys2Proof.Machine
end

