-- ==== Sys2Proof/Machine/Synth.lean ====
section
/-! DEFINITION. The tone synthesizer and the commands SETA, SYN, ENC (41_tone_synthesizer). -/

namespace Sys2Proof.Machine

/-- The case tone (R102): 100 Hz for space whatever the flag (90_conflicts C2), else 200 Hz iff upper. -/
def caseTone (s : Nat) (upper : Bool) : Nat :=
  if s = spaceSym then lowerTone else if upper then upperTone else lowerTone

/-- The four frequencies whose cosines are summed (R102): the Signature's three and the case tone. -/
def tonesOf (cfg : Config) (s : Nat) (upper : Bool) : List Nat :=
  match cfg.sigtab[s]? with
  | some g => g.toList ++ [caseTone s upper]
  | none => []

/-- Every tone is a multiple of 100 Hz, so the angles `2*pi*f*n/FS` are multiples of
`2*pi/period` with `period = FS / gcd(FS, 100)` (R102: the angle reduced in integers). -/
def grid (cfg : Config) : Nat := cfg.fs.gcd 100

/-- The number of distinct angles. -/
def period (cfg : Config) : Nat := cfg.fs / grid cfg

/-- The angle of tone `f` at sample `n`, in units of `2*pi/period`. -/
def phase (cfg : Config) (f n : Nat) : Nat := f / grid cfg * n % period cfg

/-- Binary digits enough to decide every rounding exactly at any amplitude (log entry 10). -/
def synthPrecision (cfg : Config) : Nat := 28 * period cfg + 32

/-- `2^p` times the sum of the cosines of the tones at sample `n` (R102 without the amplitude). -/
def toneSum (cfg : Config) (table : List (List Int)) (tones : List Nat) (n : Nat) : Int :=
  (tones.map fun f => entry table (phase cfg f n)).sum

/-- The even one of `t` and `t + 1`. -/
def evenOf (t : Int) : Int := if t % 2 = 0 then t else t + 1

/-- `round_half_even` (R104) of the real `x / d`, where `a` is `2^p * x` to within `e` units, and `p` is so
large that `x / d`, if it is no tie, is further than `2 * e` units of `2^p * 2 * d` from every tie. -/
def roundHalfEven (p e d : Nat) (a : Int) : Int :=
  let u : Int := (d * 2 ^ p : Nat)
  let t := (2 * a + u) / (2 * u)
  if (2 * t + 1) * u - 2 * a ≤ 2 * (e : Int) then evenOf t
  else if 2 * a - (2 * t - 1) * u ≤ 2 * (e : Int) then evenOf (t - 1)
  else t

/-- `round_half_even(100 * x[n])` (R102, R104) at amplitude `A = amp / 256` (R23, R178 (f)): `100 * x[n]`
is `(100 * amp * sum of cosines) / 256`. -/
def roundedSample (cfg : Config) (table : List (List Int)) (tones : List Nat) (amp n : Nat) : Int :=
  roundHalfEven (synthPrecision cfg) (8 * (pcmScale * amp)) 256
    ((pcmScale * amp : Nat) * toneSum cfg table tones n)

/-- Saturation to -32768..32767 and whether it took place (R104, R178 (c)). -/
def saturate (v : Int) : Int × Bool :=
  if v > 32767 then (32767, true) else if v < -32768 then (-32768, true) else (v, false)

/-- The 320 rounded values of `synth(s, upper, amp/256)`, before saturation (R102, R104). -/
def synthRounded (cfg : Config) (s : Nat) (upper : Bool) (amp : Nat) : List Int :=
  withCosTable (synthPrecision cfg) (period cfg) fun table =>
    (List.range blockLength).map (roundedSample cfg table (tonesOf cfg s upper) amp)

/-- `pcm(synth(s, upper, amp/256))` (R102, R104): the 320 stored samples, and whether one was clipped. -/
def pcmBlock (cfg : Config) (s : Nat) (upper : Bool) (amp : Nat) : List Sample × Bool :=
  forcedList (synthRounded cfg s upper amp) fun r =>
    (r.map fun v => sampleOfInt (saturate v).1, r.any fun v => (saturate v).2)

/-- Append a rendered block to SOUT and raise PcmClip if it was clipped (R105, R106, R195). -/
def emitBlock (p : List Sample × Bool) (s : State) : State :=
  match p with
  | (samples, clipped) => raiseIf clipped .pcmClip (s.pushSamples samples)

/-- SETA imm16 (R101). -/
def execSeta (imm16 : BitVec 16) (s : State) : Host.Outcome State Fault Refusal := .next (s.setAmp imm16)

/-- SYN sym, u (R105). -/
def execSyn (sym : BitVec 5) (upper : Bool) (s : State) : Host.Outcome State Fault Refusal :=
  .next (if isSym sym.toNat then emitBlock (pcmBlock s.config sym.toNat upper s.amp.toNat) s
    else raise .illegalCommand s)

/-- ENC char (R106). -/
def execEnc (imm8 : BitVec 8) (s : State) : Host.Outcome State Fault Refusal :=
  .next (match symOfChar s.config.charcode imm8 with
    | none => raise .encodingInputRejected s
    | some sym => emitBlock (pcmBlock s.config sym (isUpper s.config.charcode imm8) s.amp.toNat) s)

end Sys2Proof.Machine
end

