-- ==== Sys2Proof/Machine/Dispatch.lean ====
section
/-! DEFINITION. One arm per command. -/

namespace Sys2Proof.Machine

def exec (i : Instr) (s : State) : Host.Outcome State Fault Refusal :=
  match i with
  | .nop => Sys2Proof.Machine.execNop s
  | .sig imm8 => Sys2Proof.Machine.execSig imm8 s
  | .let_ upper j2 j1 j0 => Sys2Proof.Machine.execLet upper j2 j1 j0 s
  | .seta imm16 => Sys2Proof.Machine.execSeta imm16 s
  | .syn sym upper => Sys2Proof.Machine.execSyn sym upper s
  | .enc imm8 => Sys2Proof.Machine.execEnc imm8 s
  | .qnt imm16 => Sys2Proof.Machine.execQnt imm16 s
  | .decs => Sys2Proof.Machine.execDecs s
  | .decf => Sys2Proof.Machine.execDecf s
  | .lds imm16 => Sys2Proof.Machine.execLds imm16 s
  | .ends => Sys2Proof.Machine.execEnds s
  | .clrf => Sys2Proof.Machine.execClrf s
  | .rst => Sys2Proof.Machine.execRst s

end Sys2Proof.Machine
end

