-- ==== Sys2Proof/Machine/HostPort.lean ====
section
/-! DEFINITION. The command port and the host-visible register map (10_state R28; 20_memory R50 to R56). -/

namespace Sys2Proof.Machine

/-- Byte offset of `CMD` (R28). -/
def offCmd : Nat := 0x00
/-- Byte offset of `STATUS` (R28). -/
def offStatus : Nat := 0x04
/-- Byte offset of `AMP` (R28). -/
def offAmp : Nat := 0x08
/-- Byte offset of `SCNT` (R28). -/
def offScnt : Nat := 0x0C
/-- Byte offset of `RES` (R28). -/
def offRes : Nat := 0x10
/-- Byte offset of `SDATA` (R28). -/
def offSdata : Nat := 0x14
/-- Byte offset of `SLVL` (R28). -/
def offSlvl : Nat := 0x18
/-- Byte offset of `CDATA` (R28). -/
def offCdata : Nat := 0x1C
/-- Byte offset of `CLVL` (R28). -/
def offClvl : Nat := 0x20

/-- One engine step: a word written to `CMD` (R28, R56). A legal word runs its command; an illegal one
raises IllegalCommand and changes nothing else (30_encoding R78, R82). -/
def command (w : Word) (s : State) : Host.Outcome State Fault Refusal :=
  match decode w with
  | .ok i => exec i s
  | .error _ => .next (raise .illegalCommand s)

/-- A queue level as a register: `min(len, 2^32 - 1)` (R28). -/
def levelWord (n : Nat) : Word := BitVec.ofNat 32 (min n (2 ^ 32 - 1))

/-- A read of `SDATA` (R28): 0 from an empty queue, else the head sample with the valid bit, popped. -/
def popSample (s : State) : Word × State :=
  match s.sout with
  | [] => (0, s)
  | v :: rest => (1#1 ++ 0#15 ++ v, { s with sout := rest })

/-- A read of `CDATA` (R28): 0 from an empty queue, else the head character with the valid bit, popped. -/
def popChar (s : State) : Word × State :=
  match s.cout with
  | [] => (0, s)
  | c :: rest => (1#1 ++ 0#23 ++ c, { s with cout := rest })

/-- The value a 32-bit aligned host read returns and the state it leaves (R28): only `SDATA` and `CDATA`
have an effect; an offset that is not listed reads 0. -/
def hostRead (off : Nat) (s : State) : Word × State :=
  if off = offStatus then (s.status &&& statusMask, s)
  else if off = offAmp then (s.amp.setWidth 32, s)
  else if off = offScnt then (BitVec.ofNat 32 s.scnt.val, s)
  else if off = offRes then (s.res, s)
  else if off = offSdata then popSample s
  else if off = offSlvl then (levelWord s.sout.length, s)
  else if off = offCdata then popChar s
  else if off = offClvl then (levelWord s.cout.length, s)
  else (0, s)

/-- The record of a read (00_scope R17). -/
def State.observe (r : Word × State) : State := { r.2 with observed := r.2.observed ++ [r.1] }

/-- A 32-bit aligned host write (R28): `CMD` issues a command; every other write is ignored. -/
def hostWrite (off : Nat) (v : Word) (s : State) : Host.Outcome State Fault Refusal :=
  if off = offCmd then command v s else .next s

/-- Whether the spec gives a host access a meaning: 32 bits wide, at a multiple of 4 (R52). -/
def accessSupported (width : AccessWidth) (off : Nat) : Bool := decide (width = .word) && decide (off % 4 = 0)

/-- One host action (00_scope R17), complete before the next (R56). -/
def hostAction (a : HostAction) (s : State) : Host.Outcome State Fault Refusal :=
  match a with
  | .write width off v => if accessSupported width off then hostWrite off v s else .refused .unsupportedHostAccess
  | .read width off => if accessSupported width off then .next (.observe (hostRead off s)) else .refused .unsupportedHostAccess
  | .reset => .next s.toReset

/-- The next host action taken off the list of those the host has waiting, and performed. With none
waiting the block is idle and keeps its state (60_exceptions R210; 00_scope R17: every reachable state is
a legal resting state; log entry 3). -/
def nextAction (s : State) : Host.Outcome State Fault Refusal :=
  match s.inputs with
  | [] => .next s
  | a :: rest => hostAction a { s with inputs := rest }

end Sys2Proof.Machine
end

