-- ==== Sys2Proof/Machine/Step.lean ====
section
/-! DEFINITION. One step of the machine: the host's next action (00_scope R15, R17; 20_memory R56). -/

namespace Sys2Proof.Machine

/-- One step: the next host action, a command written to `CMD` among them. -/
def step (s : State) : Host.Outcome State Fault Refusal := nextAction s

/-- The machine of a block built with the given parameters (00_scope R7); `Sys2Proof.core` is the one at the
parameters the spec decides. -/
def machineAt (config : Config) : Host.Core where
  State := State
  Fault := Fault
  Refusal := Refusal
  step := step
  reset := State.resetWith config

/-- `s` with a write of the command word `w` (its bits from `nbits` up being 0) to `CMD` as the host's
next action, so that the very next step decodes and runs it (log entry 1). -/
def State.withFetchWord (s : State) (nbits w : Nat) : State :=
  { s with inputs := .write .word offCmd (BitVec.ofNat 32 (w % 2 ^ nbits)) :: s.inputs }

end Sys2Proof.Machine
end

