-- ==== Sys2Proof/Machine/Assembler.lean ====
section
/-! DEFINITION. The assembler syntax of 30_encoding R83: one line of text to a command. -/

namespace Sys2Proof.Machine

/-- A blank. -/
def isBlank (c : Char) : Bool := c = ' ' || c = '\t'

/-- The text before a comment, which starts with `;` outside quotes. -/
def stripComment : List Char → List Char
  | [] => []
  | '\'' :: c :: '\'' :: rest => '\'' :: c :: '\'' :: stripComment rest
  | ';' :: _ => []
  | c :: rest => c :: stripComment rest

/-- The text without the blanks around it. -/
def trimBlanks (t : List Char) : List Char := ((t.dropWhile isBlank).reverse.dropWhile isBlank).reverse

/-- The text cut at its commas, those in quotes apart. -/
def splitCommas : List Char → List Char → List (List Char)
  | acc, [] => [acc.reverse]
  | acc, '\'' :: c :: '\'' :: rest => splitCommas ('\'' :: c :: '\'' :: acc) rest
  | acc, ',' :: rest => acc.reverse :: splitCommas [] rest
  | acc, c :: rest => splitCommas (c :: acc) rest

/-- The value of a digit in a base up to 16. -/
def digitValue (base : Nat) (c : Char) : Option Nat :=
  let n := c.toNat
  let v := if 48 ≤ n ∧ n ≤ 57 then n - 48 else if 65 ≤ n ∧ n ≤ 70 then n - 55 else if 97 ≤ n ∧ n ≤ 102 then n - 87 else base
  if v < base then some v else none

/-- The value of a string of digits after `acc`. -/
def digitsFrom (base : Nat) (acc : Nat) : List Char → Option Nat
  | [] => some acc
  | c :: cs => (digitValue base c).bind fun d => digitsFrom base (base * acc + d) cs

/-- The value of a non-empty string of digits. -/
def digits (base : Nat) (t : List Char) : Option Nat := if t = [] then none else digitsFrom base 0 t

/-- The code a character stands for (R83, R7, R11); a character outside the alphabet and `*` stands for its
own ASCII code (log entry 16). -/
def codeOfChar (codes : CharCode) (c : Char) : Nat :=
  let n := c.toNat
  if 0x41 ≤ n ∧ n ≤ 0x5A then (codes.upper.getD (n - 0x41) 0).toNat
  else if 0x61 ≤ n ∧ n ≤ 0x7A then (codes.lower.getD (n - 0x61) 0).toNat
  else if c = ' ' then codes.space.toNat
  else if c = '*' then codes.star.toNat
  else n

/-- An operand: decimal, hexadecimal with `0x`, or one character in single quotes (R83). -/
def operand (codes : CharCode) : List Char → Option Nat
  | ['\'', c, '\''] => some (codeOfChar codes c)
  | '0' :: 'x' :: t => digits 16 t
  | t => digits 10 t

/-- An operand that fits in `w` bits. -/
def field (codes : CharCode) (w : Nat) (t : List Char) : Option (BitVec w) :=
  (operand codes t).bind fun n => if n < 2 ^ w then some (BitVec.ofNat w n) else none

/-- An operand of one bit. -/
def bitField (codes : CharCode) (t : List Char) : Option Bool := (field codes 1 t).map fun b => b.getLsbD 0

/-- LDS's operand: a negative decimal stands for its 16-bit two's-complement field (R83). -/
def sampleField (codes : CharCode) : List Char → Option (BitVec 16)
  | '-' :: t => (digits 10 t).bind fun n => if n ≤ 2 ^ 15 then some (BitVec.ofInt 16 (-n)) else none
  | t => field codes 16 t

/-- The command of a mnemonic and its operands, in the order of R83. -/
def assembleParts (codes : CharCode) (mnemonic : String) (ops : List (List Char)) : Option Instr :=
  match mnemonic, ops with
  | "NOP", [] => some .nop
  | "SIG", [a] => (field codes 8 a).map .sig
  | "LET", [a, b, c, d] => do
      let upper ← bitField codes a
      let j2 ← field codes 4 b
      let j1 ← field codes 4 c
      let j0 ← field codes 4 d
      pure (.let_ upper j2 j1 j0)
  | "SETA", [a] => (field codes 16 a).map .seta
  | "SYN", [a, b] => do
      let sym ← field codes 5 a
      let upper ← bitField codes b
      pure (.syn sym upper)
  | "ENC", [a] => (field codes 8 a).map .enc
  | "QNT", [a] => (field codes 16 a).map .qnt
  | "DECS", [] => some .decs
  | "DECF", [] => some .decf
  | "LDS", [a] => (sampleField codes a).map .lds
  | "ENDS", [] => some .ends
  | "CLRF", [] => some .clrf
  | "RST", [] => some .rst
  | _, _ => none

/-- The command a line of assembler text stands for (R83), operands at reserved values included; `none`
where the text is no command. -/
def assemble (codes : CharCode) (line : List Char) : Option Instr :=
  let t := trimBlanks (stripComment line)
  let mnemonic := t.takeWhile fun c => !isBlank c
  let rest := trimBlanks (t.drop mnemonic.length)
  assembleParts codes (String.ofList mnemonic) (if rest = [] then [] else (splitCommas [] rest).map trimBlanks)

end Sys2Proof.Machine
end

