-- ==== Sys2Proof/Machine/Reference.lean ====
section
/-! DEFINITION. The spec's real-valued functions as its rules write them, over the mathematical reals
(00_scope R12): the synthesizer (R102, R104), the spectral decoder (R131 to R137) and the filter-bank
decoder (R151 to R161). No command calls them; statements compare the machine with them. -/

namespace Sys2Proof.Reference

open Sys2Proof.Machine (Decoded letterOf caseTone topK)

/-! ### The tone synthesizer -/

/-- Sample `n` of `synth(s, upper, A)` (R102). -/
noncomputable def sample (cfg : Config) (s : Nat) (upper : Bool) (A : ℝ) (n : Nat) : ℝ :=
  match cfg.sigtab[s]? with
  | some g =>
    A * Real.cos (2 * Real.pi * g.low * n / cfg.fs) + A * Real.cos (2 * Real.pi * g.middle * n / cfg.fs) +
    A * Real.cos (2 * Real.pi * g.high * n / cfg.fs) + A * Real.cos (2 * Real.pi * caseTone s upper * n / cfg.fs)
  | none => 0

/-- `synth(s, upper, A)` (R102): 320 reals. -/
noncomputable def synth (cfg : Config) (s : Nat) (upper : Bool) (A : ℝ) : List ℝ :=
  (List.range blockLength).map (sample cfg s upper A)

/-- `round_half_even` (R104): the nearest integer, the even one of the two when halfway. -/
noncomputable def roundHalfEven (r : ℝ) : ℤ :=
  if r - ⌊r⌋ < 1 / 2 then ⌊r⌋
  else if 1 / 2 < r - ⌊r⌋ then ⌊r⌋ + 1
  else if ⌊r⌋ % 2 = 0 then ⌊r⌋ else ⌊r⌋ + 1

/-- Saturation to 16 bits (R104). -/
def saturated (v : ℤ) : ℤ := if v > 32767 then 32767 else if v < -32768 then -32768 else v

/-- `pcm(x)` (R104): the stored samples and `clipped`. -/
noncomputable def pcm (x : List ℝ) : List ℤ × Bool :=
  let v := x.map fun r => roundHalfEven (100 * r)
  (v.map saturated, v.any fun z => decide (z > 32767 ∨ z < -32768))

/-! ### The spectral decoder -/

/-- `Re[k]` (R131). -/
noncomputable def re (b : List ℤ) (k : Nat) : ℝ :=
  ∑ n ∈ Finset.range 320, (b.getD n 0 : ℝ) * Real.cos (2 * Real.pi * k * n / 320)

/-- `Im[k]` (R131). -/
noncomputable def im (b : List ℤ) (k : Nat) : ℝ :=
  -∑ n ∈ Finset.range 320, (b.getD n 0 : ℝ) * Real.sin (2 * Real.pi * k * n / 320)

/-- `MAG[k]` (R132). -/
noncomputable def mag (b : List ℤ) (k : Nat) : ℝ := 2 / 320 * Real.sqrt (re b k ^ 2 + im b k ^ 2)

/-- "Index `i` precedes index `j` iff `v[i] > v[j]`, or `v[i] = v[j]` and `i < j`" (R13). -/
noncomputable def precedes (a b : ℝ × Nat) : Bool := decide (a.1 > b.1 ∨ (a.1 = b.1 ∧ a.2 < b.2))

/-- The loop of R120 over the reals, from the canonical frequency of index `i` on. -/
noncomputable def quantizeLoop (f : ℝ) : List Nat → Nat → Nat → ℝ → Nat
  | [], _, best, _ => best
  | c :: cs, i, best, bd =>
    if |f - c| < bd then quantizeLoop f cs (i + 1) i |f - c| else quantizeLoop f cs (i + 1) best bd

/-- `quantize(f)` (R120). -/
noncomputable def quantize (f : ℝ) : Nat := quantizeLoop f (canon.drop 1) 1 0 |f - (100 : ℝ)|

/-- `quantize_hz(f)` (R120). -/
noncomputable def quantizeHz (f : ℝ) : Nat := canon.getD (quantize f) 0

/-- `spec_decode(b)` (R137). -/
noncomputable def specDecode (cfg : Config) (b : List ℤ) : Decoded :=
  let v := (List.range 161).map (mag b)
  if ∀ k ∈ Finset.Icc 1 160, mag b k = mag b 0 then ⟨cfg.charcode.star, true, true⟩
  else
    let q := sortAsc ((topK precedes v 4).map fun (k : Nat) => quantizeHz ((k : ℝ) * cfg.fs / 320))
    match letterOf cfg (q.drop 1) (decide (q.getD 0 0 ≠ 100)) with
    | some c => ⟨c, false, false⟩
    | none => ⟨cfg.charcode.star, false, true⟩

/-! ### The filter-bank decoder -/

/-- `beta` (R152): `tan(pi * f / (Q * FS))`, `Q = 5`. -/
noncomputable def beta (cfg : Config) (f : Nat) : ℝ := Real.tan (Real.pi * f / (5 * cfg.fs))

/-- `b0` (R152). -/
noncomputable def b0 (cfg : Config) (f : Nat) : ℝ := beta cfg f / (1 + beta cfg f)

/-- `a1` (R152). -/
noncomputable def a1 (cfg : Config) (f : Nat) : ℝ := -2 * Real.cos (2 * Real.pi * f / cfg.fs) / (1 + beta cfg f)

/-- `a2` (R152). -/
noncomputable def a2 (cfg : Config) (f : Nat) : ℝ := (1 - beta cfg f) / (1 + beta cfg f)

/-- The recursion of R153, with the two delayed inputs and the two delayed outputs. -/
noncomputable def filterPass (b0 a1 a2 : ℝ) : List ℝ → ℝ → ℝ → ℝ → ℝ → List ℝ
  | [], _, _, _, _ => []
  | x :: xs, x1, x2, y1, y2 =>
    (b0 * x - b0 * x2 - a1 * y1 - a2 * y2) ::
      filterPass b0 a1 a2 xs x x1 (b0 * x - b0 * x2 - a1 * y1 - a2 * y2) y1

/-- `filt_i(x)` for the channel of frequency `f` (R153): from rest. -/
noncomputable def filt (cfg : Config) (f : Nat) (x : List ℝ) : List ℝ :=
  filterPass (b0 cfg f) (a1 cfg f) (a2 cfg f) x 0 0 0 0

/-- `zp_i(x)` (R154). -/
noncomputable def zeroPhase (cfg : Config) (f : Nat) (x : List ℝ) : List ℝ :=
  (filt cfg f (filt cfg f x).reverse).reverse

/-- The maximum absolute value (R155). -/
noncomputable def peak (y : List ℝ) : ℝ := (y.map fun v => |v|).foldl max 0

/-- `m` (R151): the largest sample value, with its sign. -/
def blockMax (b : List ℤ) : ℤ :=
  match b with
  | [] => 0
  | x :: xs => xs.foldl max x

/-- `xn` (R151). -/
noncomputable def normalized (b : List ℤ) : List ℝ := b.map fun (x : ℤ) => (x : ℝ) / (blockMax b : ℝ)

/-- `RESP` of the channel of frequency `f` (R155). -/
noncomputable def resp (cfg : Config) (b : List ℤ) (f : Nat) : ℝ := peak (zeroPhase cfg f (normalized b))

/-- `fb_decode(b)` (R159). -/
noncomputable def fbDecode (cfg : Config) (b : List ℤ) : Decoded :=
  if blockMax b = 0 then ⟨cfg.charcode.star, true, true⟩
  else
    let upper := decide (resp cfg b 200 > resp cfg b 100)
    let t := sortAsc ((topK precedes (restricted.map (resp cfg b)) 3).map fun i => restricted.getD i 0)
    match letterOf cfg t upper with
    | some c => ⟨c, false, false⟩
    | none => ⟨cfg.charcode.star, false, true⟩

end Sys2Proof.Reference
end

