-- ==== Sys2Proof/Machine/Driver.lean ====
section
/-! DEFINITION. The codec driver as command sequences: the pseudo-instructions of 30_encoding R84, and how a
sample stream is cut into blocks (20_memory R53, 45_codec_driver R170). -/

namespace Sys2Proof.Machine

/-- Commands executed one after another, each completely (20_memory R56). -/
def execAll : List Instr → State → Host.Outcome State Fault Refusal
  | [], s => .next s
  | i :: is, s =>
    match exec i s with
    | .next s' => execAll is s'
    | .fault r => .fault r
    | .refused r => .refused r

/-- `ENCODE` (R84): one ENC per character, in text order. -/
def encodeProgram (text : List Char8) : List Instr := text.map .enc

/-- `LDB` (R84): one LDS per sample. -/
def loadProgram (block : List Sample) : List Instr := block.map .lds

/-- The rest of `DECODE.S` or `DECODE.F` when `k` samples of the current block are loaded: an LDS per
sample, the decode command `dec` after every 320th, an ENDS after the last. -/
def decodeFrom (dec : Instr) : Nat → List Sample → List Instr
  | _, [] => [.ends]
  | k, v :: vs =>
    .lds v :: if k + 1 = blockLength then dec :: decodeFrom dec 0 vs else decodeFrom dec (k + 1) vs

/-- `DECODE.S` (R84). -/
def decodeSpectralProgram (samples : List Sample) : List Instr := decodeFrom .decs 0 samples

/-- `DECODE.F` (R84). -/
def decodeFilterbankProgram (samples : List Sample) : List Instr := decodeFrom .decf 0 samples

/-- Block `j` of a sample stream: samples `320j .. 320j+319` (R53). -/
def streamBlock (samples : List Sample) (j : Nat) : List Sample := (samples.drop (blockLength * j)).take blockLength

/-- A program as the host's actions: each command's word written to `CMD` in turn (00_scope R17). -/
def asInputs (program : List Instr) : List HostAction := program.map fun i => .write .word 0 (encode i)

end Sys2Proof.Machine
end

