-- ==== Sys2Proof/Safety.lean ====
section
/-! DEFINITION. What every step keeps, and when a run stops: the terms statements about the machine use. -/

namespace Sys2Proof.Safety

open Sys2Proof.Machine

/-- A letter or space (00_scope R11). -/
def isText (codes : CharCode) (c : Char8) : Bool := (symOfChar codes c).isSome

/-- What a decoder may push: a letter, a space or `*` (45_codec_driver R177). -/
def isOutput (codes : CharCode) (c : Char8) : Bool := isText codes c || c == codes.star

/-- RES after SIG: three ascending indices 2..10 in bits 11:0 (10_state R24, 40_symbol_table R95). -/
def isSigResult (r : Word) : Bool :=
  let i0 := (r.extractLsb' 0 4).toNat
  let i1 := (r.extractLsb' 4 4).toNat
  let i2 := (r.extractLsb' 8 4).toNat
  decide (r.toNat < 2 ^ 12) && decide (2 ≤ i0) && decide (i0 < i1) && decide (i1 < i2) && decide (i2 ≤ 10)

/-- RES after LET: a letter or a space with NF = 0, or `*` with NF = 1 (10_state R24). -/
def isLetResult (codes : CharCode) (r : Word) : Bool :=
  r == 0#23 ++ 1#1 ++ codes.star || (decide (r.toNat < 2 ^ 8) && isText codes (r.extractLsb' 0 8))

/-- RES after QNT: an index 0..10 (10_state R24); 0 after reset, too. -/
def isQntResult (r : Word) : Bool := decide (r.toNat ≤ 10)

/-- What every step keeps: legal parameters (00_scope R7); the canonical form of the block buffer; STATUS bits 31:7 hardwired to 0 (R25);
DEGEN never without UNREC (60_exceptions R201 (d)); RES in one of its formats (R24); only text and
placeholders in COUT (R177 (a)). -/
abbrev Inv (s : State) : Prop :=
  s.config.WellFormed ∧
  s.blk.wf = true ∧
  s.status &&& ~~~statusMask = 0 ∧
  (s.flag .degenerateBlock = true → s.flag .unrecognizedSymbol = true) ∧
  (isSigResult s.res || isLetResult s.config.charcode s.res || isQntResult s.res) = true ∧
  s.cout.all (isOutput s.config.charcode) = true

/-- A host access the spec gives a meaning (20_memory R52). -/
def supported : HostAction → Bool
  | .write width off _ => accessSupported width off
  | .read width off => accessSupported width off
  | .reset => true

/-- The host keeps to what 00_scope R18 assumes of it. -/
abbrev HostKeepsToMap (s : State) : Prop := s.inputs.all supported = true

/-- Which command can raise which condition (60_exceptions R199). -/
def canRaise : Condition → Instr → Bool
  | .unrecognizedSymbol, .decs => true
  | .unrecognizedSymbol, .decf => true
  | .degenerateBlock, .decs => true
  | .degenerateBlock, .decf => true
  | .encodingInputRejected, .enc _ => true
  | .pcmClip, .syn _ _ => true
  | .pcmClip, .enc _ => true
  | .blockUnderrun, .decs => true
  | .blockUnderrun, .decf => true
  | .blockOverrun, .lds _ => true
  | .illegalCommand, .sig _ => true
  | .illegalCommand, .let_ _ _ _ _ => true
  | .illegalCommand, .syn _ _ => true
  | _, _ => false

end Sys2Proof.Safety
end

