-- ==== Sys2Proof/Certificates/Slice0/Obligations.lean ====
section
/-! DEFINITION. The statements about the machine. Each docstring names the rules of spec/ it formalises. An
equation `exec i s = .next { s with … }` says that the command completes, what it writes and that it writes
nothing else: the whole frame. -/

open Sys2Proof Sys2Proof.Machine Sys2Proof.Safety

/-! ### Encoding -/

/-- Every command with legal operands is read back from its own word (R70 to R78). -/
def Obligations.DecodeEncodeRoundTrip : Prop :=
  ∀ i : Instr, i.WellFormed → decode (encode i) = .ok i

/-- A word has at most one meaning: what it decodes to is a legal command whose word it is (R80). -/
def Obligations.EncodeDecodeRoundTrip : Prop :=
  ∀ (w : Word) (i : Instr), decode w = .ok i → i.WellFormed ∧ encode i = w

/-- R82: which words are illegal, and all that an illegal word does. -/
def Obligations.IllegalWordsExactly : Prop :=
  ∀ (w : Word) (s : State),
    ((∃ e, decode w = .error e) ↔
      (0x0D ≤ (w >>> 24).toNat ∨
       ((w >>> 24).toNat ∈ [0x00, 0x07, 0x08, 0x0A, 0x0B, 0x0C] ∧ w &&& 0x00FFFFFF#32 ≠ 0) ∨
       ((w >>> 24).toNat ∈ [0x01, 0x05] ∧ w &&& 0x00FFFF00#32 ≠ 0) ∨
       ((w >>> 24).toNat ∈ [0x03, 0x06, 0x09] ∧ w &&& 0x00FF0000#32 ≠ 0) ∨
       ((w >>> 24).toNat = 0x04 ∧ w &&& 0x00FFFEE0#32 ≠ 0) ∨
       ((w >>> 24).toNat = 0x02 ∧ w &&& 0x00FFE000#32 ≠ 0) ∨
       ((w >>> 24).toNat = 0x01 ∧ 27 ≤ (w &&& 0xFF#32).toNat) ∨
       ((w >>> 24).toNat = 0x04 ∧ 27 ≤ (w &&& 0x1F#32).toNat) ∨
       ((w >>> 24).toNat = 0x02 ∧ (11 ≤ (w &&& 0xF#32).toNat ∨ 11 ≤ ((w >>> 4) &&& 0xF#32).toNat ∨
          11 ≤ ((w >>> 8) &&& 0xF#32).toNat)))) ∧
    ((∃ e, decode w = .error e) → command w s = .next { s with status := (s.status ||| 0x40#32) &&& 0x7F#32 })

/-- The worked encodings of R79. -/
def Obligations.WorkedEncodingsDecode : Prop :=
  decode 0x00000000 = .ok .nop ∧ decode 0x01000012 = .ok (.sig 18) ∧ decode 0x02001754 = .ok (.let_ true 7 5 4) ∧
  decode 0x03000100 = .ok (.seta 0x0100) ∧ decode 0x04000112 = .ok (.syn 18 true) ∧ decode 0x05000053 = .ok (.enc 0x53) ∧
  decode 0x060004B0 = .ok (.qnt 1200) ∧ decode 0x07000000 = .ok .decs ∧ decode 0x08000000 = .ok .decf ∧
  decode 0x0900FFA3 = .ok (.lds (BitVec.ofInt 16 (-93))) ∧ decode 0x0A000000 = .ok .ends ∧
  decode 0x0B000000 = .ok .clrf ∧ decode 0x0C000000 = .ok .rst

/-- The assembler syntax of R83 on the examples of R79 and R96, with the decided character codes. -/
def Obligations.AssemblerExamples : Prop :=
  assemble .ascii "NOP ; nothing".toList = some .nop ∧ assemble .ascii "SIG 18".toList = some (.sig 18) ∧
  assemble .ascii "LET 1, 7, 5, 4".toList = some (.let_ true 7 5 4) ∧ assemble .ascii "SETA 0x0100".toList = some (.seta 0x0100) ∧
  assemble .ascii "SYN 18, 1".toList = some (.syn 18 true) ∧ assemble .ascii "ENC 'S'".toList = some (.enc 0x53) ∧
  assemble .ascii "ENC ' '".toList = some (.enc 0x20) ∧ assemble .ascii "QNT 1200".toList = some (.qnt 1200) ∧
  assemble .ascii "LDS -93".toList = some (.lds 0xFFA3) ∧ assemble .ascii "DECS 1".toList = none

/-! ### Steps -/

/-- R15, R56: when the word the host writes next decodes, the step is that command, with the action taken. -/
def Obligations.StepRunsDecodedInstruction : Prop :=
  ∀ (s : State) (w : Word) (i : Instr) (rest : List HostAction),
    s.inputs = .write .word 0 w :: rest → decode w = .ok i → step s = exec i { s with inputs := rest }

/-- The very next step runs the word placed where the step fetches (log entry 1: a command the host writes). -/
def Obligations.FetchedWordRunsNext : Prop :=
  ∀ (s : State) (i : Instr), i.WellFormed → step (s.withFetchWord 32 (encode i).toNat) = exec i s

/-- R198: an illegal word written to CMD sets ILL; no register, buffer or queue changes. -/
def Obligations.IllegalWordStepOnlySetsFlag : Prop :=
  ∀ (s : State) (w : Word) (e : DecodeError) (rest : List HostAction),
    s.inputs = .write .word 0 w :: rest → decode w = .error e →
    step s = .next { s with inputs := rest, status := (s.status ||| 0x40#32) &&& 0x7F#32 }

/-- R56: the words of a program, written to CMD one after another, run as the program, in order. -/
def Obligations.ProgramRunsInOrder : Prop :=
  ∀ (program : List Instr) (s : State), (∀ i ∈ program, i.WellFormed) → s.inputs = [] →
    ∃ t, execAll program s = .next t ∧
      Sys2Proof.core.run program.length { s with inputs := asInputs program } = .next t

/-- R17: every command has a defined effect; none stops the machine, none ends in a fault or a refusal. -/
def Obligations.CommandsAlwaysComplete : Prop :=
  ∀ (s : State), (∀ i : Instr, ∃ t, exec i s = .next t) ∧ (∀ w : Word, ∃ t, command w s = .next t)

/-- R18, R52: with a host action waiting, a step answers a next state unless the action is an access that is
not an aligned 32-bit one. That a step with no action waiting answers a next state too is the model's choice
(log entry 3, after R17 and R210). -/
def Obligations.StepStopsOnlyOnUnsupportedAccess : Prop :=
  ∀ (s : State),
    ((s.inputs.head?.map supported).getD true = true → ∃ t, step s = .next t) ∧
    ((s.inputs.head?.map supported).getD true = false → step s = .refused .unsupportedHostAccess)

/-! ### NOP, SIG, LET, SETA -/

/-- R171: NOP does nothing, and a word with opcode 0 and any other bit set is not a NOP. -/
def Obligations.NopChangesNothing : Prop :=
  (∀ s : State, exec .nop s = .next s) ∧ decode 0x00000000 = .ok .nop ∧ encode .nop = 0x00000000 ∧
  (∀ w : Word, (w >>> 24).toNat = 0 → w ≠ 0 → decode w = .error .mustBeZero)

/-- R95: SIG writes the three indices of the symbol's Signature, ascending, to RES, whatever legal parameters
the block has (R7); a reserved operand only sets ILL. -/
def Obligations.SigReturnsSignature : Prop :=
  ∀ (s : State) (sym : BitVec 8),
    (s.config.WellFormed → sym.toNat < 27 → ∃ f0 f1 f2, sigSorted s.config sym.toNat = [f0, f1, f2] ∧
      2 ≤ canon.idxOf f0 ∧ canon.idxOf f0 < canon.idxOf f1 ∧ canon.idxOf f1 < canon.idxOf f2 ∧ canon.idxOf f2 ≤ 10 ∧
      exec (.sig sym) s = .next { s with
        res := 0#20 ++ BitVec.ofNat 4 (canon.idxOf f2) ++ BitVec.ofNat 4 (canon.idxOf f1) ++ BitVec.ofNat 4 (canon.idxOf f0) }) ∧
    (27 ≤ sym.toNat → exec (.sig sym) s = .next { s with status := (s.status ||| 0x40#32) &&& 0x7F#32 }) ∧
    (s.config = .decided → exec (.sig 26) s = .next { s with res := 0xA85#32 } ∧
      exec (.sig 18) s = .next { s with res := 0x754#32 }) ∧
    encode (.sig sym) = 0x01#8 ++ 0#16 ++ sym ∧ decode 0x01000012 = .ok (.sig 18)

/-- R96: LET looks the triple up and writes the character or NotFound to RES, the indices in any order; equal
indices and the indices 0 and 1 are never found, whatever legal parameters the block has (R7); a reserved
index only sets ILL. -/
def Obligations.LetReturnsLetter : Prop :=
  ∀ (s : State) (upper : Bool) (j2 j1 j0 : BitVec 4),
    (j0.toNat < 11 ∧ j1.toNat < 11 ∧ j2.toNat < 11 →
      exec (.let_ upper j2 j1 j0) s = .next { s with
        res := match letterOf s.config (sortAsc [canonAt j0.toNat, canonAt j1.toNat, canonAt j2.toNat]) upper with
          | some c => 0#23 ++ 0#1 ++ c
          | none => 0#23 ++ 1#1 ++ s.config.charcode.star }) ∧
    (11 ≤ j0.toNat ∨ 11 ≤ j1.toNat ∨ 11 ≤ j2.toNat →
      exec (.let_ upper j2 j1 j0) s = .next { s with status := (s.status ||| 0x40#32) &&& 0x7F#32 }) ∧
    exec (.let_ upper j2 j1 j0) s = exec (.let_ upper j1 j2 j0) s ∧
    exec (.let_ upper j2 j1 j0) s = exec (.let_ upper j2 j0 j1) s ∧
    (s.config.WellFormed → j0.toNat < 11 → j1.toNat < 11 →
      exec (.let_ upper j1 j1 j0) s = .next { s with res := 0#23 ++ 1#1 ++ s.config.charcode.star }) ∧
    (s.config.WellFormed → j0.toNat < 2 → j1.toNat < 11 → j2.toNat < 11 →
      exec (.let_ upper j2 j1 j0) s = .next { s with res := 0#23 ++ 1#1 ++ s.config.charcode.star }) ∧
    (s.config = .decided →
      exec (.let_ upper 10 8 5) s = .next { s with res := 0x20#32 } ∧
      exec (.let_ true 7 5 4) s = .next { s with res := 0x53#32 } ∧
      exec (.let_ false 4 7 5) s = .next { s with res := 0x73#32 } ∧
      exec (.let_ true 4 3 2) s = .next { s with res := 0x12A#32 }) ∧
    encode (.let_ upper j2 j1 j0) = 0x02#8 ++ 0#11 ++ BitVec.ofBool upper ++ j2 ++ j1 ++ j0 ∧
    decode 0x02001754 = .ok (.let_ true 7 5 4) ∧ decode 0x02000475 = .ok (.let_ false 4 7 5)

/-- R94: for every symbol table the parameters allow, `letter_of` finds exactly the symbol whose sorted triple
it is given, space whatever the case. -/
def Obligations.LetterOfFindsTheRow : Prop :=
  ∀ (cfg : Config) (t : List Nat) (upper : Bool), cfg.WellFormed →
    (∀ s < 27, sigSorted cfg s = t → letterOf cfg t upper =
      some (if s = 26 then cfg.charcode.space else if upper then cfg.charcode.upper.getD s 0
        else cfg.charcode.lower.getD s 0)) ∧
    ((∀ s < 27, sigSorted cfg s ≠ t) → letterOf cfg t upper = none)

/-- R93, and how R91 says its rows are built: the decided table. (`Config.WellFormed` asks more than R93: the
conditions of R7.) -/
def Obligations.TableInvariantsHold : Prop :=
  Config.decided.WellFormed ∧
  ∀ s < 27, Config.decided.sigtab[s]? = some ⟨[400, 600, 1000].getD (s / 9) 0, [800, 1200, 2000].getD (s / 3 % 3) 0,
    [1600, 2400, 4000].getD (s % 3) 0⟩

/-- R101: SETA writes AMP; every 16-bit value is legal. -/
def Obligations.SetaSetsAmplitude : Prop :=
  ∀ (s : State) (v : BitVec 16), exec (.seta v) s = .next { s with amp := v } ∧
    encode (.seta v) = 0x03#8 ++ 0#8 ++ v ∧ decode 0x03000080 = .ok (.seta 0x0080)

/-! ### SYN and ENC -/

/-- R105 with R102 and R104: SYN appends the exact rendering of the symbol at amplitude AMP/256, all 320
samples in order, and sets CLIP if one saturated, whatever legal parameters the block has (R7); a reserved
symbol only sets ILL. -/
def Obligations.SynAppendsExactBlock : Prop :=
  ∀ (s : State) (sym : BitVec 5) (upper : Bool),
    (s.config.WellFormed → sym.toNat < 27 → exec (.syn sym upper) s = .next { s with
      sout := s.sout ++
        (Reference.pcm (Reference.synth s.config sym.toNat upper ((s.amp.toNat : ℝ) / 256))).1.map (BitVec.ofInt 16)
      status := if (Reference.pcm (Reference.synth s.config sym.toNat upper ((s.amp.toNat : ℝ) / 256))).2 = true
        then (s.status ||| 0x08#32) &&& 0x7F#32 else s.status }) ∧
    (27 ≤ sym.toNat → exec (.syn sym upper) s = .next { s with status := (s.status ||| 0x40#32) &&& 0x7F#32 })

/-- R105, R103 (f): space ignores the case flag; amplitude 0 appends 320 zeros. -/
def Obligations.SynSpecialCases : Prop :=
  ∀ (s : State) (sym : BitVec 5) (upper : Bool),
    exec (.syn 26 true) s = exec (.syn 26 false) s ∧
    (sym.toNat < 27 → s.amp = 0 → exec (.syn sym upper) s = .next { s with sout := s.sout ++ List.replicate 320 0 })

/-- R103 (a), (c), (d) after the conversion of R104, for all legal parameters: every block has 320 samples; its
first is 25*AMP/16 rounded half to even and saturated; it repeats every FS/100 samples where that is an integer
(every 80 at FS = 8000), and reads the same from its end where 320 samples are whole periods of every tone. -/
def Obligations.BlockShape : Prop :=
  ∀ (cfg : Config) (sym amp : Nat) (upper : Bool), cfg.WellFormed → sym < 27 → amp < 2 ^ 16 →
    (pcmBlock cfg sym upper amp).1.length = 320 ∧
    (pcmBlock cfg sym upper amp).1.getD 0 0
      = BitVec.ofInt 16 (Reference.saturated (Reference.roundHalfEven ((25 : ℝ) * (amp : ℝ) / 16))) ∧
    (100 ∣ cfg.fs → ∀ n, n + cfg.fs / 100 < 320 →
      (pcmBlock cfg sym upper amp).1.getD (n + cfg.fs / 100) 0 = (pcmBlock cfg sym upper amp).1.getD n 0) ∧
    ((∀ f ∈ canon, cfg.fs ∣ f * 320) → ∀ n, 1 ≤ n → n < 320 →
      (pcmBlock cfg sym upper amp).1.getD (320 - n) 0 = (pcmBlock cfg sym upper amp).1.getD n 0)

/-- R108: a rendered block is clipped exactly from amplitude 0x51EC on, for every symbol, every case and every
sampling rate and table the parameters allow. -/
def Obligations.ClipExactlyFromThreshold : Prop :=
  ∀ (cfg : Config) (sym amp : Nat) (upper : Bool), cfg.WellFormed → sym < 27 → amp < 2 ^ 16 →
    ((pcmBlock cfg sym upper amp).2 = true ↔ 20972 ≤ amp) ∧ ((pcmBlock cfg sym upper 0x0100).1.getD 0 0).toInt = 400

/-- R106: ENC renders the symbol of its character in the character's case, whatever legal parameters the block
has (R7), and drops any other character, setting DROP. -/
def Obligations.EncAppendsExactBlock : Prop :=
  ∀ (s : State) (c : BitVec 8),
    (s.config.WellFormed → ∀ k up, symOfChar s.config.charcode c = some k → isUpper s.config.charcode c = up →
      exec (.enc c) s = .next { s with
        sout := s.sout ++
          (Reference.pcm (Reference.synth s.config k up ((s.amp.toNat : ℝ) / 256))).1.map (BitVec.ofInt 16)
        status := if (Reference.pcm (Reference.synth s.config k up ((s.amp.toNat : ℝ) / 256))).2 = true
          then (s.status ||| 0x08#32) &&& 0x7F#32 else s.status } ∧
      exec (.enc c) s = exec (.syn (BitVec.ofNat 5 k) up) s) ∧
    (symOfChar s.config.charcode c = none → exec (.enc c) s = .next { s with status := (s.status ||| 0x04#32) &&& 0x7F#32 })

/-- R11: the symbol of each of the 256 character codes, at the decided character codes. -/
def Obligations.CharacterCodes : Prop :=
  ∀ c : BitVec 8,
    (0x41 ≤ c.toNat ∧ c.toNat ≤ 0x5A → symOfChar .ascii c = some (c.toNat - 0x41) ∧ isUpper .ascii c = true) ∧
    (0x61 ≤ c.toNat ∧ c.toNat ≤ 0x7A → symOfChar .ascii c = some (c.toNat - 0x61) ∧ isUpper .ascii c = false) ∧
    (c.toNat = 0x20 → symOfChar .ascii c = some 26 ∧ isUpper .ascii c = false) ∧
    (c.toNat < 0x20 ∨ (0x20 < c.toNat ∧ c.toNat < 0x41) ∨ (0x5A < c.toNat ∧ c.toNat < 0x61) ∨ 0x7A < c.toNat →
      symOfChar .ascii c = none ∧ isUpper .ascii c = false)

/-- R107 (a) to (c): ENCODE appends the blocks of the accepted characters in text order, 320 samples each, and
nothing for the others. -/
def Obligations.EncodeProgramConcatenates : Prop :=
  ∀ (text : List Char8) (s : State), ∃ t, execAll (encodeProgram text) s = .next t ∧
    t.sout = s.sout ++
      (text.filterMap fun c => (symOfChar s.config.charcode c).map fun k =>
        (pcmBlock s.config k (isUpper s.config.charcode c) s.amp.toNat).1).flatten ∧
    t.sout.length = s.sout.length + 320 * (text.filter (isText s.config.charcode)).length ∧
    t = { s with sout := t.sout, status := t.status } ∧
    (∃ u, execAll (encodeProgram (text.filter (isText s.config.charcode))) s = .next u ∧ u.sout = t.sout)

/-! ### QNT -/

/-- R122: QNT writes the index of the nearest canonical frequency to RES, the first one on a tie. -/
def Obligations.QntReturnsNearest : Prop :=
  ∀ (s : State) (v : BitVec 16),
    (∃ i ≤ 10, exec (.qnt v) s = .next { s with res := BitVec.ofNat 32 i } ∧
      (∀ j ≤ 10, |(v.toNat : Int) - 8 * (canonAt i : Int)| ≤ |(v.toNat : Int) - 8 * (canonAt j : Int)|) ∧
      (∀ j < i, |(v.toNat : Int) - 8 * (canonAt i : Int)| < |(v.toNat : Int) - 8 * (canonAt j : Int)|)) ∧
    exec (.qnt 0) s = .next { s with res := 0 } ∧ exec (.qnt 0xFFFF) s = .next { s with res := 10 } ∧
    (∀ k < 10, exec (.qnt (BitVec.ofNat 16 ([1200, 2400, 4000, 5600, 7200, 8800, 11200, 14400, 17600, 25600].getD k 0))) s
        = .next { s with res := BitVec.ofNat 32 k } ∧
      exec (.qnt (BitVec.ofNat 16 ([1200, 2400, 4000, 5600, 7200, 8800, 11200, 14400, 17600, 25600].getD k 0 + 1))) s
        = .next { s with res := BitVec.ofNat 32 (k + 1) }) ∧
    encode (.qnt v) = 0x06#8 ++ 0#8 ++ v ∧ decode 0x060004B0 = .ok (.qnt 1200) ∧ decode 0x060004B1 = .ok (.qnt 1201)

/-- R121: the quantizer is a staircase with the midpoints as thresholds, each midpoint belonging to the lower
step, and every canonical frequency is a fixed point; the frequency is the quotient `num / den`. -/
def Obligations.QuantizerStaircase : Prop :=
  (∀ num den : Nat, 0 < den →
    (num ≤ 150 * den → quantizeHz num den = 100) ∧
    (150 * den < num → num ≤ 300 * den → quantizeHz num den = 200) ∧
    (300 * den < num → num ≤ 500 * den → quantizeHz num den = 400) ∧
    (500 * den < num → num ≤ 700 * den → quantizeHz num den = 600) ∧
    (700 * den < num → num ≤ 900 * den → quantizeHz num den = 800) ∧
    (900 * den < num → num ≤ 1100 * den → quantizeHz num den = 1000) ∧
    (1100 * den < num → num ≤ 1400 * den → quantizeHz num den = 1200) ∧
    (1400 * den < num → num ≤ 1800 * den → quantizeHz num den = 1600) ∧
    (1800 * den < num → num ≤ 2200 * den → quantizeHz num den = 2000) ∧
    (2200 * den < num → num ≤ 3200 * den → quantizeHz num den = 2400) ∧
    (3200 * den < num → quantizeHz num den = 4000)) ∧
  (∀ f ∈ canon, quantizeHz f 1 = f) ∧ (∀ f : ℝ, f < 0 → Reference.quantizeHz f = 100)

/-! ### LDS, ENDS -/

/-- R172: LDS stores its sample at BLK[SCNT] and counts it, every other entry staying; in a full block it
stores nothing and sets OVER. -/
def Obligations.LdsStoresOrOverruns : Prop :=
  ∀ (s : State) (v : BitVec 16),
    (s.blk.wf = true → s.scnt.val < 320 → ∃ t, exec (.lds v) s = .next t ∧
      t = { s with blk := t.blk, scnt := t.scnt } ∧ t.scnt.val = s.scnt.val + 1 ∧ t.blk.read s.scnt.val = v ∧
      (∀ a, a ≠ s.scnt.val → t.blk.read a = s.blk.read a)) ∧
    (s.scnt.val = 320 → exec (.lds v) s = .next { s with status := (s.status ||| 0x20#32) &&& 0x7F#32 }) ∧
    (v.toNat < 2 ^ 15 → v.toInt = v.toNat) ∧ (2 ^ 15 ≤ v.toNat → v.toInt = (v.toNat : Int) - 2 ^ 16) ∧
    encode (.lds v) = 0x09#8 ++ 0#8 ++ v ∧ decode 0x0900FFA3 = .ok (.lds (BitVec.ofInt 16 (-93)))

/-- R84, R26: with SCNT = 0 before, 320 LDS commands fill the block in order. -/
def Obligations.LoadProgramFillsBlock : Prop :=
  ∀ (s : State) (block : List Sample), s.blk.wf = true → s.scnt = 0 → block.length = 320 →
    ∃ t, execAll (loadProgram block) s = .next t ∧ t = { s with blk := t.blk, scnt := t.scnt } ∧ t.scnt.val = 320 ∧
      t.block = block.map BitVec.toInt

/-- R173: ENDS drops what is loaded; the next LDS writes BLK[0]. -/
def Obligations.EndsDropsBlock : Prop :=
  ∀ (s : State) (v : BitVec 16),
    exec .ends s = .next { s with scnt := 0 } ∧ encode .ends = 0x0A000000 ∧ decode 0x0A000000 = .ok .ends ∧
    (s.blk.wf = true → ∃ t, execAll [.ends, .lds v] s = .next t ∧ t.scnt.val = 1 ∧ t.blk.read 0 = v)

/-! ### DECS and DECF -/

/-- R138 with R131 to R137: with a full block DECS pushes the character exact arithmetic gives, sets the flags
it reports and empties the block, whatever legal parameters it has (R7); with fewer than 320 samples it only
sets UNDER. -/
def Obligations.DecsDecodesExactly : Prop :=
  ∀ (s : State),
    (s.config.WellFormed → s.scnt.val = 320 → ∃ r, r = Reference.specDecode s.config ((List.range 320).map fun n => (s.blk.read n).toInt) ∧
      exec .decs s = .next { s with
        cout := s.cout ++ [r.char]
        scnt := 0
        status := if r.degen then (s.status ||| 0x03#32) &&& 0x7F#32
          else if r.unrec then (s.status ||| 0x01#32) &&& 0x7F#32 else s.status }) ∧
    (s.scnt.val < 320 → exec .decs s = .next { s with status := (s.status ||| 0x10#32) &&& 0x7F#32 })

/-- R160 with R151 to R161: the same of DECF and the filter-bank decoder. -/
def Obligations.DecfDecodesExactly : Prop :=
  ∀ (s : State),
    (s.config.WellFormed → s.scnt.val = 320 → ∃ r, r = Reference.fbDecode s.config ((List.range 320).map fun n => (s.blk.read n).toInt) ∧
      exec .decf s = .next { s with
        cout := s.cout ++ [r.char]
        scnt := 0
        status := if r.degen then (s.status ||| 0x03#32) &&& 0x7F#32
          else if r.unrec then (s.status ||| 0x01#32) &&& 0x7F#32 else s.status }) ∧
    (s.scnt.val < 320 → exec .decf s = .next { s with status := (s.status ||| 0x10#32) &&& 0x7F#32 })

/-- R136: a block with at most one sample that is not zero has a flat spectrum: DECS gives `*`, DEGEN, UNREC. -/
def Obligations.DecsDegenerateBlocks : Prop :=
  ∀ (s : State) (p : Nat), s.scnt.val = 320 → (∀ n < 320, n ≠ p → s.blk.read n = 0) →
    exec .decs s = .next { s with
      cout := s.cout ++ [s.config.charcode.star], scnt := 0, status := (s.status ||| 0x03#32) &&& 0x7F#32 }

/-- R161: a block whose maximum is 0 is degenerate for DECF: `*`, DEGEN, UNREC. -/
def Obligations.DecfDegenerateBlocks : Prop :=
  ∀ (s : State), s.scnt.val = 320 → (∀ n < 320, (s.blk.read n).toInt ≤ 0) → (∃ n < 320, s.blk.read n = 0) →
    exec .decf s = .next { s with
      cout := s.cout ++ [s.config.charcode.star], scnt := 0, status := (s.status ||| 0x03#32) &&& 0x7F#32 }

/-- R62: neither decoder's answer depends on a common positive factor of the block that keeps every sample in
-32768..32767. -/
def Obligations.DecodersIgnoreScale : Prop :=
  ∀ (cfg : Config) (b : List Int) (k : Nat), cfg.WellFormed → 0 < k → b.length = 320 → (∀ x ∈ b, -32768 ≤ k * x ∧ k * x ≤ 32767) →
    specDecode cfg (b.map fun x => (k : Int) * x) = specDecode cfg b ∧
    fbDecode cfg (b.map fun x => (k : Int) * x) = fbDecode cfg b

/-- R84, R170, R177: DECODE.S and DECODE.F of a stream push one character per whole block, that of the block
alone, in block order, and drop the rest, whatever legal parameters the block has (R7). -/
def Obligations.DecodeStreamCharacters : Prop :=
  ∀ (samples : List Sample) (s : State), s.config.WellFormed → s.blk.wf = true → s.scnt = 0 →
    (∃ t, execAll (decodeSpectralProgram samples) s = .next t ∧
      t = { s with blk := t.blk, cout := t.cout, status := t.status } ∧
      t.cout = s.cout ++ (List.range (samples.length / 320)).map fun j =>
        (Reference.specDecode s.config (((samples.drop (320 * j)).take 320).map BitVec.toInt)).char) ∧
    (∃ t, execAll (decodeFilterbankProgram samples) s = .next t ∧
      t = { s with blk := t.blk, cout := t.cout, status := t.status } ∧
      t.cout = s.cout ++ (List.range (samples.length / 320)).map fun j =>
        (Reference.fbDecode s.config (((samples.drop (320 * j)).take 320).map BitVec.toInt)).char)

/-- R162 (a): for every centre frequency below half the sampling rate the filter's poles lie inside the unit
circle. -/
def Obligations.FilterStability : Prop :=
  ∀ (cfg : Config) (f : Nat), cfg.WellFormed → f ∈ canon → 2 * f < cfg.fs →
    0 < Reference.a2 cfg f ∧ Reference.a2 cfg f < 1 ∧ |Reference.a1 cfg f| < 1 + Reference.a2 cfg f

/-! ### CLRF, RST, reset -/

/-- R174: CLRF makes STATUS 0 and changes nothing else. -/
def Obligations.ClrfClearsFlags : Prop :=
  ∀ (s : State), exec .clrf s = .next { s with status := 0 } ∧ encode .clrf = 0x0B000000 ∧ decode 0x0B000000 = .ok .clrf

/-- R175: RST gives every register and queue its reset value (of BLK the rule says nothing). -/
def Obligations.RstRestoresResetValues : Prop :=
  ∀ (s : State), ∃ t, exec .rst s = .next t ∧ t.amp = 0x0100 ∧ t.scnt = 0 ∧ t.res = 0 ∧ t.status = 0 ∧ t.sout = [] ∧
    t.cout = [] ∧ encode .rst = 0x0C000000 ∧ decode 0x0C000000 = .ok .rst

/-- R220: hardware reset, a host action, leaves what RST leaves. That both keep BLK is the model's choice
(log entry 6). -/
def Obligations.HardwareResetEqualsRst : Prop :=
  ∀ (s : State) (rest : List HostAction), s.inputs = .reset :: rest → step s = exec .rst { s with inputs := rest }

/-- R221: the reset values. -/
def Obligations.ResetValues : Prop :=
  State.reset.amp = 0x0100 ∧ State.reset.scnt = 0 ∧ State.reset.res = 0 ∧ State.reset.status = 0 ∧
  State.reset.sout = [] ∧ State.reset.cout = []

/-! ### Invariants and whole-machine rules -/

/-- The invariant of Safety.lean holds after reset of a block with any legal parameters (R7), the decided ones
among them. -/
def Obligations.InvariantAtReset : Prop :=
  (∀ cfg : Config, cfg.WellFormed → Inv (State.resetWith cfg)) ∧ Inv State.reset

/-- Every step keeps the invariant: legal parameters (R7), canonical block buffer (the model's form, log entry 7), hardwired STATUS bits (R25), DEGEN never without
UNREC (R201 (d)), RES in one of its formats (R24), only text and `*` in COUT (R177 (a)). -/
def Obligations.InvariantKeptByEveryStep : Prop :=
  ∀ s t : State, Inv s → step s = .next t → Inv t

/-- R191, R203: raising a condition sets its flag, keeps the six others, and does nothing more. -/
def Obligations.RaiseSetsOneFlag : Prop :=
  ∀ (c : Condition) (s : State), raise c s = { s with status := (raise c s).status } ∧
    ∀ d : Condition, (raise c s).flag d = (decide (d = c) || s.flag d)

/-- R25: no command but CLRF and RST makes a flag 0 again. -/
def Obligations.FlagsAreSticky : Prop :=
  ∀ (i : Instr) (s t : State) (c : Condition), i ≠ .clrf → i ≠ .rst → exec i s = .next t → s.flag c = true → t.flag c = true

/-- R199: which command can raise which condition, and for ILL with which operands. -/
def Obligations.ConditionsByCommand : Prop :=
  ∀ (i : Instr) (s t : State) (c : Condition), exec i s = .next t → s.flag c = false → t.flag c = true →
    canRaise c i = true ∧ (c = .illegalCommand ↔ ¬ i.WellFormed)

/-- R20: the commands each piece of state is written by, all seven; no command touches the configuration (R16),
what the host has waiting or what it has read. That RST keeps BLK is the model's choice (log entry 6). -/
def Obligations.StateWrittenOnlyBy : Prop :=
  ∀ (i : Instr) (s t : State), exec i s = .next t →
    (t.amp ≠ s.amp → (∃ v, i = .seta v) ∨ i = .rst) ∧
    (t.res ≠ s.res → (∃ v, i = .sig v) ∨ (∃ u a b c, i = .let_ u a b c) ∨ (∃ v, i = .qnt v) ∨ i = .rst) ∧
    (t.scnt ≠ s.scnt → (∃ v, i = .lds v) ∨ i = .decs ∨ i = .decf ∨ i = .ends ∨ i = .rst) ∧
    (t.status ≠ s.status → (∃ c, canRaise c i = true) ∨ i = .clrf ∨ i = .rst) ∧
    (t.blk ≠ s.blk → ∃ v, i = .lds v) ∧
    (t.sout ≠ s.sout → (∃ a u, i = .syn a u) ∨ (∃ v, i = .enc v) ∨ i = .rst) ∧
    (t.cout ≠ s.cout → i = .decs ∨ i = .decf ∨ i = .rst) ∧
    t.config = s.config ∧ t.inputs = s.inputs ∧ t.observed = s.observed

/-- R22: SCNT is counted up by one by an LDS with room, set to 0 by a decode of a full block, by ENDS and by
RST, and stays otherwise. -/
def Obligations.SampleCountMoves : Prop :=
  ∀ (i : Instr) (s t : State), exec i s = .next t →
    ((∃ v, i = .lds v) → s.scnt.val < 320 → t.scnt.val = s.scnt.val + 1) ∧
    ((∃ v, i = .lds v) → s.scnt.val = 320 → t.scnt.val = 320) ∧
    (i = .decs ∨ i = .decf → t.scnt.val = if s.scnt.val = 320 then 0 else s.scnt.val) ∧
    (i = .ends ∨ i = .rst → t.scnt.val = 0) ∧
    ((∀ v, i ≠ .lds v) → i ≠ .decs → i ≠ .decf → i ≠ .ends → i ≠ .rst → t.scnt = s.scnt)

/-- R57: what a command pushes, and what it writes to RES, depends on its operand, AMP, SCNT and BLK[0..319] (and
the configuration) alone: not on STATUS, on RES, on the queues or on earlier blocks. -/
def Obligations.ResultsIgnoreOtherState : Prop :=
  ∀ (i : Instr) (s s' : State), i ≠ .rst → s.config = s'.config → s.amp = s'.amp → s.scnt = s'.scnt →
    (∀ n < 320, s.blk.read n = s'.blk.read n) →
    ∃ t t' samples chars, exec i s = .next t ∧ exec i s' = .next t' ∧
      t.sout = s.sout ++ samples ∧ t'.sout = s'.sout ++ samples ∧ t.cout = s.cout ++ chars ∧ t'.cout = s'.cout ++ chars ∧
      ((t.res = s.res ∧ t'.res = s'.res) ∨ t.res = t'.res)

/-! ### The host -/

/-- R28: what each host read returns and does, and each host write. -/
def Obligations.HostRegisterMap : Prop :=
  ∀ (s : State),
    hostAction (.read .word 0x00) s = .next { s with observed := s.observed ++ [0] } ∧
    hostAction (.read .word 0x04) s = .next { s with observed := s.observed ++ [s.status &&& 0x7F#32] } ∧
    hostAction (.read .word 0x08) s = .next { s with observed := s.observed ++ [s.amp.setWidth 32] } ∧
    hostAction (.read .word 0x0C) s = .next { s with observed := s.observed ++ [BitVec.ofNat 32 s.scnt.val] } ∧
    hostAction (.read .word 0x10) s = .next { s with observed := s.observed ++ [s.res] } ∧
    (s.sout = [] → hostAction (.read .word 0x14) s = .next { s with observed := s.observed ++ [0] }) ∧
    (∀ v rest, s.sout = v :: rest → hostAction (.read .word 0x14) s
      = .next { s with sout := rest, observed := s.observed ++ [1#1 ++ 0#15 ++ v] }) ∧
    hostAction (.read .word 0x18) s
      = .next { s with observed := s.observed ++ [BitVec.ofNat 32 (min s.sout.length (2 ^ 32 - 1))] } ∧
    (s.cout = [] → hostAction (.read .word 0x1C) s = .next { s with observed := s.observed ++ [0] }) ∧
    (∀ c rest, s.cout = c :: rest → hostAction (.read .word 0x1C) s
      = .next { s with cout := rest, observed := s.observed ++ [1#1 ++ 0#23 ++ c] }) ∧
    hostAction (.read .word 0x20) s
      = .next { s with observed := s.observed ++ [BitVec.ofNat 32 (min s.cout.length (2 ^ 32 - 1))] } ∧
    (∀ off, off % 4 = 0 → 0x20 < off → hostAction (.read .word off) s = .next { s with observed := s.observed ++ [0] }) ∧
    (∀ v, hostAction (.write .word 0x00 v) s = command v s) ∧
    (∀ off v, off % 4 = 0 → off ≠ 0 → hostAction (.write .word off v) s = .next s)

/-- R27, R28: popping SDATA until SOUT is empty returns its samples in order, each with the valid bit. -/
def Obligations.PopsReturnQueueInOrder : Prop :=
  ∀ (s : State), s.inputs = List.replicate s.sout.length (.read .word 0x14) →
    Sys2Proof.core.run s.sout.length s = .next { s with
      inputs := [], sout := [], observed := s.observed ++ s.sout.map fun v => (1#1 ++ 0#15 ++ v : Word) }

/-- R51: a sample in a PCM byte stream is two bytes, the low one first. -/
def Obligations.PcmBytesLowFirst : Prop :=
  ∀ (v : Sample) (lo hi : BitVec 8), bytesOfSample (sampleOfBytes lo hi) = [lo, hi] ∧
    (sampleOfBytes lo hi).toNat = lo.toNat + 256 * hi.toNat ∧
    (bytesOfSample v).map BitVec.toNat = [v.toNat % 256, v.toNat / 256]

/-! ### The parameters -/

/-- R7: the block after `State.reset` has the decided parameters, and they are legal. `core` is the machine at
them; the machine at others has the same step, and a reset state that differs in the configuration alone. That
the parameters stand in the state, and so reach the step with it, is the model's choice (log entry 4). -/
def Obligations.DefaultParameters : Prop :=
  State.reset.config.fs = 8000 ∧ State.reset.config.sigtab = decidedTable ∧
  State.reset.config.charcode = ⟨(List.range 26).map fun k => BitVec.ofNat 8 (0x41 + k),
    (List.range 26).map fun k => BitVec.ofNat 8 (0x61 + k), 0x20, 0x2A⟩ ∧
  State.reset.config.WellFormed ∧ Sys2Proof.core = machineAt .decided ∧
  ∀ cfg : Config, (machineAt cfg).step = Sys2Proof.core.step ∧ (machineAt cfg).reset = State.resetWith cfg ∧
    (State.resetWith cfg).config = cfg ∧ { State.resetWith cfg with config := .decided } = State.reset

/-- For all character codes R7 allows, each of the 53 characters has its own symbol and case, and neither `*` nor
any code outside them has one. That at codes other than ASCII the symbol and the case of a code are decided by its
place in CHARCODE, where R11 gives ranges of ASCII codes, is the model's choice (DESIGN CHOICE, log entry 4). -/
def Obligations.LegalCharacterCodes : Prop :=
  ∀ codes : CharCode, codes.WellFormed →
    (∀ k < 26, symOfChar codes (upperChar codes k) = some k ∧ isUpper codes (upperChar codes k) = true) ∧
    (∀ k < 26, symOfChar codes (lowerChar codes k) = some k ∧ isUpper codes (lowerChar codes k) = false) ∧
    symOfChar codes codes.space = some 26 ∧ isUpper codes codes.space = false ∧ symOfChar codes codes.star = none ∧
    (∀ c, (∀ k < 26, c ≠ upperChar codes k ∧ c ≠ lowerChar codes k) → c ≠ codes.space → symOfChar codes c = none)

/-- R16: no step writes the configuration, whatever the host's action. -/
def Obligations.ConfigurationNeverWritten : Prop :=
  ∀ s t : State, step s = .next t → t.config = s.config

/-- R7 with R17: every state a run of a block with the given parameters reaches, whatever the host does, has these
parameters, and meets the invariant if they are legal. -/
def Obligations.RunsKeepParameters : Prop :=
  ∀ (cfg : Config) (actions : List HostAction) (n : Nat) (t : State),
    (machineAt cfg).run n { State.resetWith cfg with inputs := actions } = .next t →
      t.config = cfg ∧ (cfg.WellFormed → Inv t)
end

