-- ==== Sys2Proof/Laws/Characters.lean ====
section
/-! SUPPORT. What legal character codes give (00_scope R7, R11): which codes have a symbol, and that every
character `letter_of` answers has one. -/

namespace Sys2Proof.Laws

open Sys2Proof.Machine

theorem upperChar_mem {codes : CharCode} (h : codes.WellFormed) {k : Nat} (hk : k < 26) :
    upperChar codes k ∈ codes.upper := by
  have : k < codes.upper.length := by rw [h.1]; exact hk
  rw [upperChar, List.getD_eq_getElem _ _ this]
  exact List.getElem_mem this

theorem lowerChar_mem {codes : CharCode} (h : codes.WellFormed) {k : Nat} (hk : k < 26) :
    lowerChar codes k ∈ codes.lower := by
  have : k < codes.lower.length := by rw [h.2.1]; exact hk
  rw [lowerChar, List.getD_eq_getElem _ _ this]
  exact List.getElem_mem this

/-- A code has a symbol exactly if it stands for a letter or for space. -/
theorem symOfChar_isSome (codes : CharCode) (c : Char8) :
    (symOfChar codes c).isSome = true ↔ c ∈ codes.upper ∨ c ∈ codes.lower ∨ c = codes.space := by
  unfold symOfChar
  by_cases u : c ∈ codes.upper
  · simp [u]
  by_cases l : c ∈ codes.lower
  · simp [u, l]
  by_cases s : c = codes.space
  · rw [if_neg u, if_neg l, if_pos s]; simp [s]
  · simp [u, l, s]

/-- The symbol of a character is one of the 27 (R10). -/
theorem symOfChar_lt {codes : CharCode} (h : codes.WellFormed) {c : Char8} {k : Nat}
    (e : symOfChar codes c = some k) : k < 27 := by
  unfold symOfChar at e
  split at e
  · next m => have := List.idxOf_lt_length_of_mem m; rw [h.1] at this; cases e; omega
  · split at e
    · next m => have := List.idxOf_lt_length_of_mem m; rw [h.2.1] at this; cases e; omega
    · split at e
      · cases e; decide
      · cases e

theorem charOfSym_isSome {codes : CharCode} (h : codes.WellFormed) {k : Nat} (hk : k < 27) (upper : Bool) :
    (symOfChar codes (charOfSym codes k upper)).isSome = true := by
  rw [symOfChar_isSome, charOfSym]
  by_cases e : k = spaceSym
  · rw [if_pos e]; exact .inr (.inr rfl)
  have l : k < 26 := by unfold spaceSym at e; omega
  rw [if_neg e]
  cases upper
  · exact .inr (.inl (lowerChar_mem h l))
  · exact .inl (upperChar_mem h l)

/-- What `letter_of` can answer (R94): NotFound, or the character of the first symbol whose sorted triple it is
given. -/
theorem letterOf_cases (cfg : Config) (t : List Nat) (upper : Bool) :
    letterOf cfg t upper = none ∨
    ∃ k < 27, sigSorted cfg k = t ∧ letterOf cfg t upper = some (charOfSym cfg.charcode k upper) := by
  unfold letterOf
  cases e : (List.range symbolCount).find? fun s => sigSorted cfg s == t with
  | none => exact .inl rfl
  | some k =>
    have row : (sigSorted cfg k == t) = true := by simpa using List.find?_some e
    exact .inr ⟨k, List.mem_range.mp (List.mem_of_find?_eq_some e), eq_of_beq row, rfl⟩

/-- Every character `letter_of` answers is a letter or space. -/
theorem letterOf_isSome {cfg : Config} (h : cfg.charcode.WellFormed) {t : List Nat} {upper : Bool} {c : Char8}
    (e : letterOf cfg t upper = some c) : (symOfChar cfg.charcode c).isSome = true := by
  rcases letterOf_cases cfg t upper with n | ⟨k, hk, -, s⟩
  · rw [n] at e; cases e
  · rw [s] at e; cases e; exact charOfSym_isSome h hk upper

end Sys2Proof.Laws
end

