-- ==== Sys2Proof/Laws/Ranking.lean ====
section
/-! SUPPORT. Ranking integers that stand for reals closely enough is ranking the reals (R13). -/

namespace Sys2Proof.Laws

open Sys2Proof.Machine

variable {ι α β : Type}

theorem insertBy_map (f : ι → α) (before : α → α → Bool) (x : ι) (l : List ι) :
    insertBy before (f x) (l.map f) = (insertBy (fun a b => before (f a) (f b)) x l).map f := by
  induction l with
  | nil => rfl
  | cons y ys ih =>
    simp only [insertBy, List.map_cons]
    split <;> simp [ih]

theorem sortBy_map (f : ι → α) (before : α → α → Bool) (l : List ι) :
    sortBy before (l.map f) = (sortBy (fun a b => before (f a) (f b)) l).map f := by
  induction l with
  | nil => rfl
  | cons x xs ih => rw [List.map_cons, sortBy, ih, insertBy_map]; rfl

theorem mem_insertBy (before : α → α → Bool) (x z : α) (l : List α) (h : z ∈ insertBy before x l) : z = x ∨ z ∈ l := by
  induction l with
  | nil => simpa [insertBy] using h
  | cons y ys ih =>
    simp only [insertBy] at h
    split at h
    · rcases List.mem_cons.mp h with h | h
      · exact .inr (h ▸ List.mem_cons_self)
      · exact (ih h).imp_right (List.mem_cons_of_mem _)
    · simpa using h

theorem mem_sortBy (before : α → α → Bool) (z : α) (l : List α) (h : z ∈ sortBy before l) : z ∈ l := by
  induction l with
  | nil => exact h
  | cons x xs ih =>
    rcases mem_insertBy _ _ _ _ h with h | h
    · exact h ▸ List.mem_cons_self
    · exact List.mem_cons_of_mem _ (ih h)

theorem insertBy_congr (before before' : α → α → Bool) (x : α) (l : List α) (h : ∀ y ∈ l, before y x = before' y x) :
    insertBy before x l = insertBy before' x l := by
  induction l with
  | nil => rfl
  | cons y ys ih =>
    simp only [insertBy, h y List.mem_cons_self, ih fun z hz => h z (List.mem_cons_of_mem _ hz)]

theorem sortBy_congr (before before' : α → α → Bool) (l : List α) (h : ∀ a ∈ l, ∀ b ∈ l, before a b = before' a b) :
    sortBy before l = sortBy before' l := by
  induction l with
  | nil => rfl
  | cons x xs ih =>
    rw [sortBy, sortBy, ih fun a ha b hb => h a (List.mem_cons_of_mem _ ha) b (List.mem_cons_of_mem _ hb)]
    exact insertBy_congr _ _ _ _ fun y hy => h y (List.mem_cons_of_mem _ (mem_sortBy _ _ _ hy)) x List.mem_cons_self

/-- Two orders that agree on the entries select the same indices. -/
theorem topK_congr (before : α × ℕ → α × ℕ → Bool) (before' : β × ℕ → β × ℕ → Bool) (n : ℕ) (f : ℕ → α) (g : ℕ → β) (k : ℕ)
    (h : ∀ i < n, ∀ j < n, before (f i, i) (f j, j) = before' (g i, i) (g j, j)) :
    topK before ((List.range n).map f) k = topK before' ((List.range n).map g) k := by
  have idx : ∀ (γ : Type) (u : ℕ → γ), ((List.range n).map u).zipIdx = (List.range n).map fun i => (u i, i) := by
    intro γ u
    apply List.ext_getElem <;> simp
  rw [topK, topK, idx, idx, sortBy_map (fun i => (f i, i)), sortBy_map (fun i => (g i, i)), ← List.map_take, ← List.map_take,
    List.map_map, List.map_map]
  rw [sortBy_congr _ (fun i j => before' (g i, i) (g j, j)) (List.range n) fun i hi j hj =>
    h i (List.mem_range.mp hi) j (List.mem_range.mp hj)]
  rfl

theorem topK_length_le (before : α × ℕ → α × ℕ → Bool) (v : List α) (k : ℕ) : (topK before v k).length ≤ k := by
  simp [topK]

/-- Two integers within half of `tol` of two reals at one scale, further apart than `tol` if the reals
differ, compare as the reals do. -/
theorem compare_exact (tol v w : ℤ) (scale x y : ℝ) (hs : 0 < scale) (hv : |(v : ℝ) - scale * x| ≤ tol / 2)
    (hw : |(w : ℝ) - scale * y| ≤ tol / 2) (sep : x ≠ y → tol < |v - w|) :
    (w + tol < v ↔ y < x) ∧ (w ≤ v + tol ↔ y ≤ x) := by
  obtain ⟨v1, v2⟩ := abs_le.mp hv
  obtain ⟨w1, w2⟩ := abs_le.mp hw
  have near : x = y → |(v : ℝ) - w| ≤ tol := by
    rintro rfl; rw [abs_le]; constructor <;> linarith
  have up : y < x → w + tol < v := by
    intro h
    have s := sep h.ne'
    have m : scale * y < scale * x := by nlinarith
    have : (w : ℝ) - tol < v := by linarith
    have : w - tol < v := by exact_mod_cast this
    rcases abs_cases (v - w) with ⟨e, _⟩ | ⟨e, _⟩ <;> omega
  have down : x < y → v + tol < w := by
    intro h
    have s := sep h.ne
    have m : scale * x < scale * y := by nlinarith
    have : (v : ℝ) - tol < w := by linarith
    have : v - tol < w := by exact_mod_cast this
    rcases abs_cases (v - w) with ⟨e, _⟩ | ⟨e, _⟩ <;> omega
  have eq : x = y → w ≤ v + tol ∧ v ≤ w + tol := by
    intro h
    have := abs_le.mp (near h)
    constructor
    · have : (w : ℝ) ≤ v + tol := by linarith
      exact_mod_cast this
    · have : (v : ℝ) ≤ w + tol := by linarith
      exact_mod_cast this
  have t0 : (0 : ℤ) ≤ tol := by
    have : (0 : ℝ) ≤ tol := by linarith
    exact_mod_cast this
  refine ⟨⟨fun h => ?_, up⟩, ⟨fun h => ?_, fun h => ?_⟩⟩
  · rcases lt_trichotomy x y with c | c | c
    · have := down c; omega
    · have := eq c; omega
    · exact c
  · rcases lt_trichotomy x y with c | c | c
    · have := down c; omega
    · exact c.ge
    · exact c.le
  · rcases h.lt_or_eq with c | c
    · have := up c; omega
    · exact (eq c.symm).1

theorem precedes_exact (tol v w : ℤ) (scale x y : ℝ) (hs : 0 < scale) (hv : |(v : ℝ) - scale * x| ≤ tol / 2)
    (hw : |(w : ℝ) - scale * y| ≤ tol / 2) (sep : x ≠ y → tol < |v - w|) (i j : ℕ) :
    precedes tol (v, i) (w, j) = Reference.precedes (x, i) (y, j) := by
  obtain ⟨a, b⟩ := compare_exact tol v w scale x y hs hv hw sep
  unfold precedes Reference.precedes
  rw [← Bool.decide_and, ← Bool.decide_or, decide_eq_decide]
  simp only [a, b]
  constructor
  · rintro (h | ⟨h, k⟩)
    · exact .inl h
    · rcases h.lt_or_eq with c | c
      · exact .inl c
      · exact .inr ⟨c.symm, k⟩
  · rintro (h | ⟨h, k⟩)
    · exact .inl h
    · exact .inr ⟨h.ge, k⟩

/-- Separated reals give separated integers. -/
theorem apart (tol v w : ℤ) (scale x y : ℝ) (hs : 0 < scale) (hv : |(v : ℝ) - scale * x| ≤ tol / 2)
    (hw : |(w : ℝ) - scale * y| ≤ tol / 2) (far : 2 * tol < scale * |x - y|) : tol < |v - w| := by
  rw [← abs_of_pos hs, ← abs_mul] at far
  have : (tol : ℝ) < |(v : ℝ) - w| := by
    have t := abs_sub_abs_le_abs_sub (scale * (x - y)) ((v : ℝ) - w)
    have e : scale * (x - y) - ((v : ℝ) - w) = ((w : ℝ) - scale * y) - ((v : ℝ) - scale * x) := by ring
    rw [e] at t
    have := abs_sub ((w : ℝ) - scale * y) ((v : ℝ) - scale * x)
    linarith
  exact_mod_cast this

end Sys2Proof.Laws
end

