-- ==== Sys2Proof/Laws/Separation.lean ====
section
/-! SUPPORT. How close two different numbers of one command can lie: a nonzero algebraic integer in the
field of the `q`-th roots of unity, all of whose conjugates are at most `B`, is at least `B^(1 - totient q)`. -/

namespace Sys2Proof.Laws

open IntermediateField

/-- The root of unity of angle `2*pi/q`. -/
noncomputable def root (q : ℕ) : ℂ := Complex.exp (2 * Real.pi * Complex.I / q)

/-- The field of the `q`-th roots of unity. -/
noncomputable abbrev RootField (q : ℕ) : IntermediateField ℚ ℂ := adjoin ℚ {root q}

theorem root_pow (q : ℕ) (hq : 0 < q) : root q ^ q = 1 := by
  rw [root, ← Complex.exp_nat_mul]
  have : (q : ℂ) ≠ 0 := by exact_mod_cast hq.ne'
  rw [mul_div_cancel₀ _ this, Complex.exp_two_pi_mul_I]

theorem root_primitive (q : ℕ) (hq : 0 < q) : IsPrimitiveRoot (root q) q := Complex.isPrimitiveRoot_exp q hq.ne'

theorem root_integral (q : ℕ) (hq : 0 < q) : IsIntegral ℤ (root q) := (root_primitive q hq).isIntegral hq

theorem rootField_finite (q : ℕ) (hq : 0 < q) : FiniteDimensional ℚ (RootField q) :=
  adjoin.finiteDimensional ((root_integral q hq).tower_top)

theorem rootField_degree (q : ℕ) (hq : 0 < q) : Module.finrank ℚ (RootField q) ≤ q.totient := by
  rw [adjoin.finrank ((root_integral q hq).tower_top), ← Polynomial.natDegree_cyclotomic q ℚ]
  refine Polynomial.natDegree_le_of_dvd ?_ (Polynomial.cyclotomic_ne_zero q ℚ)
  refine minpoly.dvd ℚ _ ?_
  have := (root_primitive q hq).isRoot_cyclotomic hq
  rw [Polynomial.aeval_def, Polynomial.eval₂_eq_eval_map, Polynomial.map_cyclotomic]
  exact this

/-- `x` is an algebraic integer of the field of the `q`-th roots of unity, and none of its conjugates is
larger than `B`. -/
def Tame (q : ℕ) (B : ℝ) (x : ℂ) : Prop :=
  ∃ y : RootField q, (y : ℂ) = x ∧ IsIntegral ℤ y ∧ ∀ σ : RootField q →ₐ[ℚ] ℂ, ‖σ y‖ ≤ B

theorem Tame.mono {q : ℕ} {B B' : ℝ} {x : ℂ} (h : Tame q B x) (hB : B ≤ B') : Tame q B' x := by
  obtain ⟨y, e, i, c⟩ := h
  exact ⟨y, e, i, fun σ => (c σ).trans hB⟩

theorem Tame.add {q : ℕ} {B B' : ℝ} {x x' : ℂ} (h : Tame q B x) (h' : Tame q B' x') : Tame q (B + B') (x + x') := by
  obtain ⟨y, rfl, i, c⟩ := h
  obtain ⟨y', rfl, i', c'⟩ := h'
  exact ⟨y + y', by simp, i.add i', fun σ => by
    rw [map_add]; exact (norm_add_le _ _).trans (add_le_add (c σ) (c' σ))⟩

theorem Tame.neg {q : ℕ} {B : ℝ} {x : ℂ} (h : Tame q B x) : Tame q B (-x) := by
  obtain ⟨y, rfl, i, c⟩ := h
  exact ⟨-y, by simp, i.neg, fun σ => by rw [map_neg, norm_neg]; exact c σ⟩

theorem Tame.sub {q : ℕ} {B B' : ℝ} {x x' : ℂ} (h : Tame q B x) (h' : Tame q B' x') : Tame q (B + B') (x - x') := by
  rw [sub_eq_add_neg]; exact h.add h'.neg

theorem Tame.nonneg {q : ℕ} {B : ℝ} {x : ℂ} (h : Tame q B x) : 0 ≤ B := by
  obtain ⟨y, rfl, _, c⟩ := h
  exact (norm_nonneg _).trans (c (val _))

theorem Tame.mul {q : ℕ} {B B' : ℝ} {x x' : ℂ} (h : Tame q B x) (h' : Tame q B' x') : Tame q (B * B') (x * x') := by
  have b := h.nonneg
  obtain ⟨y, rfl, i, c⟩ := h
  obtain ⟨y', rfl, i', c'⟩ := h'
  exact ⟨y * y', by simp, i.mul i', fun σ => by
    rw [map_mul, norm_mul]; exact mul_le_mul (c σ) (c' σ) (norm_nonneg _) b⟩

theorem tame_int (q : ℕ) (n : ℤ) : Tame q |(n : ℝ)| n :=
  ⟨n, by simp, by have := isIntegral_algebraMap (R := ℤ) (A := RootField q) (x := n); simpa using this,
    fun σ => by simp⟩

theorem Tame.pow {q : ℕ} {B : ℝ} {x : ℂ} (h : Tame q B x) (n : ℕ) : Tame q (B ^ n) (x ^ n) := by
  induction n with
  | zero => simpa using tame_int q 1
  | succ n ih => rw [pow_succ, pow_succ]; exact ih.mul h

theorem tame_root (q : ℕ) (hq : 0 < q) : Tame q 1 (root q) := by
  refine ⟨⟨root q, mem_adjoin_simple_self ℚ _⟩, rfl, ?_, fun σ => ?_⟩
  · have := root_integral q hq
    rw [← isIntegral_algebraMap_iff (algebraMap (RootField q) ℂ).injective]
    exact this
  · have e : (⟨root q, mem_adjoin_simple_self ℚ _⟩ : RootField q) ^ q = 1 := Subtype.ext (root_pow q hq)
    have : σ ⟨root q, mem_adjoin_simple_self ℚ _⟩ ^ q = 1 := by rw [← map_pow, e, map_one]
    exact (Complex.norm_eq_one_of_pow_eq_one this hq.ne').le

theorem cos_root (q : ℕ) (hq : 0 < q) (j : ℕ) :
    ((2 * Real.cos (2 * Real.pi * j / q) : ℝ) : ℂ) = root q ^ j + root q ^ ((q - 1) * j) := by
  have hq' : (q : ℂ) ≠ 0 := by exact_mod_cast hq.ne'
  have inv : root q ^ ((q - 1) * j) = (root q ^ j)⁻¹ := by
    refine eq_inv_of_mul_eq_one_left ?_
    rw [← pow_add,
      show (q - 1) * j + j = q * j by rw [Nat.sub_mul, one_mul]; exact Nat.sub_add_cancel (Nat.le_mul_of_pos_left _ hq),
      pow_mul, root_pow q hq, one_pow]
  rw [inv, root, ← Complex.exp_nat_mul, ← Complex.exp_neg]
  push_cast
  rw [Complex.cos]
  have e1 : (j : ℂ) * (2 * Real.pi * Complex.I / q) = 2 * Real.pi * j / q * Complex.I := by ring
  have e2 : -(j * (2 * Real.pi * Complex.I / q)) = -(2 * Real.pi * j / q) * Complex.I := by ring
  rw [e1, ← neg_mul]
  ring

/-- Twice the cosine of a multiple of `2*pi/q` is tame with bound 2. -/
theorem tame_cos (q : ℕ) (hq : 0 < q) (j : ℕ) : Tame q 2 ((2 * Real.cos (2 * Real.pi * j / q) : ℝ) : ℂ) := by
  rw [cos_root q hq j]
  have a := ((tame_root q hq).pow j).add ((tame_root q hq).pow ((q - 1) * j))
  rw [one_pow, one_pow] at a
  exact a.mono (by norm_num)

/-- The separation bound. -/
theorem Tame.separated {q : ℕ} {B : ℝ} {x : ℂ} (hq : 0 < q) (h : Tame q B x) (hx : x ≠ 0) (hB : 1 ≤ B) :
    1 ≤ ‖x‖ * B ^ (q.totient - 1) := by
  classical
  obtain ⟨y, rfl, i, c⟩ := h
  have : FiniteDimensional ℚ (RootField q) := rootField_finite q hq
  have hy : y ≠ 0 := fun e => hx (by rw [e]; rfl)
  have n0 : Algebra.norm ℚ y ≠ 0 := Algebra.norm_ne_zero_iff.mpr hy
  have nint : IsIntegral ℤ (Algebra.norm ℚ y) := Algebra.isIntegral_norm ℚ i
  obtain ⟨v, hv⟩ : ∃ v : RootField q →ₐ[ℚ] ℂ, v y = (y : ℂ) := ⟨val _, rfl⟩
  obtain ⟨z, hz⟩ := IsIntegrallyClosed.isIntegral_iff.mp nint
  have z0 : z ≠ 0 := by rintro rfl; exact n0 (by rw [← hz]; simp)
  have prod := Algebra.norm_eq_prod_embeddings ℚ ℂ y
  rw [← hz] at prod
  have z1 : (1 : ℝ) ≤ ‖(algebraMap ℚ ℂ) ((algebraMap ℤ ℚ) z)‖ := by
    have : (1 : ℝ) ≤ |(z : ℝ)| := by exact_mod_cast Int.one_le_abs z0
    simpa using this
  rw [prod, norm_prod, ← Finset.mul_prod_erase Finset.univ (fun σ : RootField q →ₐ[ℚ] ℂ => ‖σ y‖)
    (Finset.mem_univ v), hv] at z1
  refine z1.trans (mul_le_mul_of_nonneg_left ?_ (norm_nonneg _))
  refine (Finset.prod_le_prod (fun _ _ => norm_nonneg _) (fun σ _ => c σ)).trans ?_
  rw [Finset.prod_const]
  refine pow_le_pow_right₀ hB ?_
  rw [Finset.card_erase_of_mem (Finset.mem_univ _), Finset.card_univ, AlgHom.card]
  exact Nat.sub_le_sub_right (rootField_degree q hq) 1

end Sys2Proof.Laws
end

