-- ==== Sys2Proof/Laws/Trig.lean ====
section
/-! SUPPORT. `cosFix` and the entries of `cosTable` are `2^p * cos(2*pi*a/q)` to within 2, for every `p`. -/

namespace Sys2Proof.Laws

open Sys2Proof.Machine

/-! ### Evaluation order changes no value -/

@[simp] theorem forced_eq {α : Type} (z : Int) (k : Int → α) : forced z k = k z := by
  unfold forced; split <;> rfl

@[simp] theorem forcedNat_eq {α : Type} (n : Nat) (k : Nat → α) : forcedNat n k = k n := by
  unfold forcedNat; split <;> rfl

@[simp] theorem forcedList_eq {α : Type} (l : List Int) (k : List Int → α) : forcedList l k = k l := by
  induction l generalizing k with
  | nil => rfl
  | cons x xs ih => simp [forcedList, ih]

/-! ### Rounded quotients -/

/-- Integer division by a positive number is within 1 below the real quotient. -/
theorem ediv_real (a : Int) (b : Nat) (hb : 0 < b) :
    (a : ℝ) / b - 1 ≤ ((a / (b : Int) : Int) : ℝ) ∧ ((a / (b : Int) : Int) : ℝ) ≤ (a : ℝ) / b := by
  have hb' : (0 : ℝ) < b := by exact_mod_cast hb
  have h1 := Int.emod_add_mul_ediv a b
  have h2 := Int.emod_nonneg a (by omega : (b : Int) ≠ 0)
  have h3 := Int.emod_lt_of_pos a (by omega : (0 : Int) < b)
  have e : (a : ℝ) = ((a % b : Int) : ℝ) + b * ((a / b : Int) : ℝ) := by exact_mod_cast h1.symm
  have r0 : (0 : ℝ) ≤ ((a % b : Int) : ℝ) := by exact_mod_cast h2
  have r1 : ((a % b : Int) : ℝ) ≤ b := by exact_mod_cast h3.le
  constructor
  · rw [div_sub_one hb'.ne', div_le_iff₀ hb']; nlinarith
  · rw [le_div_iff₀ hb']; nlinarith

/-- The error of a rounded quotient of an approximate dividend. -/
theorem ediv_close (a : Int) (b : Nat) (hb : 0 < b) {x e : ℝ} (h : |(a : ℝ) - x| ≤ e) :
    |((a / (b : Int) : Int) : ℝ) - x / b| ≤ e / b + 1 := by
  have hb' : (0 : ℝ) < b := by exact_mod_cast hb
  obtain ⟨l, u⟩ := ediv_real a b hb
  have h2 : |(a : ℝ) / b - x / b| ≤ e / b := by
    rw [← sub_div, abs_div, abs_of_pos hb']; gcongr
  rw [abs_le] at *
  constructor <;> linarith

theorem natdiv_close (a b : Nat) (hb : 0 < b) {x e : ℝ} (h : |(a : ℝ) - x| ≤ e) :
    |((a / b : Nat) : ℝ) - x / b| ≤ e / b + 1 := by
  have := ediv_close (a : Int) b hb (x := x) (e := e) (by simpa using h)
  have e1 : (((a : Int) / (b : Int) : Int) : ℝ) = ((a / b : Nat) : ℝ) := by
    rw [← Int.natCast_div, Int.cast_natCast]
  rwa [e1] at this

/-! ### The number pi -/

/-- The floor of a real, as the loop carries it. -/
theorem floor_div {t m : Nat} (hm : 0 < m) {T : ℝ} (h0 : (t : ℝ) ≤ T) (h1 : T < t + 1) :
    ((t / m : Nat) : ℝ) ≤ T / m ∧ T / m < (t / m : Nat) + 1 := by
  have hm' : (0 : ℝ) < m := by exact_mod_cast hm
  have a := Nat.div_mul_le_self t m
  have b := Nat.lt_div_mul_add (a := t) hm
  have a' : ((t / m : Nat) : ℝ) * m ≤ t := by exact_mod_cast a
  have b' : (t : ℝ) + 1 ≤ ((t / m : Nat) : ℝ) * m + m := by exact_mod_cast b
  constructor
  · rw [le_div_iff₀ hm']; linarith
  · rw [div_lt_iff₀ hm']; linarith

theorem arctanLoop_close (m2 : Nat) (hm : 0 < m2) (n t d : Nat) (hd : 0 < d) (T : ℝ)
    (h0 : (t : ℝ) ≤ T) (h1 : T < t + 1) :
    |(arctanLoop m2 n t d : ℝ) - ∑ k ∈ Finset.range n, (-1) ^ k * (T / m2 ^ k / (d + 2 * k : ℕ))| ≤ n := by
  induction n generalizing t d T with
  | zero => simp [arctanLoop]
  | succ n ih =>
    obtain ⟨a0, a1⟩ := floor_div hm h0 h1
    have b := floor_div hd h0 h1
    have := ih (t / m2) (d + 2) (by omega) (T / m2) a0 a1
    rw [Finset.sum_range_succ']
    have e : ∀ k : ℕ, (-1 : ℝ) ^ (k + 1) * (T / m2 ^ (k + 1) / (d + 2 * (k + 1) : ℕ))
        = - ((-1) ^ k * (T / m2 / m2 ^ k / (d + 2 + 2 * k : ℕ))) := by
      intro k
      rw [pow_succ, pow_succ, div_div T (m2 : ℝ), mul_comm (m2 : ℝ), show d + 2 * (k + 1) = d + 2 + 2 * k by ring]
      ring
    simp only [e, Finset.sum_neg_distrib, arctanLoop, Int.cast_sub, Int.cast_natCast]
    rw [pow_zero, pow_zero, div_one, one_mul, mul_zero, add_zero, Nat.cast_add, Nat.cast_one]
    rw [abs_le] at this ⊢
    constructor <;> linarith [b.1, b.2, this.1, this.2]

theorem arctan_tail (m n : Nat) (hm : 2 ≤ m) :
    |Real.arctan (m : ℝ)⁻¹ - ∑ k ∈ Finset.range n, (-1) ^ k * ((m : ℝ)⁻¹ / (m * m : ℕ) ^ k / (1 + 2 * k : ℕ))|
      ≤ 2 / (m : ℝ) ^ (2 * n + 1) := by
  have hm' : (2 : ℝ) ≤ m := by exact_mod_cast hm
  set x : ℝ := (m : ℝ)⁻¹ with hx
  have x0 : 0 < x := by positivity
  have x1 : x ≤ 1 / 2 := by rw [hx, inv_le_comm₀ (by linarith) (by norm_num)]; norm_num; linarith
  have hs := Real.hasSum_arctan (x := x) (by rw [Real.norm_eq_abs, abs_of_pos x0]; linarith)
  have tail := (hasSum_nat_add_iff' n).mpr hs
  have geo : HasSum (fun k : ℕ => x ^ (2 * n + 1) * (x ^ 2) ^ k) (x ^ (2 * n + 1) * (1 - x ^ 2)⁻¹) :=
    (hasSum_geometric_of_lt_one (by positivity) (by nlinarith)).mul_left _
  have bound := tail.norm_le_of_bounded geo (by
    intro k
    rw [norm_div, norm_mul, norm_pow, norm_neg, norm_one, one_pow, one_mul, norm_pow, Real.norm_eq_abs,
      abs_of_pos x0]
    have e : x ^ (2 * (k + n) + 1) = x ^ (2 * n + 1) * (x ^ 2) ^ k := by ring
    rw [e]
    apply div_le_self (by positivity)
    rw [Real.norm_natCast]
    exact_mod_cast (by omega : 1 ≤ 2 * (k + n) + 1))
  have e : ∀ k : ℕ, (-1 : ℝ) ^ k * x ^ (2 * k + 1) / (2 * k + 1 : ℕ) = (-1) ^ k * (x / (m * m : ℕ) ^ k / (1 + 2 * k : ℕ)) := by
    intro k
    have : x ^ (2 * k + 1) = x / (m * m : ℕ) ^ k := by
      rw [pow_succ, pow_mul, hx]; push_cast
      rw [inv_pow, inv_pow, ← pow_two]; field_simp
    rw [this, add_comm 1 (2 * k)]; ring
  simp only [e] at bound
  rw [Real.norm_eq_abs] at bound
  refine bound.trans ?_
  have i : (1 - x ^ 2)⁻¹ ≤ 2 := by rw [inv_le_comm₀ (by nlinarith) (by norm_num)]; nlinarith
  calc x ^ (2 * n + 1) * (1 - x ^ 2)⁻¹ ≤ x ^ (2 * n + 1) * 2 := by gcongr
    _ = 2 / (m : ℝ) ^ (2 * n + 1) := by rw [hx, inv_pow]; field_simp

theorem arctanInv_close (v m n : Nat) (hm : 2 ≤ m) (hn : 2 ^ (v + 1) ≤ m ^ (2 * n + 1)) :
    |(arctanInv v m n : ℝ) - 2 ^ v * Real.arctan (m : ℝ)⁻¹| ≤ n + 1 := by
  have hm' : (0 : ℝ) < m := by exact_mod_cast (by omega : 0 < m)
  have f := floor_div (t := 2 ^ v) (m := m) (by omega) (T := 2 ^ v) (by simp) (by push_cast; linarith)
  have a := arctanLoop_close (m * m) (by positivity) n (2 ^ v / m) 1 (by omega) _ f.1 f.2
  have b := arctan_tail m n hm
  have s : ∑ k ∈ Finset.range n, (-1 : ℝ) ^ k * ((2 : ℝ) ^ v / m / (m * m : ℕ) ^ k / (1 + 2 * k : ℕ))
      = 2 ^ v * ∑ k ∈ Finset.range n, (-1) ^ k * ((m : ℝ)⁻¹ / (m * m : ℕ) ^ k / (1 + 2 * k : ℕ)) := by
    rw [Finset.mul_sum]; refine Finset.sum_congr rfl fun k _ => ?_
    rw [div_eq_mul_inv ((2 : ℝ) ^ v) (m : ℝ)]; ring
  rw [s] at a
  have c : (2 : ℝ) ^ v * (2 / (m : ℝ) ^ (2 * n + 1)) ≤ 1 := by
    rw [mul_div_assoc', ← pow_succ, div_le_one (by positivity)]; exact_mod_cast hn
  have b' := mul_le_mul_of_nonneg_left b (by positivity : (0 : ℝ) ≤ 2 ^ v)
  rw [← abs_of_pos (by positivity : (0 : ℝ) < 2 ^ v), ← abs_mul, abs_of_pos (by positivity : (0 : ℝ) < 2 ^ v), mul_sub] at b'
  unfold arctanInv
  rw [abs_le] at a b' ⊢
  constructor <;> linarith [a.1, a.2, b'.1, b'.2]

/-- Machin's formula on two approximate arctangents. -/
theorem machin_close (v n5 n239 : Nat) (A B : Int)
    (a : |(A : ℝ) - 2 ^ v * Real.arctan ((5 : ℕ) : ℝ)⁻¹| ≤ n5 + 1)
    (b : |(B : ℝ) - 2 ^ v * Real.arctan ((239 : ℕ) : ℝ)⁻¹| ≤ n239 + 1) :
    |((16 * A - 4 * B : Int) : ℝ) - 2 ^ v * Real.pi| ≤ 16 * (n5 + 1) + 4 * (n239 + 1) := by
  have machin := Real.four_mul_arctan_inv_5_sub_arctan_inv_239
  have e : (2 : ℝ) ^ v * Real.pi = 16 * (2 ^ v * Real.arctan ((5 : ℕ) : ℝ)⁻¹) - 4 * (2 ^ v * Real.arctan ((239 : ℕ) : ℝ)⁻¹) := by
    have : Real.pi = 4 * (4 * Real.arctan 5⁻¹ - Real.arctan 239⁻¹) := by rw [machin]; ring
    rw [this]; push_cast; ring
  rw [e]
  rw [abs_le] at a b ⊢
  push_cast
  push_cast at a b
  constructor <;> linarith [a.1, a.2, b.1, b.2]

/-- The terms taken and the guard digits suffice. -/
theorem piFix_budget (w : Nat) :
    5 * (w + (w.log2 + 16)) + 40 ≤ 2 ^ (w.log2 + 16) := by
  have hw : w < 2 ^ (w.log2 + 1) := Nat.lt_log2_self
  have hl : w.log2 ≤ w := by
    rcases Nat.eq_zero_or_pos w with h | h
    · subst h; decide
    · have := Nat.log2_self_le h.ne'
      have := Nat.lt_two_pow_self (n := w.log2); omega
  have e : 2 ^ (w.log2 + 16) = 2 ^ (w.log2 + 1) * 2 ^ 15 := by rw [← pow_add]
  have : 1 ≤ 2 ^ (w.log2 + 1) := Nat.one_le_two_pow
  rw [e]; omega

theorem terms5 (v : Nat) : 2 ^ (v + 1) ≤ 5 ^ (2 * (v / 4 + 1) + 1) :=
  calc 2 ^ (v + 1) ≤ 2 ^ (2 * (2 * (v / 4 + 1) + 1)) := Nat.pow_le_pow_right (by omega) (by omega)
    _ = 4 ^ (2 * (v / 4 + 1) + 1) := by rw [pow_mul]; norm_num
    _ ≤ 5 ^ (2 * (v / 4 + 1) + 1) := Nat.pow_le_pow_left (by omega) _

theorem terms239 (v : Nat) : 2 ^ (v + 1) ≤ 239 ^ (2 * (v / 15 + 1) + 1) :=
  calc 2 ^ (v + 1) ≤ 2 ^ (15 * (v / 15 + 1)) := Nat.pow_le_pow_right (by omega) (by omega)
    _ = (2 ^ 15) ^ (v / 15 + 1) := by rw [pow_mul]
    _ ≤ (239 ^ 2) ^ (v / 15 + 1) := Nat.pow_le_pow_left (by norm_num) _
    _ = 239 ^ (2 * (v / 15 + 1)) := by rw [pow_mul]
    _ ≤ 239 ^ (2 * (v / 15 + 1) + 1) := Nat.pow_le_pow_right (by omega) (by omega)

/-- A quotient that is close to a positive real is what `toNat` keeps. -/
theorem toNat_close (N : Int) (g w : Nat) (h : |(N : ℝ) - 2 ^ (w + g) * Real.pi| ≤ 2 ^ g) :
    |((N / ((2 ^ g : ℕ) : Int)).toNat : ℝ) - 2 ^ w * Real.pi| ≤ 2 := by
  have c := ediv_close N (2 ^ g) (by positivity) h
  have e2 : (2 : ℝ) ^ (w + g) * Real.pi / (2 ^ g : ℕ) = 2 ^ w * Real.pi := by
    push_cast; rw [pow_add]; field_simp
  have e3 : (2 : ℝ) ^ g / (2 ^ g : ℕ) = 1 := by push_cast; exact div_self (by positivity)
  rw [e2, e3] at c
  set z := N / ((2 ^ g : ℕ) : Int) with hz
  have h2 : (1 : ℝ) ≤ 2 ^ w := one_le_pow₀ (by norm_num)
  have h3 := Real.pi_gt_three
  have pos : 0 ≤ z := by
    have : (0 : ℝ) < (z : ℝ) := by
      have h1 := (abs_le.mp c).1
      nlinarith
    exact_mod_cast this.le
  have e4 : ((z.toNat : ℕ) : ℝ) = (z : ℝ) := by
    exact_mod_cast Int.toNat_of_nonneg pos
  rw [e4]; norm_num at c; exact c

/-- `piFix w` is `2^w * pi` to within 2. -/
theorem piFix_close (w : Nat) : |(piFix w : ℝ) - 2 ^ w * Real.pi| ≤ 2 := by
  have a := arctanInv_close (w + (w.log2 + 16)) 5 _ (by omega) (terms5 _)
  have b := arctanInv_close (w + (w.log2 + 16)) 239 _ (by omega) (terms239 _)
  have m := machin_close _ _ _ _ _ a b
  refine toNat_close _ _ _ (m.trans ?_)
  have i1 : (((w + (w.log2 + 16)) / 4 : ℕ) : ℝ) ≤ (w + (w.log2 + 16) : ℕ) / 4 := Nat.cast_div_le
  have i2 : (((w + (w.log2 + 16)) / 15 : ℕ) : ℝ) ≤ (w + (w.log2 + 16) : ℕ) / 15 := Nat.cast_div_le
  have hg : (5 * (w + (w.log2 + 16) : ℕ) + 40 : ℝ) ≤ 2 ^ (w.log2 + 16) := by exact_mod_cast piFix_budget w
  have v0 : (0 : ℝ) ≤ (w + (w.log2 + 16) : ℕ) := by positivity
  push_cast at *
  linarith

/-! ### The power series -/

/-- Horner's rule over the reals. -/
noncomputable def hornerReal (t : ℝ) : ℕ → ℕ → ℝ
  | 0, _ => 1
  | n + 1, j => 1 - hornerReal t n (j + 1) * t / ((2 * j + 1) * (2 * j + 2) : ℕ)

theorem hornerReal_range {t : ℝ} (h0 : 0 ≤ t) (h1 : t ≤ 1) (n j : ℕ) :
    0 ≤ hornerReal t n j ∧ hornerReal t n j ≤ 1 := by
  induction n generalizing j with
  | zero => simp [hornerReal]
  | succ n ih =>
    obtain ⟨a, b⟩ := ih (j + 1)
    have d : (1 : ℝ) ≤ ((2 * j + 1) * (2 * j + 2) : ℕ) := by
      exact_mod_cast Nat.mul_pos (by omega) (by omega)
    have q0 : 0 ≤ hornerReal t n (j + 1) * t / ((2 * j + 1) * (2 * j + 2) : ℕ) := by positivity
    have q1 : hornerReal t n (j + 1) * t / ((2 * j + 1) * (2 * j + 2) : ℕ) ≤ 1 := by
      rw [div_le_one (by linarith)]; nlinarith
    simp only [hornerReal]
    constructor <;> linarith

theorem hornerReal_sum (t : ℝ) (n j : ℕ) :
    hornerReal t n j = ∑ k ∈ Finset.range (n + 1), (-1) ^ k * t ^ k * ((2 * j).factorial / (2 * (j + k)).factorial) := by
  induction n generalizing j with
  | zero =>
    have : ((2 * j).factorial : ℝ) ≠ 0 := by positivity
    simp [hornerReal, div_self this]
  | succ n ih =>
    have f : ((2 * j).factorial : ℝ) ≠ 0 := by positivity
    have step : ((2 * (j + 1)).factorial : ℝ) = ((2 * j + 1) * (2 * j + 2) : ℕ) * (2 * j).factorial := by
      rw [show 2 * (j + 1) = 2 * j + 1 + 1 by ring, Nat.factorial_succ, Nat.factorial_succ]; push_cast; ring
    have d : (((2 * j + 1) * (2 * j + 2) : ℕ) : ℝ) ≠ 0 := by positivity
    rw [Finset.sum_range_succ', hornerReal, ih, Finset.sum_mul, Finset.sum_div, sub_eq_add_neg, ← Finset.sum_neg_distrib,
      add_comm]
    congr 1
    · refine Finset.sum_congr rfl fun k _ => ?_
      rw [step, show j + 1 + k = j + (k + 1) by ring]
      field_simp
      ring
    · simp [div_self f]

theorem cos_horner (y : ℝ) (n : ℕ) (h : y ^ 2 ≤ 1 / 2) :
    |Real.cos y - hornerReal (y ^ 2) n 0| ≤ 2 * (y ^ 2) ^ (n + 1) := by
  have hs := Real.hasSum_cos y
  have tail := (hasSum_nat_add_iff' (n + 1)).mpr hs
  have y0 := sq_nonneg y
  have geo : HasSum (fun k : ℕ => (y ^ 2) ^ (n + 1) * (y ^ 2) ^ k) ((y ^ 2) ^ (n + 1) * (1 - y ^ 2)⁻¹) :=
    (hasSum_geometric_of_lt_one (by positivity) (by linarith)).mul_left _
  have bound := tail.norm_le_of_bounded geo (by
    intro k
    rw [norm_div, norm_mul, norm_pow, norm_neg, norm_one, one_pow, one_mul, norm_pow, Real.norm_natCast,
      pow_mul, Real.norm_eq_abs, sq_abs, ← pow_add, add_comm k]
    apply div_le_self (by positivity)
    exact_mod_cast Nat.factorial_pos _)
  rw [hornerReal_sum]
  have e : ∀ k : ℕ, (-1 : ℝ) ^ k * y ^ (2 * k) / (2 * k).factorial
      = (-1) ^ k * (y ^ 2) ^ k * ((2 * 0).factorial / (2 * (0 + k)).factorial) := by
    intro k; rw [← pow_mul]; simp; ring
  simp only [e] at bound
  rw [Real.norm_eq_abs] at bound
  refine bound.trans ?_
  have i : (1 - y ^ 2)⁻¹ ≤ 2 := by rw [inv_le_comm₀ (by linarith) (by norm_num)]; linarith
  calc (y ^ 2) ^ (n + 1) * (1 - y ^ 2)⁻¹ ≤ (y ^ 2) ^ (n + 1) * 2 := by gcongr
    _ = _ := by ring

theorem cosHorner_close (w y2 : Nat) (t : ℝ) (h0 : 0 ≤ t) (hy : |(y2 : ℝ) - 2 ^ w * t| ≤ 2)
    (hs : 8 * (2 ^ w * t + 2) ≤ 2 ^ w) (n j : Nat) :
    cosHorner w y2 n j ≤ 2 ^ w ∧ |(cosHorner w y2 n j : ℝ) - 2 ^ w * hornerReal t n j| ≤ 4 := by
  have W : (0 : ℝ) < 2 ^ w := by positivity
  have t1 : t ≤ 1 := by nlinarith
  induction n generalizing j with
  | zero => simp [cosHorner, hornerReal]
  | succ n ih =>
    obtain ⟨a, b⟩ := ih (j + 1)
    obtain ⟨r0, r1⟩ := hornerReal_range h0 t1 n (j + 1)
    set V := cosHorner w y2 n (j + 1)
    set r := hornerReal t n (j + 1)
    set D := (2 * j + 1) * (2 * j + 2) with hD
    have D2 : 2 ≤ D := by rw [hD]; nlinarith
    have D2r : (2 : ℝ) ≤ (D : ℝ) := by exact_mod_cast D2
    have y2u : (y2 : ℝ) ≤ 2 ^ w * t + 2 := by linarith [(abs_le.mp hy).2]
    have y20 : (0 : ℝ) ≤ y2 := by positivity
    have y2w : y2 ≤ 2 ^ w := by
      have : (y2 : ℝ) ≤ 2 ^ w := by nlinarith
      exact_mod_cast this
    have prod : |((V * y2 : ℕ) : ℝ) - 2 ^ w * r * (2 ^ w * t)| ≤ 5 / 2 * 2 ^ w := by
      have e : ((V * y2 : ℕ) : ℝ) - 2 ^ w * r * (2 ^ w * t)
          = ((V : ℝ) - 2 ^ w * r) * y2 + 2 ^ w * r * ((y2 : ℝ) - 2 ^ w * t) := by push_cast; ring
      rw [e]
      refine (abs_add_le _ _).trans ?_
      rw [abs_mul, abs_mul, abs_of_nonneg y20, abs_of_nonneg (by positivity : 0 ≤ 2 ^ w * r)]
      have p1 : |(V : ℝ) - 2 ^ w * r| * y2 ≤ 4 * y2 := by gcongr
      have p2 : 2 ^ w * r * |(y2 : ℝ) - 2 ^ w * t| ≤ 2 ^ w * 1 * 2 := by gcongr
      linarith
    have q1 := natdiv_close _ (2 ^ w) (by positivity) prod
    have e1 : 5 / 2 * (2 : ℝ) ^ w / (2 ^ w : ℕ) = 5 / 2 := by push_cast; field_simp
    have e2 : (2 : ℝ) ^ w * r * (2 ^ w * t) / (2 ^ w : ℕ) = 2 ^ w * (r * t) := by push_cast; field_simp
    rw [e1, e2] at q1
    have q2 := natdiv_close _ D (by omega) q1
    set X := V * y2 / 2 ^ w / D with hX
    have Xle : X ≤ 2 ^ w := by
      have x1 : V * y2 / 2 ^ w ≤ y2 := by
        rw [Nat.div_le_iff_le_mul_add_pred (by positivity)]
        have : V * y2 ≤ 2 ^ w * y2 := Nat.mul_le_mul_right _ a
        omega
      exact (Nat.div_le_self _ _).trans (x1.trans y2w)
    have unf : cosHorner w y2 (n + 1) j = 2 ^ w - X := rfl
    have unr : hornerReal t (n + 1) j = 1 - r * t / (D : ℕ) := rfl
    refine ⟨by rw [unf]; exact Nat.sub_le _ _, ?_⟩
    rw [unf, unr, Nat.cast_sub Xle]
    have d1 : (5 / 2 + 1) / (D : ℝ) ≤ (5 / 2 + 1) / 2 := by gcongr
    have e3 : ((2 ^ w : ℕ) : ℝ) - X - 2 ^ w * (1 - r * t / D) = -((X : ℝ) - 2 ^ w * (r * t) / D) := by
      push_cast; ring
    rw [e3, abs_neg]
    linarith

/-! ### Doubling the angle -/

theorem double_close (w : Nat) (hw : 0 < w) (C : Int) (c e : ℝ) (h : |(C : ℝ) - 2 ^ w * c| ≤ e) (hc : |c| ≤ 1)
    (he : 2 ≤ e) (hs : 4 * e ≤ 2 ^ w) :
    |((C * C / (2 ^ (w - 1) : Nat) - (2 ^ w : Nat) : Int) : ℝ) - 2 ^ w * (2 * c ^ 2 - 1)| ≤ 5 * e := by
  have W : (0 : ℝ) < 2 ^ w := by positivity
  obtain ⟨v, rfl⟩ : ∃ v, w = v + 1 := ⟨w - 1, by omega⟩
  have V : (0 : ℝ) < 2 ^ v := by positivity
  have sq : |((C * C : Int) : ℝ) - (2 ^ (v + 1) * c) ^ 2| ≤ e * (2 * 2 ^ (v + 1) + e) := by
    have e1 : ((C * C : Int) : ℝ) - (2 ^ (v + 1) * c) ^ 2
        = ((C : ℝ) - 2 ^ (v + 1) * c) * ((C : ℝ) - 2 ^ (v + 1) * c + 2 * (2 ^ (v + 1) * c)) := by push_cast; ring
    rw [e1, abs_mul]
    have a1 : |(C : ℝ) - 2 ^ (v + 1) * c + 2 * (2 ^ (v + 1) * c)| ≤ e + 2 * 2 ^ (v + 1) := by
      refine (abs_add_le _ _).trans ?_
      have : |2 * (2 ^ (v + 1) * c)| ≤ 2 * 2 ^ (v + 1) := by
        rw [abs_mul, abs_mul, abs_of_pos (by norm_num : (0 : ℝ) < 2), abs_of_pos W]; nlinarith
      linarith
    calc _ ≤ e * (e + 2 * 2 ^ (v + 1)) := by gcongr
      _ = _ := by ring
  have q := ediv_close _ (2 ^ v) (by positivity) sq
  rw [Nat.add_sub_cancel]
  have e2 : ((2 : ℝ) ^ (v + 1) * c) ^ 2 / (2 ^ v : ℕ) = 2 ^ (v + 1) * (2 * c ^ 2) := by
    push_cast; rw [pow_succ]; field_simp; ring
  have e3 : e * (2 * (2 : ℝ) ^ (v + 1) + e) / (2 ^ v : ℕ) ≤ 9 / 2 * e := by
    push_cast
    rw [div_le_iff₀ V]
    have e4 : e * (4 * e) ≤ e * 2 ^ (v + 1) := by gcongr
    rw [pow_succ] at e4 ⊢
    nlinarith
  rw [e2] at q
  push_cast at q ⊢
  have e5 : (((C * C / (2 ^ v : Int) : Int) : ℝ) - 2 ^ (v + 1)) - 2 ^ (v + 1) * (2 * c ^ 2 - 1)
      = ((C * C / (2 ^ v : Int) : Int) : ℝ) - 2 ^ (v + 1) * (2 * c ^ 2) := by ring
  rw [e5]
  push_cast at e3
  linarith

theorem doubleAngle_close (w : Nat) (hw : 0 < w) (n : Nat) (C : Int) (x e : ℝ)
    (h : |(C : ℝ) - 2 ^ w * Real.cos x| ≤ e) (he : 2 ≤ e) (hs : 4 * (5 ^ n * e) ≤ 2 ^ w) :
    |(doubleAngle w n C : ℝ) - 2 ^ w * Real.cos (2 ^ n * x)| ≤ 5 ^ n * e := by
  induction n generalizing C x e with
  | zero => simpa [doubleAngle] using h
  | succ n ih =>
    have p5 : (1 : ℝ) ≤ 5 ^ n := one_le_pow₀ (by norm_num)
    have d := double_close w hw C (Real.cos x) e h (Real.abs_cos_le_one x) he (by rw [pow_succ] at hs; nlinarith)
    rw [← Real.cos_two_mul] at d
    have r := ih _ (2 * x) (5 * e) d (by linarith) (by rw [pow_succ] at hs; linarith)
    have e1 : (2 : ℝ) ^ n * (2 * x) = 2 ^ (n + 1) * x := by ring
    have e2 : (5 : ℝ) ^ n * (5 * e) = 5 ^ (n + 1) * e := by ring
    rw [e1, e2] at r
    exact r

/-! ### Cosines of rational angles -/

theorem cos_mod (a q : Nat) (hq : 0 < q) :
    Real.cos (2 * Real.pi * ((a % q : ℕ) : ℝ) / q) = Real.cos (2 * Real.pi * a / q) := by
  have q0 : (q : ℝ) ≠ 0 := by positivity
  have e : (a : ℝ) = (a % q : ℕ) + q * (a / q : ℕ) := by exact_mod_cast (Nat.mod_add_div a q).symm
  have : 2 * Real.pi * a / q = 2 * Real.pi * ((a % q : ℕ) : ℝ) / q + (a / q : ℕ) * (2 * Real.pi) := by
    rw [e]; field_simp
  rw [this, Real.cos_add_nat_mul_two_pi]

/-- `cosFix p a q` is `2^p * cos(2*pi*a/q)` to within 2. -/
theorem cosFix_close (p a q : Nat) (hq : 0 < q) :
    |(cosFix p a q : ℝ) - 2 ^ p * Real.cos (2 * Real.pi * a / q)| ≤ 2 := by
  have hq' : (0 : ℝ) < q := by exact_mod_cast hq
  set w := p + 90 with hw
  have W : (0 : ℝ) < 2 ^ w := by positivity
  have W90 : (2 : ℝ) ^ 90 ≤ 2 ^ w := pow_le_pow_right₀ (by norm_num) (by omega)
  have W16 : (64 : ℝ) ≤ 2 ^ w := le_trans (by norm_num) W90
  set r := a % q with hr
  have rq : (r : ℝ) ≤ q := by exact_mod_cast (Nat.mod_lt a hq).le
  set θ : ℝ := 2 * Real.pi * r / q / 2 ^ 35 with hθ
  have pi4 := Real.pi_lt_four
  have pi0 := Real.pi_pos
  have θ0 : 0 ≤ θ := by positivity
  have θ1 : θ ≤ 1 / 2 ^ 32 := by
    have a1 : 2 * Real.pi * r / q ≤ 8 := by rw [div_le_iff₀ hq']; nlinarith
    rw [hθ]; rw [div_le_div_iff₀ (by positivity) (by positivity)]; norm_num; linarith
  set y := 2 * piFix w * r / (q * 2 ^ halvings) with hy
  have yc : |(y : ℝ) - 2 ^ w * θ| ≤ 2 := by
    have n1 : |((2 * piFix w * r : ℕ) : ℝ) - 2 * (2 ^ w * Real.pi) * r| ≤ 4 * q := by
      have e : ((2 * piFix w * r : ℕ) : ℝ) - 2 * (2 ^ w * Real.pi) * r = ((piFix w : ℝ) - 2 ^ w * Real.pi) * (2 * r) := by
        push_cast; ring
      rw [e, abs_mul, abs_of_nonneg (by positivity : (0 : ℝ) ≤ 2 * r)]
      have := piFix_close w
      calc _ ≤ 2 * (2 * (r : ℝ)) := by gcongr
        _ ≤ _ := by linarith
    have n2 := natdiv_close _ (q * 2 ^ halvings) (by positivity) n1
    have e1 : 2 * (2 ^ w * Real.pi) * r / ((q * 2 ^ halvings : ℕ) : ℝ) = 2 ^ w * θ := by
      rw [hθ, halvings]; push_cast; field_simp; ring
    have e2 : 4 * (q : ℝ) / ((q * 2 ^ halvings : ℕ) : ℝ) ≤ 1 := by
      rw [halvings]; push_cast; rw [div_le_one (by positivity)]; nlinarith
    rw [e1] at n2
    linarith
  set y2 := y * y / 2 ^ w with hy2
  have y2c : |(y2 : ℝ) - 2 ^ w * θ ^ 2| ≤ 2 := by
    have n1 : |((y * y : ℕ) : ℝ) - (2 ^ w * θ) ^ 2| ≤ 2 ^ w := by
      have e : ((y * y : ℕ) : ℝ) - (2 ^ w * θ) ^ 2 = ((y : ℝ) - 2 ^ w * θ) * ((y : ℝ) - 2 ^ w * θ + 2 * (2 ^ w * θ)) := by
        push_cast; ring
      rw [e, abs_mul]
      have a1 : |(y : ℝ) - 2 ^ w * θ + 2 * (2 ^ w * θ)| ≤ 2 + 2 * (2 ^ w * θ) := by
        have a0 := abs_add_le ((y : ℝ) - 2 ^ w * θ) (2 * (2 ^ w * θ))
        have a2 : |2 * (2 ^ w * θ)| = 2 * (2 ^ w * θ) :=
          abs_of_nonneg (mul_nonneg (by norm_num) (mul_nonneg W.le θ0))
        linarith
      have a2 : 2 ^ w * θ ≤ 2 ^ w * (1 / 16) := by gcongr; exact θ1.trans (by norm_num)
      calc _ ≤ 2 * (2 + 2 * (2 ^ w * θ)) := by gcongr
        _ ≤ 2 ^ w := by linarith
    have n2 := natdiv_close _ (2 ^ w) (by positivity) n1
    have e1 : ((2 : ℝ) ^ w * θ) ^ 2 / (2 ^ w : ℕ) = 2 ^ w * θ ^ 2 := by push_cast; field_simp
    have e2 : (2 : ℝ) ^ w / (2 ^ w : ℕ) = 1 := by push_cast; exact div_self W.ne'
    rw [e1, e2] at n2
    linarith
  have t1 : θ ^ 2 ≤ 1 / 2 ^ 64 := by
    calc θ ^ 2 ≤ (1 / 2 ^ 32) ^ 2 := by gcongr
      _ = _ := by norm_num
  have small : 8 * (2 ^ w * θ ^ 2 + 2) ≤ (2 : ℝ) ^ w := by
    have : 2 ^ w * θ ^ 2 ≤ 2 ^ w * (1 / 16) := by gcongr; exact t1.trans (by norm_num)
    linarith
  set V := cosHorner w y2 (w / 64 + 1) 0 with hV
  have vc := (cosHorner_close w y2 (θ ^ 2) (by positivity) y2c small (w / 64 + 1) 0).2
  have series := cos_horner θ (w / 64 + 1) (t1.trans (by norm_num))
  have tail : 2 ^ w * (2 * (θ ^ 2) ^ (w / 64 + 1 + 1)) ≤ 1 := by
    have b1 : (θ ^ 2) ^ (w / 64 + 1 + 1) ≤ (1 / 2 ^ 64) ^ (w / 64 + 1 + 1) := by gcongr
    have b2 : (2 : ℝ) ^ w * 2 ≤ (2 ^ 64) ^ (w / 64 + 1 + 1) := by
      rw [← pow_succ, ← pow_mul]; exact pow_le_pow_right₀ (by norm_num) (by omega)
    have b3 : (1 / (2 : ℝ) ^ 64) ^ (w / 64 + 1 + 1) = 1 / (2 ^ 64) ^ (w / 64 + 1 + 1) := by rw [one_div, inv_pow, one_div]
    rw [b3] at b1
    calc 2 ^ w * (2 * (θ ^ 2) ^ (w / 64 + 1 + 1)) = (2 ^ w * 2) * (θ ^ 2) ^ (w / 64 + 1 + 1) := by ring
      _ ≤ (2 ^ 64) ^ (w / 64 + 1 + 1) * (1 / (2 ^ 64) ^ (w / 64 + 1 + 1)) := by gcongr
      _ = 1 := by field_simp
  have vc2 : |((V : Int) : ℝ) - 2 ^ w * Real.cos θ| ≤ 5 := by
    have s2 : |2 ^ w * hornerReal (θ ^ 2) (w / 64 + 1) 0 - 2 ^ w * Real.cos θ| ≤ 1 := by
      rw [← mul_sub, abs_mul, abs_of_pos W, abs_sub_comm]
      exact (mul_le_mul_of_nonneg_left series W.le).trans tail
    have := abs_sub_le ((V : Int) : ℝ) (2 ^ w * hornerReal (θ ^ 2) (w / 64 + 1) 0) (2 ^ w * Real.cos θ)
    rw [Int.cast_natCast] at *
    linarith
  have dbl := doubleAngle_close w (by omega) halvings (V : Int) θ 5 vc2 (by norm_num) (by
    rw [halvings]; exact le_trans (by norm_num) W90)
  have ang : (2 : ℝ) ^ halvings * θ = 2 * Real.pi * r / q := by rw [hθ, halvings]; field_simp
  rw [ang, hr, cos_mod a q hq] at dbl
  have fin := ediv_close _ (2 ^ 90) (by positivity) dbl
  have e1 : (2 : ℝ) ^ w * Real.cos (2 * Real.pi * a / q) / (2 ^ 90 : ℕ) = 2 ^ p * Real.cos (2 * Real.pi * a / q) := by
    rw [hw, pow_add]; push_cast; field_simp; ring
  have e2 : (5 : ℝ) ^ halvings * 5 / (2 ^ 90 : ℕ) ≤ 1 := by rw [halvings]; norm_num
  rw [e1] at fin
  have unf : cosFix p a q = doubleAngle w halvings (V : Int) / ((2 ^ 90 : ℕ) : Int) := rfl
  rw [unf]
  linarith

/-! ### The table -/

theorem nth_map {α β : Type} (f : α → β) (d : α) (d' : β) (l : List α) (n : Nat) (h : n < l.length) :
    nth d' (l.map f) n = f (nth d l n) := by
  induction l generalizing n with
  | nil => simp at h
  | cons x xs ih =>
    cases n with
    | zero => rfl
    | succ n => exact ih n (by simpa using h)

theorem nth_eq_getElem {α : Type} (d : α) (l : List α) (n : Nat) (h : n < l.length) : nth d l n = l[n] := by
  induction l generalizing n with
  | nil => simp at h
  | cons x xs ih =>
    cases n with
    | zero => rfl
    | succ n => exact ih n (by simpa using h)

@[simp] theorem cosRecurrence_length (w : Nat) (c1 : Int) (n : Nat) (c c' : Int) :
    (cosRecurrence w c1 n c c').length = n := by
  induction n generalizing c c' with
  | zero => rfl
  | succ n ih => simp [cosRecurrence, ih]

theorem cosRecurrence_close (w : Nat) (hw : 3 ≤ w) (c1 : Int) (x : ℝ) (h1 : |(c1 : ℝ) - 2 ^ w * Real.cos x| ≤ 2)
    (n j : Nat) (c c' : Int) (hc : |(c : ℝ) - 2 ^ w * Real.cos (j * x)| ≤ 2 * 4 ^ j)
    (hc' : |(c' : ℝ) - 2 ^ w * Real.cos ((j + 1 : ℕ) * x)| ≤ 2 * 4 ^ (j + 1)) (i : Nat) (hi : i < n) :
    |((nth 0 (cosRecurrence w c1 n c c') i : Int) : ℝ) - 2 ^ w * Real.cos ((j + i : ℕ) * x)| ≤ 2 * 4 ^ (j + i) := by
  have W : (0 : ℝ) < 2 ^ w := by positivity
  have W3 : (8 : ℝ) ≤ 2 ^ w := by
    calc (8 : ℝ) = 2 ^ 3 := by norm_num
      _ ≤ _ := pow_le_pow_right₀ (by norm_num) hw
  induction n generalizing j c c' i with
  | zero => omega
  | succ n ih =>
    cases i with
    | zero => simpa [cosRecurrence, nth] using hc
    | succ i =>
      have next : |((2 * c1 * c' / (2 ^ w : Nat) - c : Int) : ℝ) - 2 ^ w * Real.cos ((j + 1 + 1 : ℕ) * x)| ≤ 2 * 4 ^ (j + 1 + 1) := by
        set C := Real.cos x
        set C' := Real.cos ((j + 1 : ℕ) * x)
        have angle : Real.cos ((j + 1 + 1 : ℕ) * x) = 2 * C * C' - Real.cos (j * x) := by
          have a := Real.cos_add ((j + 1 : ℕ) * x) x
          have b := Real.cos_sub ((j + 1 : ℕ) * x) x
          rw [show (j + 1 : ℕ) * x - x = j * x by push_cast; ring] at b
          rw [show (j + 1 : ℕ) * x + x = (j + 1 + 1 : ℕ) * x by push_cast; ring] at a
          rw [a, b]; ring
        have C1 : |C| ≤ 1 := Real.abs_cos_le_one x
        have C1' : |C'| ≤ 1 := Real.abs_cos_le_one _
        have P : (1 : ℝ) ≤ 4 ^ (j + 1) := one_le_pow₀ (by norm_num)
        have P4 : (4 : ℝ) ≤ 4 ^ (j + 1) := by rw [pow_succ]; nlinarith [one_le_pow₀ (by norm_num : (1 : ℝ) ≤ 4) (n := j)]
        have c1b : |(c1 : ℝ)| ≤ 2 ^ w + 2 := by
          have : |(c1 : ℝ)| ≤ |(c1 : ℝ) - 2 ^ w * C| + |2 ^ w * C| := by simpa using abs_add_le ((c1 : ℝ) - 2 ^ w * C) (2 ^ w * C)
          have m : |2 ^ w * C| ≤ 2 ^ w := by rw [abs_mul, abs_of_pos W]; nlinarith
          linarith
        have prod : |((2 * c1 * c' : Int) : ℝ) - 2 * (2 ^ w * C) * (2 ^ w * C')| ≤ 2 ^ w * (5 * 4 ^ (j + 1) + 4) := by
          have e : ((2 * c1 * c' : Int) : ℝ) - 2 * (2 ^ w * C) * (2 ^ w * C')
              = 2 * (c1 : ℝ) * ((c' : ℝ) - 2 ^ w * C') + 2 * (2 ^ w * C') * ((c1 : ℝ) - 2 ^ w * C) := by push_cast; ring
          rw [e]
          refine (abs_add_le _ _).trans ?_
          have p1 : |2 * (c1 : ℝ) * ((c' : ℝ) - 2 ^ w * C')| ≤ 2 * (2 ^ w + 2) * (2 * 4 ^ (j + 1)) := by
            rw [abs_mul, abs_mul, abs_of_pos (by norm_num : (0 : ℝ) < 2)]; gcongr
          have p2 : |2 * (2 ^ w * C') * ((c1 : ℝ) - 2 ^ w * C)| ≤ 2 * (2 ^ w * 1) * 2 := by
            rw [abs_mul, abs_mul, abs_mul, abs_of_pos (by norm_num : (0 : ℝ) < 2), abs_of_pos W]; gcongr
          nlinarith
        have q := ediv_close _ (2 ^ w) (by positivity) prod
        have e1 : 2 * ((2 : ℝ) ^ w * C) * (2 ^ w * C') / (2 ^ w : ℕ) = 2 ^ w * (2 * C * C') := by push_cast; field_simp
        have e2 : (2 : ℝ) ^ w * (5 * 4 ^ (j + 1) + 4) / (2 ^ w : ℕ) = 5 * 4 ^ (j + 1) + 4 := by push_cast; field_simp
        rw [e1, e2] at q
        rw [angle]
        have hcc : 2 * (4 : ℝ) ^ j = 1 / 2 * 4 ^ (j + 1) := by rw [pow_succ]; ring
        rw [hcc] at hc
        have big : 2 * (4 : ℝ) ^ (j + 1 + 1) = 8 * 4 ^ (j + 1) := by rw [pow_succ 4 (j + 1)]; ring
        rw [big]
        rw [abs_le] at q hc ⊢
        push_cast at q ⊢
        constructor <;> linarith [q.1, q.2, hc.1, hc.2]
      have := ih (j + 1) c' _ hc' next i (by omega)
      simp only [cosRecurrence, forced_eq, nth]
      rw [show j + (i + 1) = j + 1 + i by ring]
      exact this

/-- Entry `j` of `cosTable p q` is `2^p * cos(2*pi*j/q)` to within 2. -/
theorem cosTable_close (p q j : Nat) (hj : j < q) :
    |((nth 0 (cosTable p q) j : Int) : ℝ) - 2 ^ p * Real.cos (2 * Real.pi * j / q)| ≤ 2 := by
  have hq : 0 < q := by omega
  set w := p + (2 * q + 2) with hw
  have x1 := cosFix_close w 1 q hq
  set x := 2 * Real.pi * (1 : ℕ) / q with hx
  have a := cosRecurrence_close w (by omega) (cosFix w 1 q) x (by rw [hx]; exact x1) q 0 ((2 ^ w : ℕ) : Int) (cosFix w 1 q)
    (by simp) (by rw [zero_add, Nat.cast_one, one_mul, hx]; exact x1.trans (by norm_num)) j hj
  have unf : cosTable p q = (cosRecurrence w (cosFix w 1 q) q ((2 ^ w : ℕ) : Int) (cosFix w 1 q)).map
      (· / ((2 ^ (2 * q + 2) : ℕ) : Int)) := by simp [cosTable, hw]
  rw [unf, nth_map _ 0 0 _ _ (by simpa using hj)]
  have b := ediv_close _ (2 ^ (2 * q + 2)) (by positivity) a
  have ang : ((0 + j : ℕ) : ℝ) * x = 2 * Real.pi * j / q := by rw [hx]; push_cast; ring
  rw [ang] at b
  have e1 : (2 : ℝ) ^ w * Real.cos (2 * Real.pi * j / q) / (2 ^ (2 * q + 2) : ℕ) = 2 ^ p * Real.cos (2 * Real.pi * j / q) := by
    rw [hw, pow_add]; push_cast; field_simp
  have e2 : 2 * (4 : ℝ) ^ (0 + j) / (2 ^ (2 * q + 2) : ℕ) ≤ 1 := by
    push_cast
    rw [div_le_one (by positivity), zero_add, show (4 : ℝ) = 2 ^ 2 by norm_num, ← pow_mul, ← pow_succ']
    exact pow_le_pow_right₀ (by norm_num) (by omega)
  rw [e1] at b
  linarith

@[simp] theorem cosTable_length (p q : Nat) : (cosTable p q).length = q := by simp [cosTable]

/-- A table in rows. -/
def rows : Nat → List Int → List (List Int)
  | 0, _ => []
  | n + 1, l => l.take 16 :: rows n (l.drop 16)

theorem withRows_eq {α : Type} (n : Nat) (l : List Int) (k : List (List Int) → α) : withRows n l k = k (rows n l) := by
  induction n generalizing l k with
  | zero => rfl
  | succ n ih => simp [withRows, ih, rows]

theorem nth_rows (n : Nat) (l : List Int) (i : Nat) (h : i < n) : nth [] (rows n l) i = (l.drop (16 * i)).take 16 := by
  induction n generalizing l i with
  | zero => omega
  | succ n ih =>
    cases i with
    | zero => simp [rows, nth]
    | succ i =>
      simp only [rows, nth]
      rw [ih _ i (by omega), List.drop_drop, show 16 + 16 * i = 16 * (i + 1) by ring]

theorem entry_rows (n : Nat) (l : List Int) (j : Nat) (hn : j < 16 * n) (hj : j < l.length) :
    entry (rows n l) j = nth 0 l j := by
  have m := Nat.mod_lt j (by omega : 0 < 16)
  have e := Nat.div_add_mod j 16
  unfold entry
  rw [nth_rows n l _ (by omega), nth_eq_getElem 0 _ _ (by simp; omega), nth_eq_getElem 0 l j hj]
  simp [e]

/-- What `withCosTable` hands over: a table whose entries are the cosines to within 2. -/
theorem withCosTable_eq {α : Type} (p q : Nat) (k : List (List Int) → α) :
    withCosTable p q k = k (rows (q / 16 + 1) (cosTable p q)) := by
  simp [withCosTable, withRows_eq]

theorem entry_close (p q j : Nat) (hj : j < q) :
    |(entry (rows (q / 16 + 1) (cosTable p q)) j : ℝ) - 2 ^ p * Real.cos (2 * Real.pi * j / q)| ≤ 2 := by
  rw [entry_rows _ _ _ (by omega) (by simpa using hj)]
  exact cosTable_close p q j hj

end Sys2Proof.Laws
end

