-- ==== Sys2Proof/Laws/Filterbank.lean ====
section
/-! SUPPORT. The filter bank's integers decide every comparison as the exact responses of R155 do, so
`fbDecode` is `fb_decode` of R159. -/

namespace Sys2Proof.Laws

open Sys2Proof.Machine

/-! ### The angles of a channel -/

/-- `theta = pi * f / (Q * FS)` (R152). -/
noncomputable def theta (cfg : Config) (f : ℕ) : ℝ := Real.pi * f / (5 * cfg.fs)

/-- The cosine of twice the bandwidth-free angle: `cos(2 * pi * f / FS)` (R152). -/
noncomputable def centre (cfg : Config) (f : ℕ) : ℝ := Real.cos (2 * Real.pi * f / cfg.fs)

theorem channel_facts (cfg : Config) (h : 8000 ≤ cfg.fs) (f : ℕ) (hf : f ≤ 4000) :
    0 < Real.cos (theta cfg f) ∧ 0 ≤ Real.sin (theta cfg f) ∧ 1 ≤ Real.cos (theta cfg f) + Real.sin (theta cfg f) := by
  have hfs : (8000 : ℝ) ≤ cfg.fs := by exact_mod_cast h
  have hf' : (f : ℝ) ≤ 4000 := by exact_mod_cast hf
  have t0 : 0 ≤ theta cfg f := by unfold theta; positivity
  have t1 : theta cfg f ≤ Real.pi / 10 := by
    unfold theta
    rw [div_le_div_iff₀ (by linarith) (by norm_num)]
    nlinarith [Real.pi_pos]
  have pp := Real.pi_pos
  have c : 0 < Real.cos (theta cfg f) := Real.cos_pos_of_mem_Ioo ⟨by linarith, by linarith⟩
  have s : 0 ≤ Real.sin (theta cfg f) := Real.sin_nonneg_of_nonneg_of_le_pi t0 (by linarith)
  refine ⟨c, s, ?_⟩
  have := Real.sin_sq_add_cos_sq (theta cfg f)
  nlinarith

theorem b0_eq (cfg : Config) (h : 8000 ≤ cfg.fs) (f : ℕ) (hf : f ≤ 4000) :
    Reference.b0 cfg f = Real.sin (theta cfg f) / (Real.cos (theta cfg f) + Real.sin (theta cfg f)) := by
  obtain ⟨c, s, cs⟩ := channel_facts cfg h f hf
  rw [Reference.b0, Reference.beta, ← theta, Real.tan_eq_sin_div_cos]
  field_simp

theorem a1_eq (cfg : Config) (h : 8000 ≤ cfg.fs) (f : ℕ) (hf : f ≤ 4000) :
    Reference.a1 cfg f
      = -(2 * centre cfg f * Real.cos (theta cfg f)) / (Real.cos (theta cfg f) + Real.sin (theta cfg f)) := by
  obtain ⟨c, s, cs⟩ := channel_facts cfg h f hf
  rw [Reference.a1, Reference.beta, ← theta, Real.tan_eq_sin_div_cos, ← centre]
  field_simp

theorem a2_eq (cfg : Config) (h : 8000 ≤ cfg.fs) (f : ℕ) (hf : f ≤ 4000) :
    Reference.a2 cfg f = (Real.cos (theta cfg f) - Real.sin (theta cfg f))
      / (Real.cos (theta cfg f) + Real.sin (theta cfg f)) := by
  obtain ⟨c, s, cs⟩ := channel_facts cfg h f hf
  rw [Reference.a2, Reference.beta, ← theta, Real.tan_eq_sin_div_cos]
  field_simp

theorem angle_cos (cfg : Config) (h : 8000 ≤ cfg.fs) (f : ℕ) :
    Real.cos (2 * Real.pi * ((2 * f : ℕ) : ℝ) / ((4 * qualityFactor * cfg.fs : ℕ) : ℝ)) = Real.cos (theta cfg f) := by
  have : (cfg.fs : ℝ) ≠ 0 := by exact_mod_cast (by omega : cfg.fs ≠ 0)
  rw [theta, qualityFactor]; congr 1; push_cast; field_simp; ring

theorem angle_sin (cfg : Config) (h : 8000 ≤ cfg.fs) (f : ℕ) :
    Real.cos (2 * Real.pi * ((2 * f + 3 * (qualityFactor * cfg.fs) : ℕ) : ℝ) / ((4 * qualityFactor * cfg.fs : ℕ) : ℝ))
      = Real.sin (theta cfg f) := by
  have : (cfg.fs : ℝ) ≠ 0 := by exact_mod_cast (by omega : cfg.fs ≠ 0)
  have e : 2 * Real.pi * ((2 * f + 3 * (qualityFactor * cfg.fs) : ℕ) : ℝ) / ((4 * qualityFactor * cfg.fs : ℕ) : ℝ)
      = theta cfg f - Real.pi / 2 + 2 * Real.pi := by
    rw [theta, qualityFactor]; push_cast; field_simp; ring
  rw [e, Real.cos_add_two_pi, Real.cos_sub_pi_div_two]

/-! ### The coefficients -/

/-- Integer division is within 1 of the real quotient. -/
theorem int_ediv_close (a b : ℤ) (hb : b ≠ 0) {x e : ℝ} (h : |(a : ℝ) / b - x| ≤ e) : |((a / b : ℤ) : ℝ) - x| ≤ e + 1 := by
  have h1 := Int.emod_add_mul_ediv a b
  have h2 := Int.emod_nonneg a hb
  have h3 := Int.emod_lt_abs a hb
  have hb' : (b : ℝ) ≠ 0 := by exact_mod_cast hb
  have e1 : (a : ℝ) = ((a % b : ℤ) : ℝ) + b * ((a / b : ℤ) : ℝ) := by exact_mod_cast h1.symm
  have q : ((a / b : ℤ) : ℝ) - a / b = -(((a % b : ℤ) : ℝ) / b) := by
    rw [sub_eq_iff_eq_add, ← sub_eq_neg_add, eq_sub_iff_add_eq, eq_div_iff hb', add_mul, div_mul_cancel₀ _ hb']
    linarith
  have m : |((a / b : ℤ) : ℝ) - a / b| ≤ 1 := by
    rw [q, abs_neg, abs_div, div_le_one (abs_pos.mpr hb')]
    have : |((a % b : ℤ) : ℝ)| = ((a % b : ℤ) : ℝ) := abs_of_nonneg (by exact_mod_cast h2)
    rw [this]
    exact_mod_cast h3.le
  have := abs_sub_le ((a / b : ℤ) : ℝ) ((a : ℝ) / b) x
  linarith

theorem quotient_close (W d x : ℝ) (X D : ℤ) (hW : 1024 ≤ W) (hd : 1 ≤ d) (hD : |(D : ℝ) - W * d| ≤ 4)
    (hX : |(X : ℝ) - W * (W * x)| ≤ 9 * W) (hx : |x| ≤ 2) : |((X / D : ℤ) : ℝ) - W * (x / d)| ≤ 20 := by
  obtain ⟨d1, d2⟩ := abs_le.mp hD
  have D1 : W - 4 ≤ (D : ℝ) := by nlinarith
  have Dp : (0 : ℝ) < D := by linarith
  have Dn : D ≠ 0 := by rintro rfl; simp at Dp
  have key : |(X : ℝ) / D - W * (x / d)| ≤ 19 := by
    have e : (X : ℝ) / D - W * (x / d) = (((X : ℝ) - W * (W * x)) * d - ((D : ℝ) - W * d) * (W * x)) / (D * d) := by
      field_simp; ring
    rw [e, abs_div, abs_of_pos (by positivity : (0 : ℝ) < D * d), div_le_iff₀ (by positivity)]
    have n1 : |((X : ℝ) - W * (W * x)) * d| ≤ 9 * W * d := by
      rw [abs_mul, abs_of_pos (by linarith : 0 < d)]; gcongr
    have n2 : |((D : ℝ) - W * d) * (W * x)| ≤ 4 * (W * 2) := by
      rw [abs_mul, abs_mul, abs_of_pos (by linarith : 0 < W)]
      have : W * |x| ≤ W * 2 := by gcongr
      exact mul_le_mul hD this (by positivity) (by norm_num)
    have := abs_sub (((X : ℝ) - W * (W * x)) * d) (((D : ℝ) - W * d) * (W * x))
    nlinarith
  linarith [int_ediv_close X D Dn key]

theorem coefAt_close (cfg : Config) (h : 8000 ≤ cfg.fs) (f : ℕ) (hf : f ≤ 4000) (w : ℕ) (hw : 10 ≤ w) :
    |((coefAt cfg w f).b0 : ℝ) - 2 ^ w * Reference.b0 cfg f| ≤ 20 ∧
    |((coefAt cfg w f).a1 : ℝ) - 2 ^ w * Reference.a1 cfg f| ≤ 20 ∧
    |((coefAt cfg w f).a2 : ℝ) - 2 ^ w * Reference.a2 cfg f| ≤ 20 := by
  obtain ⟨c0, s0, cs⟩ := channel_facts cfg h f hf
  have turn : 0 < 4 * qualityFactor * cfg.fs := by unfold qualityFactor; omega
  have C := cosFix_close w (2 * f) _ turn
  have S := cosFix_close w (2 * f + 3 * (qualityFactor * cfg.fs)) _ turn
  have P := cosFix_close w f cfg.fs (by omega)
  rw [angle_cos cfg h] at C
  rw [angle_sin cfg h] at S
  rw [← centre] at P
  rw [b0_eq cfg h f hf, a1_eq cfg h f hf, a2_eq cfg h f hf]
  have c1 : Real.cos (theta cfg f) ≤ 1 := Real.cos_le_one _
  have s1 : Real.sin (theta cfg f) ≤ 1 := Real.sin_le_one _
  have p1 : |centre cfg f| ≤ 1 := Real.abs_cos_le_one _
  set cI := cosFix w (2 * f) (4 * qualityFactor * cfg.fs)
  set sI := cosFix w (2 * f + 3 * (qualityFactor * cfg.fs)) (4 * qualityFactor * cfg.fs)
  set pI := cosFix w f cfg.fs
  set c := Real.cos (theta cfg f)
  set s := Real.sin (theta cfg f)
  set p := centre cfg f
  have W : (1024 : ℝ) ≤ 2 ^ w := by
    calc (1024 : ℝ) = 2 ^ 10 := by norm_num
      _ ≤ _ := pow_le_pow_right₀ (by norm_num) hw
  have unf : coefAt cfg w f = ⟨sI * ((2 ^ w : ℕ) : ℤ) / (cI + sI), -(2 * pI * cI) / (cI + sI),
      (cI - sI) * ((2 ^ w : ℕ) : ℤ) / (cI + sI)⟩ := by
    unfold coefAt; simp only [forced_eq]; rfl
  rw [unf]
  obtain ⟨C1, C2⟩ := abs_le.mp C
  obtain ⟨S1, S2⟩ := abs_le.mp S
  have D : |((cI + sI : ℤ) : ℝ) - 2 ^ w * (c + s)| ≤ 4 := by
    push_cast; rw [abs_le]; constructor <;> linarith
  generalize hWe : (2 : ℝ) ^ w = W' at *
  have Wi : (((2 ^ w : ℕ) : ℤ) : ℝ) = W' := by rw [← hWe]; push_cast; rfl
  refine ⟨quotient_close W' _ _ _ _ W cs D ?_ ?_, quotient_close W' _ _ _ _ W cs D ?_ ?_,
    quotient_close W' _ _ _ _ W cs D ?_ ?_⟩
  · rw [Int.cast_mul, Wi]; rw [abs_le]; constructor <;> nlinarith
  · rw [abs_le]; constructor <;> linarith
  · have e : ((-(2 * pI * cI) : ℤ) : ℝ) - W' * (W' * -(2 * p * c))
        = -(2 * (((pI : ℝ) - W' * p) * cI + W' * p * ((cI : ℝ) - W' * c))) := by push_cast; ring
    rw [e, abs_neg, abs_mul, abs_of_pos (by norm_num : (0 : ℝ) < 2)]
    have cb : |(cI : ℝ)| ≤ W' + 2 := by rw [abs_le]; constructor <;> nlinarith
    have t1 : |((pI : ℝ) - W' * p) * cI| ≤ 2 * (W' + 2) := by
      rw [abs_mul]; exact mul_le_mul P cb (abs_nonneg _) (by norm_num)
    have t2 : |W' * p * ((cI : ℝ) - W' * c)| ≤ W' * 1 * 2 := by
      rw [abs_mul, abs_mul, abs_of_pos (by linarith : 0 < W')]
      exact mul_le_mul (mul_le_mul_of_nonneg_left p1 (by linarith)) C (abs_nonneg _) (by linarith)
    have := abs_add_le (((pI : ℝ) - W' * p) * cI) (W' * p * ((cI : ℝ) - W' * c))
    nlinarith
  · rw [abs_neg, abs_mul, abs_mul, abs_of_pos (by norm_num : (0 : ℝ) < 2), abs_of_pos c0]
    nlinarith [abs_nonneg p]
  · rw [Int.cast_mul, Wi]; push_cast; rw [abs_le]; constructor <;> nlinarith
  · rw [abs_le]; constructor <;> linarith

theorem coef_bounds (cfg : Config) (h : 8000 ≤ cfg.fs) (f : ℕ) (hf : f ≤ 4000) :
    |Reference.b0 cfg f| ≤ 1 ∧ |Reference.a1 cfg f| ≤ 2 ∧ |Reference.a2 cfg f| ≤ 1 := by
  obtain ⟨c0, s0, cs⟩ := channel_facts cfg h f hf
  have c1 : Real.cos (theta cfg f) ≤ 1 := Real.cos_le_one _
  have p1 : |centre cfg f| ≤ 1 := Real.abs_cos_le_one _
  rw [b0_eq cfg h f hf, a1_eq cfg h f hf, a2_eq cfg h f hf]
  have d0 : 0 < Real.cos (theta cfg f) + Real.sin (theta cfg f) := by linarith
  refine ⟨?_, ?_, ?_⟩
  · rw [abs_div, abs_of_pos d0, div_le_one d0, abs_of_nonneg s0]; linarith
  · rw [abs_div, abs_of_pos d0, div_le_iff₀ d0, abs_neg, abs_mul, abs_mul, abs_of_pos (by norm_num : (0 : ℝ) < 2),
      abs_of_pos c0]
    nlinarith [abs_nonneg (centre cfg f)]
  · rw [abs_div, abs_of_pos d0, div_le_one d0, abs_le]; constructor <;> linarith

/-! ### One pass -/

theorem product_close (W a x α ξ M T : ℝ) (hW : 0 < W) (hα : |a - W * α| ≤ 20) (hx : |x - W * ξ| ≤ T) (hξ : |ξ| ≤ M)
    (A : ℝ) (hA : |α| ≤ A) (hT : 20 * T ≤ W) : |a * x - W * (W * (α * ξ))| ≤ W * (20 * M + 1 + A * T) := by
  have e : a * x - W * (W * (α * ξ)) = (a - W * α) * x + W * α * (x - W * ξ) := by ring
  have M0 : 0 ≤ M := (abs_nonneg _).trans hξ
  have A0 : 0 ≤ A := (abs_nonneg _).trans hA
  have xb : |x| ≤ W * M + T := by
    have := abs_add_le (x - W * ξ) (W * ξ)
    rw [sub_add_cancel, abs_mul W ξ, abs_of_pos hW] at this
    nlinarith
  have t1 : |(a - W * α) * x| ≤ 20 * (W * M + T) := by
    rw [abs_mul]; exact mul_le_mul hα xb (abs_nonneg _) (by norm_num)
  have t2 : |W * α * (x - W * ξ)| ≤ W * A * T := by
    rw [abs_mul, abs_mul, abs_of_pos hW]
    exact mul_le_mul (by gcongr) hx (abs_nonneg _) (by positivity)
  rw [e]
  have := abs_add_le ((a - W * α) * x) (W * α * (x - W * ξ))
  nlinarith

theorem passStep_close (w : ℕ) (k : Coef) (b0 a1 a2 M e P : ℝ) (hb : |(k.b0 : ℝ) - 2 ^ w * b0| ≤ 20)
    (h1 : |(k.a1 : ℝ) - 2 ^ w * a1| ≤ 20) (h2 : |(k.a2 : ℝ) - 2 ^ w * a2| ≤ 20) (bb : |b0| ≤ 1) (bb1 : |a1| ≤ 2) (bb2 : |a2| ≤ 1)
    (M0 : 0 ≤ M) (e0 : 0 ≤ e) (P1 : 1 ≤ P) (hW : 1024 * ((M + e + 1) * P) ≤ 2 ^ w)
    (X X2 Y1 Y2 : ℤ) (x x2 y1 y2 : ℝ) (hX : |(X : ℝ) - 2 ^ w * x| ≤ e) (hX2 : |(X2 : ℝ) - 2 ^ w * x2| ≤ e)
    (hY1 : |(Y1 : ℝ) - 2 ^ w * y1| ≤ 32 * ((M + e + 1) * P)) (hY2 : |(Y2 : ℝ) - 2 ^ w * y2| ≤ 32 * ((M + e + 1) * P))
    (hx : |x| ≤ M) (hx2 : |x2| ≤ M) (hy1 : |y1| ≤ M * P) (hy2 : |y2| ≤ M * P) :
    |(((k.b0 * (X - X2) - k.a1 * Y1 - k.a2 * Y2) / ((2 ^ w : ℕ) : ℤ) : ℤ) : ℝ)
        - 2 ^ w * (b0 * x - b0 * x2 - a1 * y1 - a2 * y2)| ≤ 32 * ((M + e + 1) * (P * 8)) ∧
    |b0 * x - b0 * x2 - a1 * y1 - a2 * y2| ≤ M * (P * 8) := by
  have W : (0 : ℝ) < 2 ^ w := by positivity
  have MP : M ≤ M * P := le_mul_of_one_le_right M0 P1
  have eP : e ≤ e * P := le_mul_of_one_le_right e0 P1
  constructor
  · have t1 := product_close (2 ^ w) k.b0 ((X - X2 : ℤ) : ℝ) b0 (x - x2) (2 * M) (2 * e) W hb
      (by push_cast
          have : (X : ℝ) - X2 - 2 ^ w * (x - x2) = ((X : ℝ) - 2 ^ w * x) - ((X2 : ℝ) - 2 ^ w * x2) := by ring
          rw [this]; linarith [abs_sub ((X : ℝ) - 2 ^ w * x) ((X2 : ℝ) - 2 ^ w * x2)])
      (by linarith [abs_sub x x2]) 1 bb (by nlinarith)
    have t2 := product_close (2 ^ w) k.a1 Y1 a1 y1 (M * P) _ W h1 hY1 hy1 2 bb1 (by nlinarith)
    have t3 := product_close (2 ^ w) k.a2 Y2 a2 y2 (M * P) _ W h2 hY2 hy2 1 bb2 (by nlinarith)
    have num : |((k.b0 * (X - X2) - k.a1 * Y1 - k.a2 * Y2 : ℤ) : ℝ) - 2 ^ w * (2 ^ w * (b0 * x - b0 * x2 - a1 * y1 - a2 * y2))|
        ≤ 2 ^ w * (32 * ((M + e + 1) * (P * 8)) - 1) := by
      have ee : ((k.b0 * (X - X2) - k.a1 * Y1 - k.a2 * Y2 : ℤ) : ℝ) - 2 ^ w * (2 ^ w * (b0 * x - b0 * x2 - a1 * y1 - a2 * y2))
          = ((k.b0 : ℝ) * ((X - X2 : ℤ) : ℝ) - 2 ^ w * (2 ^ w * (b0 * (x - x2))))
            - ((k.a1 : ℝ) * Y1 - 2 ^ w * (2 ^ w * (a1 * y1))) - ((k.a2 : ℝ) * Y2 - 2 ^ w * (2 ^ w * (a2 * y2))) := by
        push_cast; ring
      rw [ee]
      generalize (k.b0 : ℝ) * ((X - X2 : ℤ) : ℝ) - 2 ^ w * (2 ^ w * (b0 * (x - x2))) = A at *
      generalize (k.a1 : ℝ) * Y1 - 2 ^ w * (2 ^ w * (a1 * y1)) = B at *
      generalize (k.a2 : ℝ) * Y2 - 2 ^ w * (2 ^ w * (a2 * y2)) = C at *
      have s1 := abs_sub A B
      have s2 := abs_sub (A - B) C
      have tot : |A - B - C| ≤ 2 ^ w * ((20 * (2 * M) + 1 + 1 * (2 * e)) + (20 * (M * P) + 1 + 2 * (32 * ((M + e + 1) * P)))
          + (20 * (M * P) + 1 + 1 * (32 * ((M + e + 1) * P)))) := by linarith
      refine tot.trans (mul_le_mul_of_nonneg_left ?_ W.le)
      nlinarith
    have q := ediv_close _ (2 ^ w) (by positivity) num
    have e1 : (2 : ℝ) ^ w * (2 ^ w * (b0 * x - b0 * x2 - a1 * y1 - a2 * y2)) / (2 ^ w : ℕ)
        = 2 ^ w * (b0 * x - b0 * x2 - a1 * y1 - a2 * y2) := by push_cast; field_simp
    have e2 : (2 : ℝ) ^ w * (32 * ((M + e + 1) * (P * 8)) - 1) / (2 ^ w : ℕ) = 32 * ((M + e + 1) * (P * 8)) - 1 := by
      push_cast; field_simp
    rw [e1, e2] at q
    linarith
  · have m : ∀ u v A B : ℝ, |u| ≤ A → |v| ≤ B → |u * v| ≤ A * B := fun u v A B hu hv => by
      rw [abs_mul]; exact mul_le_mul hu hv (abs_nonneg _) ((abs_nonneg _).trans hu)
    have m1 := m _ _ _ _ bb hx
    have m2 := m _ _ _ _ bb hx2
    have m3 := m _ _ _ _ bb1 hy1
    have m4 := m _ _ _ _ bb2 hy2
    rw [abs_le] at *
    constructor <;> linarith [m1.1, m1.2, m2.1, m2.2, m3.1, m3.2, m4.1, m4.2]

/-- An integer and the real it stands for: the error is at most `e`, the real at most `M`. -/
def Stands (w : ℕ) (e M : ℝ) (X : ℤ) (x : ℝ) : Prop := |(X : ℝ) - 2 ^ w * x| ≤ e ∧ |x| ≤ M

theorem Stands.mono {w : ℕ} {e M e' M' : ℝ} {X : ℤ} {x : ℝ} (h : Stands w e M X x) (he : e ≤ e') (hM : M ≤ M') :
    Stands w e' M' X x := ⟨h.1.trans he, h.2.trans hM⟩

theorem filterPass_close (w : ℕ) (k : Coef) (b0 a1 a2 M e : ℝ) (hb : |(k.b0 : ℝ) - 2 ^ w * b0| ≤ 20)
    (h1 : |(k.a1 : ℝ) - 2 ^ w * a1| ≤ 20) (h2 : |(k.a2 : ℝ) - 2 ^ w * a2| ≤ 20) (bb : |b0| ≤ 1) (bb1 : |a1| ≤ 2) (bb2 : |a2| ≤ 1)
    (M0 : 0 ≤ M) (e0 : 0 ≤ e) (N : ℕ) (hW : 1024 * ((M + e + 1) * 8 ^ N) ≤ 2 ^ w)
    (Xs : List ℤ) (xs : List ℝ) (hx : List.Forall₂ (Stands w e M) Xs xs) (n : ℕ) (hn : n + Xs.length ≤ N)
    (X1 X2 Y1 Y2 : ℤ) (x1 x2 y1 y2 : ℝ) (s1 : Stands w e M X1 x1) (s2 : Stands w e M X2 x2)
    (t1 : Stands w (32 * ((M + e + 1) * 8 ^ n)) (M * 8 ^ n) Y1 y1)
    (t2 : Stands w (32 * ((M + e + 1) * 8 ^ n)) (M * 8 ^ n) Y2 y2) :
    List.Forall₂ (Stands w (32 * ((M + e + 1) * 8 ^ N)) (M * 8 ^ N)) (filterPass w k Xs X1 X2 Y1 Y2)
      (Reference.filterPass b0 a1 a2 xs x1 x2 y1 y2) := by
  induction hx generalizing n X1 X2 Y1 Y2 x1 x2 y1 y2 with
  | nil => exact List.Forall₂.nil
  | @cons X x Xs xs h hs ih =>
    have len : n + (Xs.length + 1) ≤ N := by simpa using hn
    have up : ∀ i ≤ N, (8 : ℝ) ^ i ≤ 8 ^ N := fun i hi => pow_le_pow_right₀ (by norm_num) hi
    have U0 : 0 ≤ M + e + 1 := by linarith
    have step := passStep_close w k b0 a1 a2 M e (8 ^ n) hb h1 h2 bb bb1 bb2 M0 e0 (one_le_pow₀ (by norm_num))
      ((mul_le_mul_of_nonneg_left (mul_le_mul_of_nonneg_left (up n (by omega)) U0) (by norm_num)).trans hW)
      X X2 Y1 Y2 x x2 y1 y2 h.1 s2.1 t1.1 t2.1 h.2 s2.2 t1.2 t2.2
    rw [← pow_succ] at step
    have y : Stands w (32 * ((M + e + 1) * 8 ^ (n + 1))) (M * 8 ^ (n + 1)) _ _ := step
    have grow : (8 : ℝ) ^ n ≤ 8 ^ (n + 1) := pow_le_pow_right₀ (by norm_num) (by omega)
    simp only [filterPass, forced_eq, Reference.filterPass]
    refine List.Forall₂.cons ?_ (ih (n + 1) (by omega) X X1 _ Y1 x x1 _ y1 h s1 y ?_)
    · exact y.mono (by gcongr; norm_num; omega) (by gcongr; norm_num; omega)
    · exact t1.mono (by gcongr) (by gcongr)

theorem filterPass_length (w : ℕ) (k : Coef) (x : List ℤ) (x1 x2 y1 y2 : ℤ) : (filterPass w k x x1 x2 y1 y2).length = x.length := by
  induction x generalizing x1 x2 y1 y2 with
  | nil => rfl
  | cons a x ih => simp [filterPass, ih]

theorem filt_close (cfg : Config) (h : 8000 ≤ cfg.fs) (f : ℕ) (hf : f ≤ 4000) (w : ℕ) (hw : 10 ≤ w) (M e : ℝ) (M0 : 0 ≤ M)
    (e0 : 0 ≤ e) (hW : 1024 * ((M + e + 1) * 8 ^ 320) ≤ 2 ^ w) (X : List ℤ) (x : List ℝ)
    (hx : List.Forall₂ (Stands w e M) X x) (hl : X.length = 320) :
    List.Forall₂ (Stands w (32 * ((M + e + 1) * 8 ^ 320)) (M * 8 ^ 320)) (filt w (coefAt cfg w f) X) (Reference.filt cfg f x) := by
  obtain ⟨cb, c1, c2⟩ := coefAt_close cfg h f hf w hw
  obtain ⟨bb, bb1, bb2⟩ := coef_bounds cfg h f hf
  have zero : ∀ e' M' : ℝ, 0 ≤ e' → 0 ≤ M' → Stands w e' M' 0 0 := fun e' M' he hM => ⟨by simpa using he, by simpa using hM⟩
  exact filterPass_close w _ _ _ _ M e cb c1 c2 bb bb1 bb2 M0 e0 320 hW X x hx 0 (by omega) 0 0 0 0 0 0 0 0
    (zero _ _ e0 M0) (zero _ _ e0 M0) (zero _ _ (by positivity) (by positivity)) (zero _ _ (by positivity) (by positivity))

/-! ### The responses -/

theorem forall2_reverse {α β : Type} {R : α → β → Prop} {l : List α} {l' : List β} (h : List.Forall₂ R l l') :
    List.Forall₂ R l.reverse l'.reverse := List.rel_reverse h

theorem pow8 : (8 : ℝ) ^ 320 = 2 ^ 960 := by rw [show (8 : ℝ) = 2 ^ 3 by norm_num, ← pow_mul]

theorem zeroPhase_close (cfg : Config) (h : 8000 ≤ cfg.fs) (f : ℕ) (hf : f ≤ 4000) (w : ℕ) (hw : 2200 ≤ w) (X : List ℤ) (x : List ℝ)
    (hx : List.Forall₂ (Stands w 1 (2 ^ 15)) X x) (hl : X.length = 320) :
    List.Forall₂ (fun Y y => |((Y : ℤ) : ℝ) - 2 ^ w * y| ≤ 2 ^ 1999) (zeroPhase w (coefAt cfg w f) X) (Reference.zeroPhase cfg f x) := by
  have up : ∀ a b : ℕ, a ≤ b → (2 : ℝ) ^ a ≤ 2 ^ b := fun a b hab => pow_le_pow_right₀ (by norm_num) hab
  have W := up 2200 w hw
  have b1 : ((2 : ℝ) ^ 15 + 1 + 1) * 8 ^ 320 ≤ 2 ^ 976 := by
    rw [pow8]
    calc ((2 : ℝ) ^ 15 + 1 + 1) * 2 ^ 960 ≤ 2 ^ 16 * 2 ^ 960 := by gcongr; norm_num
      _ = 2 ^ 976 := by rw [← pow_add]
  have W1 : 1024 * (((2 : ℝ) ^ 15 + 1 + 1) * 8 ^ 320) ≤ 2 ^ w := by
    calc 1024 * (((2 : ℝ) ^ 15 + 1 + 1) * 8 ^ 320) ≤ 1024 * 2 ^ 976 := mul_le_mul_of_nonneg_left b1 (by norm_num)
      _ = 2 ^ 986 := by rw [show (1024 : ℝ) = 2 ^ 10 by norm_num, ← pow_add]
      _ ≤ 2 ^ w := (up 986 2200 (by norm_num)).trans W
  have first := filt_close cfg h f hf w (by omega) (2 ^ 15) 1 (by positivity) (by norm_num) W1 X x hx hl
  have first' : List.Forall₂ (Stands w (2 ^ 981) (2 ^ 975)) (filt w (coefAt cfg w f) X).reverse (Reference.filt cfg f x).reverse := by
    refine forall2_reverse (first.imp fun Y y hY => hY.mono ?_ ?_)
    · calc 32 * (((2 : ℝ) ^ 15 + 1 + 1) * 8 ^ 320) ≤ 32 * 2 ^ 976 := mul_le_mul_of_nonneg_left b1 (by norm_num)
        _ = 2 ^ 981 := by rw [show (32 : ℝ) = 2 ^ 5 by norm_num, ← pow_add]
    · rw [pow8, ← pow_add]
  have b2 : ((2 : ℝ) ^ 975 + 2 ^ 981 + 1) * 8 ^ 320 ≤ 2 ^ 1942 := by
    rw [pow8]
    have p1 : (1 : ℝ) ≤ 2 ^ 975 := one_le_pow₀ (by norm_num)
    have e1 : (2 : ℝ) ^ 981 = 2 ^ 975 * 2 ^ 6 := by rw [← pow_add]
    have e2 : (2 : ℝ) ^ 982 = 2 ^ 975 * 2 ^ 7 := by rw [← pow_add]
    have le : (2 : ℝ) ^ 975 + 2 ^ 981 + 1 ≤ 2 ^ 982 := by
      rw [e1, e2]
      generalize (2 : ℝ) ^ 975 = t at p1
      norm_num
      linarith
    calc ((2 : ℝ) ^ 975 + 2 ^ 981 + 1) * 2 ^ 960 ≤ 2 ^ 982 * 2 ^ 960 := by gcongr
      _ = 2 ^ 1942 := by rw [← pow_add]
  have W2 : 1024 * (((2 : ℝ) ^ 975 + 2 ^ 981 + 1) * 8 ^ 320) ≤ 2 ^ w := by
    calc 1024 * (((2 : ℝ) ^ 975 + 2 ^ 981 + 1) * 8 ^ 320) ≤ 1024 * 2 ^ 1942 := by gcongr
      _ = 2 ^ 1952 := by rw [show (1024 : ℝ) = 2 ^ 10 by norm_num, ← pow_add]
      _ ≤ 2 ^ w := (up 1952 2200 (by norm_num)).trans W
  have second := filt_close cfg h f hf w (by omega) (2 ^ 975) (2 ^ 981) (by positivity) (by positivity) W2 _ _ first'
    (by rw [List.length_reverse, filt, filterPass_length, hl])
  refine forall2_reverse (second.imp fun Y y hY => hY.1.trans ?_)
  calc 32 * (((2 : ℝ) ^ 975 + 2 ^ 981 + 1) * 8 ^ 320) ≤ 32 * 2 ^ 1942 := by gcongr
    _ = 2 ^ 1947 := by rw [show (32 : ℝ) = 2 ^ 5 by norm_num, ← pow_add]
    _ ≤ 2 ^ 1999 := up _ _ (by norm_num)

theorem peak_close (w : ℕ) (e : ℝ) (Y : List ℤ) (y : List ℝ) (h : List.Forall₂ (fun Y y => |((Y : ℤ) : ℝ) - 2 ^ w * y| ≤ e) Y y)
    (e0 : 0 ≤ e) : |((peak Y : ℤ) : ℝ) - 2 ^ w * Reference.peak y| ≤ e := by
  have W : (0 : ℝ) < 2 ^ w := by positivity
  have gen : ∀ (A : ℤ) (a : ℝ), |(A : ℝ) - 2 ^ w * a| ≤ e →
      |(((Y.map fun v => (v.natAbs : ℤ)).foldl max A : ℤ) : ℝ) - 2 ^ w * (y.map fun v => |v|).foldl max a| ≤ e := by
    induction h with
    | nil => intro A a hA; simpa using hA
    | @cons U u Us us hu _ ih =>
      intro A a hA
      simp only [List.map_cons, List.foldl_cons]
      apply ih
      rw [mul_max_of_nonneg _ _ W.le, Int.cast_max, Int.cast_natCast, Nat.cast_natAbs, Int.cast_abs]
      refine (abs_max_sub_max_le_max _ _ _ _).trans (max_le hA ?_)
      have : 2 ^ w * |u| = |2 ^ w * u| := by rw [abs_mul, abs_of_pos W]
      rw [this]
      exact (abs_abs_sub_abs_le_abs_sub _ _).trans hu
  exact gen 0 0 (by simpa using e0)

theorem natAbs_real {a : ℤ} {m : ℕ} (h : a.natAbs ≤ m) : |(a : ℝ)| ≤ m := by
  rw [← Int.cast_abs, ← Nat.cast_natAbs]; exact_mod_cast h

theorem natAbs_sample {a : ℤ} (h : a.natAbs ≤ 32768) : |(a : ℝ)| ≤ 2 ^ 15 := (natAbs_real h).trans (by norm_num)

theorem normalizeBlock_close (w : ℕ) (m : ℤ) (hm : m ≠ 0) (b : List ℤ) (hb : ∀ a ∈ b, a.natAbs ≤ 32768) :
    List.Forall₂ (Stands w 1 (2 ^ 15)) (normalizeBlock w m b) (b.map fun (x : ℤ) => (x : ℝ) / (m : ℝ)) := by
  unfold normalizeBlock
  rw [List.forall₂_map_left_iff, List.forall₂_map_right_iff, List.forall₂_same]
  intro a ha
  have m1 : (1 : ℝ) ≤ |(m : ℝ)| := by exact_mod_cast Int.one_le_abs hm
  constructor
  · have := int_ediv_close (a * ((2 ^ w : ℕ) : ℤ)) m hm (x := 2 ^ w * ((a : ℝ) / m)) (e := 0) (by
      push_cast
      rw [show (a : ℝ) * 2 ^ w / m - 2 ^ w * (a / m) = 0 by ring, abs_zero])
    simpa using this
  · have ab : |(a : ℝ)| ≤ 2 ^ 15 := natAbs_sample (hb a ha)
    rw [abs_div, div_le_iff₀ (by linarith)]
    nlinarith

theorem blockMax_eq (b : List ℤ) : blockMax b = Reference.blockMax b := rfl

/-- The machine's response of a channel is the real one at scale `2^w`, to within half of the tolerance. -/
theorem response_close (cfg : Config) (h : 8000 ≤ cfg.fs) (f : ℕ) (hf : f ≤ 4000) (w : ℕ) (hw : 2200 ≤ w) (b : List ℤ)
    (hb : b.length = 320) (hm : ∀ a ∈ b, a.natAbs ≤ 32768) (m0 : blockMax b ≠ 0) :
    |((peak (zeroPhase w (coefAt cfg w f) (normalizeBlock w (blockMax b) b)) : ℤ) : ℝ) - 2 ^ w * Reference.resp cfg b f|
      ≤ ((filterTolerance : ℤ) : ℝ) / 2 := by
  have t : ((filterTolerance : ℤ) : ℝ) / 2 = 2 ^ 1999 := by
    rw [filterTolerance, Int.cast_natCast, Nat.cast_pow, Nat.cast_ofNat, show 2000 = 1999 + 1 by norm_num, pow_succ,
      mul_div_cancel_right₀ _ (by norm_num)]
  rw [t]
  exact peak_close w _ _ _ (zeroPhase_close cfg h f hf w hw _ _ (normalizeBlock_close w _ m0 b hm) (by simp [normalizeBlock, hb]))
    (by positivity)

/-! ### Separation -/

/-- A real number that is tame. -/
def TameR (q : ℕ) (B x : ℝ) : Prop := Tame q B (x : ℂ)

theorem TameR.mono {q : ℕ} {B B' x : ℝ} (h : TameR q B x) (hB : B ≤ B') : TameR q B' x := Tame.mono h hB
theorem TameR.add {q : ℕ} {B B' x x' : ℝ} (h : TameR q B x) (h' : TameR q B' x') : TameR q (B + B') (x + x') := by
  unfold TameR; rw [Complex.ofReal_add]; exact Tame.add h h'
theorem TameR.sub {q : ℕ} {B B' x x' : ℝ} (h : TameR q B x) (h' : TameR q B' x') : TameR q (B + B') (x - x') := by
  unfold TameR; rw [Complex.ofReal_sub]; exact Tame.sub h h'
theorem TameR.neg {q : ℕ} {B x : ℝ} (h : TameR q B x) : TameR q B (-x) := by
  unfold TameR; rw [Complex.ofReal_neg]; exact Tame.neg h
theorem TameR.mul {q : ℕ} {B B' x x' : ℝ} (h : TameR q B x) (h' : TameR q B' x') : TameR q (B * B') (x * x') := by
  unfold TameR; rw [Complex.ofReal_mul]; exact Tame.mul h h'
theorem TameR.pow {q : ℕ} {B x : ℝ} (h : TameR q B x) (n : ℕ) : TameR q (B ^ n) (x ^ n) := by
  unfold TameR; rw [Complex.ofReal_pow]; exact Tame.pow h n
theorem TameR.nonneg {q : ℕ} {B x : ℝ} (h : TameR q B x) : 0 ≤ B := Tame.nonneg h
theorem tameR_int (q : ℕ) (n : ℤ) : TameR q |(n : ℝ)| n := by unfold TameR; rw [Complex.ofReal_intCast]; exact tame_int q n
theorem tameR_zero (q : ℕ) : TameR q 0 0 := by simpa using tameR_int q 0

theorem TameR.separated {q : ℕ} {B x : ℝ} (hq : 0 < q) (h : TameR q B x) (hx : x ≠ 0) (hB : 1 ≤ B) :
    1 ≤ |x| * B ^ (q.totient - 1) := by
  have := Tame.separated hq h (by exact_mod_cast hx) hB
  rwa [Complex.norm_real, Real.norm_eq_abs] at this

/-- One pass over inputs that are integral once multiplied by `κ`: its outputs are so once multiplied by
`u^N * κ` as well, where `u` is the common denominator of the coefficients. -/
theorem filterPass_tame (q : ℕ) (c s p : ℝ) (hc : TameR q 2 (2 * c)) (hs : TameR q 2 (2 * s)) (hp : TameR q 2 (2 * p))
    (hu : c + s ≠ 0) (κ B : ℝ) (N : ℕ) (x : List ℝ) (hx : ∀ a ∈ x, TameR q B (κ * a)) (n : ℕ) (hn : n + x.length ≤ N)
    (x1 x2 y1 y2 : ℝ) (h1 : TameR q B (κ * x1)) (h2 : TameR q B (κ * x2))
    (g1 : TameR q (B * 16 ^ n) ((2 * c + 2 * s) ^ n * (κ * y1))) (g2 : TameR q (B * 16 ^ n) ((2 * c + 2 * s) ^ n * (κ * y2))) :
    ∀ y ∈ Reference.filterPass (s / (c + s)) (-(2 * p * c) / (c + s)) ((c - s) / (c + s)) x x1 x2 y1 y2,
      TameR q (B * 16 ^ N) ((2 * c + 2 * s) ^ N * (κ * y)) := by
  induction x generalizing n x1 x2 y1 y2 with
  | nil => intro y hy; cases hy
  | cons a x ih =>
    have len : n + (x.length + 1) ≤ N := by simpa using hn
    have B0 : 0 ≤ B := h1.nonneg
    have ha := hx a List.mem_cons_self
    have u : TameR q 4 (2 * c + 2 * s) := (hc.add hs).mono (by norm_num)
    set y := s / (c + s) * a - s / (c + s) * x2 - -(2 * p * c) / (c + s) * y1 - (c - s) / (c + s) * y2 with hy
    have k46 : (4 : ℝ) ^ n ≤ 16 ^ n := pow_le_pow_left₀ (by norm_num) (by norm_num) n
    have head : TameR q (B * 16 ^ (n + 1)) ((2 * c + 2 * s) ^ (n + 1) * (κ * y)) := by
      have e : (2 * c + 2 * s) ^ (n + 1) * (κ * y)
          = (2 * c + 2 * s) ^ n * ((2 * s) * (κ * a - κ * x2)) + (2 * p) * (2 * c) * ((2 * c + 2 * s) ^ n * (κ * y1))
            - (2 * c - 2 * s) * ((2 * c + 2 * s) ^ n * (κ * y2)) := by
        rw [pow_succ, hy]
        field_simp
        ring
      rw [e]
      refine ((((u.pow n).mul (hs.mul (ha.sub h2))).add ((hp.mul hc).mul g1)).sub ((hc.sub hs).mul g2)).mono ?_
      have : (4 : ℝ) ^ n * (2 * (B + B)) ≤ 4 * (B * 16 ^ n) := by nlinarith
      have p0 : 0 ≤ B * 16 ^ n := by positivity
      rw [pow_succ]; linarith
    have later : TameR q (B * 16 ^ (n + 1)) ((2 * c + 2 * s) ^ (n + 1) * (κ * y1)) := by
      rw [pow_succ (2 * c + 2 * s), mul_comm ((2 * c + 2 * s) ^ n), mul_assoc]
      refine (u.mul g1).mono ?_
      have p0 : 0 ≤ B * 16 ^ n := by positivity
      rw [pow_succ]; linarith
    intro z hz
    rcases List.mem_cons.mp hz with rfl | hz
    · obtain ⟨d, rfl⟩ : ∃ d, N = n + 1 + d := ⟨N - (n + 1), by omega⟩
      have e : (2 * c + 2 * s) ^ (n + 1 + d) * (κ * y) = (2 * c + 2 * s) ^ d * ((2 * c + 2 * s) ^ (n + 1) * (κ * y)) := by
        rw [pow_add]; ring
      have e' : B * 16 ^ (n + 1 + d) = 16 ^ d * (B * 16 ^ (n + 1)) := by rw [pow_add]; ring
      rw [e, e']
      refine ((u.pow d).mul head).mono ?_
      have k : (4 : ℝ) ^ d ≤ 16 ^ d := pow_le_pow_left₀ (by norm_num) (by norm_num) d
      have p0 : 0 ≤ B * 16 ^ (n + 1) := by positivity
      nlinarith
    · exact ih (fun a ha => hx a (List.mem_cons_of_mem _ ha)) (n + 1) (by omega) a x1 y y1 ha h1 head later z hz

theorem reference_filterPass_length (b0 a1 a2 : ℝ) (x : List ℝ) (x1 x2 y1 y2 : ℝ) :
    (Reference.filterPass b0 a1 a2 x x1 x2 y1 y2).length = x.length := by
  induction x generalizing x1 x2 y1 y2 with
  | nil => rfl
  | cons a x ih => simp [Reference.filterPass, ih]

/-- The number of distinct angles of the coefficients. -/
def angles (cfg : Config) : ℕ := 4 * qualityFactor * cfg.fs / Nat.gcd 200 (qualityFactor * cfg.fs)

theorem gcd_facts (cfg : Config) (h : 0 < cfg.fs) :
    0 < Nat.gcd 200 (qualityFactor * cfg.fs) ∧ 4 * qualityFactor * cfg.fs = Nat.gcd 200 (qualityFactor * cfg.fs) * angles cfg ∧
    0 < angles cfg := by
  have g0 : 0 < Nat.gcd 200 (qualityFactor * cfg.fs) := Nat.gcd_pos_of_pos_left _ (by norm_num)
  have dv : Nat.gcd 200 (qualityFactor * cfg.fs) ∣ 4 * qualityFactor * cfg.fs := by
    rw [mul_assoc]; exact (Nat.gcd_dvd_right _ _).mul_left _
  have e : 4 * qualityFactor * cfg.fs = Nat.gcd 200 (qualityFactor * cfg.fs) * angles cfg := (Nat.mul_div_cancel' dv).symm
  refine ⟨g0, e, Nat.pos_of_ne_zero fun z => ?_⟩
  rw [z, mul_zero] at e
  unfold qualityFactor at e
  omega

theorem angle_tame (cfg : Config) (h : 0 < cfg.fs) (j : ℕ) (hj : Nat.gcd 200 (qualityFactor * cfg.fs) ∣ j) :
    TameR (angles cfg) 2 (2 * Real.cos (2 * Real.pi * j / ((4 * qualityFactor * cfg.fs : ℕ) : ℝ))) := by
  obtain ⟨g0, e, q0⟩ := gcd_facts cfg h
  obtain ⟨i, rfl⟩ := hj
  have := tame_cos (angles cfg) q0 i
  have ang : 2 * Real.pi * ((Nat.gcd 200 (qualityFactor * cfg.fs) * i : ℕ) : ℝ) / ((4 * qualityFactor * cfg.fs : ℕ) : ℝ)
      = 2 * Real.pi * i / angles cfg := by
    rw [e]
    have g0' : ((Nat.gcd 200 (qualityFactor * cfg.fs) : ℕ) : ℝ) ≠ 0 := by exact_mod_cast g0.ne'
    have q0' : ((angles cfg : ℕ) : ℝ) ≠ 0 := by exact_mod_cast q0.ne'
    push_cast; field_simp
  rw [ang]; exact this

theorem channel_tame (cfg : Config) (h : 8000 ≤ cfg.fs) (f : ℕ) (hf : 100 ∣ f) :
    TameR (angles cfg) 2 (2 * Real.cos (theta cfg f)) ∧ TameR (angles cfg) 2 (2 * Real.sin (theta cfg f)) ∧
    TameR (angles cfg) 2 (2 * centre cfg f) := by
  have p : 0 < cfg.fs := by omega
  have g200 : Nat.gcd 200 (qualityFactor * cfg.fs) ∣ 2 * f := (Nat.gcd_dvd_left _ _).trans (by omega)
  have gfs := Nat.gcd_dvd_right 200 (qualityFactor * cfg.fs)
  refine ⟨?_, ?_, ?_⟩
  · rw [← angle_cos cfg h]; exact angle_tame cfg p _ g200
  · rw [← angle_sin cfg h]; exact angle_tame cfg p _ (g200.add (gfs.mul_left _))
  · have := angle_tame cfg p (10 * (2 * f)) (g200.mul_left _)
    have e : 2 * Real.pi * ((10 * (2 * f) : ℕ) : ℝ) / ((4 * qualityFactor * cfg.fs : ℕ) : ℝ) = 2 * Real.pi * f / cfg.fs := by
      have : (cfg.fs : ℝ) ≠ 0 := by exact_mod_cast p.ne'
      rw [qualityFactor]; push_cast; field_simp; ring
    rw [e] at this; exact this

/-- The common denominator of the coefficients of a channel. -/
noncomputable def denom (cfg : Config) (f : ℕ) : ℝ := 2 * Real.cos (theta cfg f) + 2 * Real.sin (theta cfg f)

theorem filt_tame (cfg : Config) (h : 8000 ≤ cfg.fs) (f : ℕ) (hf : f ≤ 4000) (h100 : 100 ∣ f) (κ B : ℝ) (B0 : 0 ≤ B) (x : List ℝ)
    (hx : ∀ a ∈ x, TameR (angles cfg) B (κ * a)) (hl : x.length = 320) :
    ∀ y ∈ Reference.filt cfg f x, TameR (angles cfg) (B * 16 ^ 320) (denom cfg f ^ 320 * κ * y) := by
  obtain ⟨tc, ts, tp⟩ := channel_tame cfg h f h100
  obtain ⟨c0, s0, cs⟩ := channel_facts cfg h f hf
  have z : ∀ (b : ℝ) (u : ℝ), 0 ≤ b → TameR (angles cfg) b (u * 0) := fun b u hb => by
    rw [mul_zero]; exact (tameR_zero _).mono hb
  intro y hy
  rw [Reference.filt, b0_eq cfg h f hf, a1_eq cfg h f hf, a2_eq cfg h f hf] at hy
  have := filterPass_tame (angles cfg) _ _ _ tc ts tp (by linarith) κ B 320 x hx 0 (by omega) 0 0 0 0
    (z _ _ B0) (z _ _ B0) (by rw [mul_zero]; exact z _ _ (by positivity)) (by rw [mul_zero]; exact z _ _ (by positivity)) y hy
  rw [mul_assoc]; exact this

theorem pow16 : (16 : ℝ) ^ 320 = 2 ^ 1280 := by rw [show (16 : ℝ) = 2 ^ 4 by norm_num, ← pow_mul]

theorem zeroPhase_tame (cfg : Config) (h : 8000 ≤ cfg.fs) (f : ℕ) (hf : f ≤ 4000) (h100 : 100 ∣ f) (b : List ℤ)
    (hb : b.length = 320) (hm : ∀ a ∈ b, a.natAbs ≤ 32768) (m : ℝ) (m0 : m ≠ 0) :
    ∀ y ∈ Reference.zeroPhase cfg f (b.map fun (x : ℤ) => (x : ℝ) / m),
      TameR (angles cfg) (2 ^ 2575) (denom cfg f ^ 640 * m * y) := by
  have inp : ∀ a ∈ b.map fun (x : ℤ) => (x : ℝ) / m, TameR (angles cfg) (2 ^ 15) (m * a) := by
    intro a ha
    obtain ⟨i, hi, rfl⟩ := List.mem_map.mp ha
    rw [mul_div_cancel₀ _ m0]
    exact (tameR_int _ i).mono (natAbs_sample (hm i hi))
  have first := filt_tame cfg h f hf h100 m (2 ^ 15) (by positivity) _ inp (by simpa using hb)
  intro y hy
  rw [Reference.zeroPhase, List.mem_reverse] at hy
  have second := filt_tame cfg h f hf h100 (denom cfg f ^ 320 * m) (2 ^ 15 * 16 ^ 320) (by positivity) _
    (fun a ha => first a (List.mem_reverse.mp ha)) (by simp [Reference.filt, reference_filterPass_length, hb]) y hy
  have e1 : (2 : ℝ) ^ 15 * 16 ^ 320 * 16 ^ 320 = 2 ^ 2575 := by rw [pow16, ← pow_add, ← pow_add]
  have e2 : denom cfg f ^ 320 * (denom cfg f ^ 320 * m) = denom cfg f ^ 640 * m := by rw [← mul_assoc, ← pow_add]
  rwa [e1, e2] at second

theorem peak_mem (y : List ℝ) : ∃ v, (v ∈ y ∨ v = 0) ∧ (Reference.peak y = v ∨ Reference.peak y = -v) := by
  have gen : ∀ a : ℝ, (∃ v ∈ y, (y.map fun v => |v|).foldl max a = |v|) ∨ (y.map fun v => |v|).foldl max a = a := by
    induction y with
    | nil => intro a; exact .inr rfl
    | cons u us ih =>
      intro a
      simp only [List.map_cons, List.foldl_cons]
      rcases ih (max a |u|) with ⟨v, hv, e⟩ | e
      · exact .inl ⟨v, List.mem_cons_of_mem _ hv, e⟩
      · rcases max_choice a |u| with c | c
        · exact .inr (e.trans c)
        · exact .inl ⟨u, List.mem_cons_self, e.trans c⟩
  rcases gen 0 with ⟨v, hv, e⟩ | e
  · refine ⟨v, .inl hv, ?_⟩
    rw [Reference.peak, e]
    exact abs_choice v
  · exact ⟨0, .inr rfl, .inl e⟩

theorem resp_tame (cfg : Config) (h : 8000 ≤ cfg.fs) (f : ℕ) (hf : f ≤ 4000) (h100 : 100 ∣ f) (b : List ℤ)
    (hb : b.length = 320) (hm : ∀ a ∈ b, a.natAbs ≤ 32768) (m0 : blockMax b ≠ 0) :
    TameR (angles cfg) (2 ^ 2575) (denom cfg f ^ 640 * (blockMax b : ℝ) * Reference.resp cfg b f) := by
  obtain ⟨v, hv, e⟩ := peak_mem (Reference.zeroPhase cfg f (Reference.normalized b))
  have t : TameR (angles cfg) (2 ^ 2575) (denom cfg f ^ 640 * (blockMax b : ℝ) * v) := by
    rcases hv with hv | rfl
    · exact zeroPhase_tame cfg h f hf h100 b hb hm _ (by exact_mod_cast m0) v hv
    · rw [mul_zero]; exact (tameR_zero _).mono (by positivity)
  rcases e with e | e
  · rw [Reference.resp, e]; exact t
  · rw [Reference.resp, e, mul_neg]; exact t.neg

theorem denom_facts (cfg : Config) (h : 8000 ≤ cfg.fs) (f : ℕ) (hf : f ≤ 4000) (h100 : 100 ∣ f) :
    TameR (angles cfg) 4 (denom cfg f) ∧ 0 < denom cfg f ∧ denom cfg f ≤ 4 := by
  obtain ⟨tc, ts, _⟩ := channel_tame cfg h f h100
  obtain ⟨c0, s0, cs⟩ := channel_facts cfg h f hf
  have c1 := Real.cos_le_one (theta cfg f)
  have s1 := Real.sin_le_one (theta cfg f)
  unfold denom
  exact ⟨(tc.add ts).mono (by norm_num), by linarith, by linarith⟩

theorem pow4 : (4 : ℝ) ^ 640 = 2 ^ 1280 := by rw [show (4 : ℝ) = 2 ^ 2 by norm_num, ← pow_mul]

theorem blockMax_mem (b : List ℤ) (h : b ≠ []) : blockMax b ∈ b := by
  cases b with
  | nil => exact absurd rfl h
  | cons x xs =>
    have gen : ∀ (l : List ℤ) (a : ℤ), l.foldl max a = a ∨ l.foldl max a ∈ l := by
      intro l
      induction l with
      | nil => intro a; exact .inl rfl
      | cons u us ih =>
        intro a
        rcases ih (max a u) with e | e
        · rcases max_choice a u with c | c
          · exact .inl (e.trans c)
          · rw [List.foldl_cons, e, c]; exact .inr List.mem_cons_self
        · exact .inr (List.mem_cons_of_mem _ e)
    rcases gen xs x with e | e
    · rw [blockMax, e]; exact List.mem_cons_self
    · exact List.mem_cons_of_mem _ e

/-- Two responses that differ are further apart than the tolerance at the exact precision. -/
theorem resp_apart (cfg : Config) (h : 8000 ≤ cfg.fs) (f g : ℕ) (hf : f ≤ 4000) (hg : g ≤ 4000) (f100 : 100 ∣ f) (g100 : 100 ∣ g)
    (b : List ℤ) (hb : b.length = 320) (hm : ∀ a ∈ b, a.natAbs ≤ 32768) (m0 : blockMax b ≠ 0)
    (ne : Reference.resp cfg b f ≠ Reference.resp cfg b g) :
    2 * ((filterTolerance : ℤ) : ℝ) < 2 ^ filterPrecisionExact cfg * |Reference.resp cfg b f - Reference.resp cfg b g| := by
  obtain ⟨tf, pf, lf⟩ := denom_facts cfg h f hf f100
  obtain ⟨tg, pg, lg⟩ := denom_facts cfg h g hg g100
  obtain ⟨_, _, q0⟩ := gcd_facts cfg (by omega)
  have rf := resp_tame cfg h f hf f100 b hb hm m0
  have rg := resp_tame cfg h g hg g100 b hb hm m0
  have mm : |(blockMax b : ℝ)| ≤ 2 ^ 15 := natAbs_sample (hm _ (blockMax_mem b (by rintro rfl; simp at hb)))
  have mr : (blockMax b : ℝ) ≠ 0 := by exact_mod_cast m0
  generalize Reference.resp cfg b f = x at *
  generalize Reference.resp cfg b g = y at *
  generalize denom cfg f = u at *
  generalize denom cfg g = v at *
  generalize (blockMax b : ℝ) = m at *
  have t : TameR (angles cfg) (2 ^ 3856) (u ^ 640 * v ^ 640 * m * (x - y)) := by
    have e : u ^ 640 * v ^ 640 * m * (x - y) = v ^ 640 * (u ^ 640 * m * x) - u ^ 640 * (v ^ 640 * m * y) := by ring
    rw [e]
    refine (((tg.pow 640).mul rf).sub ((tf.pow 640).mul rg)).mono (le_of_eq ?_)
    rw [pow4, ← pow_add, ← two_mul, ← pow_succ']
  have nz : u ^ 640 * v ^ 640 * m * (x - y) ≠ 0 :=
    mul_ne_zero (mul_ne_zero (mul_ne_zero (pow_pos pf _).ne' (pow_pos pg _).ne') mr) (sub_ne_zero.mpr ne)
  have s := t.separated q0 nz (one_le_pow₀ (by norm_num))
  rw [abs_mul, abs_mul, abs_mul, abs_of_pos (pow_pos pf _), abs_of_pos (pow_pos pg _), ← pow_mul] at s
  set z := |x - y|
  have z0 : 0 < z := abs_pos.mpr (sub_ne_zero.mpr ne)
  have b1 : u ^ 640 ≤ 2 ^ 1280 := by rw [← pow4]; exact pow_le_pow_left₀ pf.le lf _
  have b2 : v ^ 640 ≤ 2 ^ 1280 := by rw [← pow4]; exact pow_le_pow_left₀ pg.le lg _
  have b3 : u ^ 640 * v ^ 640 * |m| ≤ 2 ^ 1280 * 2 ^ 1280 * 2 ^ 15 :=
    mul_le_mul (mul_le_mul b1 b2 (pow_pos pg _).le (by positivity)) mm (abs_nonneg _) (by positivity)
  rw [← pow_add, ← pow_add] at b3
  have tot : Nat.totient (angles cfg) - 1 ≤ angles cfg - 1 := Nat.sub_le_sub_right (Nat.totient_le _) 1
  have s' : 1 ≤ 2 ^ (1280 + 1280 + 15) * z * 2 ^ (3856 * (Nat.totient (angles cfg) - 1)) :=
    s.trans (by gcongr)
  have tol : 2 * ((filterTolerance : ℤ) : ℝ) = 2 ^ 2001 := by
    rw [filterTolerance, Int.cast_natCast, Nat.cast_pow, Nat.cast_ofNat, ← pow_succ']
  rw [tol]
  have ex : filterPrecisionExact cfg = 4000 * angles cfg + 2200 := rfl
  calc (2 : ℝ) ^ 2001 ≤ 2 ^ 2001 * (2 ^ (1280 + 1280 + 15) * z * 2 ^ (3856 * (Nat.totient (angles cfg) - 1))) :=
        le_mul_of_one_le_right (by positivity) s'
    _ = 2 ^ (2001 + (1280 + 1280 + 15) + 3856 * (Nat.totient (angles cfg) - 1)) * z := by
        rw [pow_add (2 : ℝ) (2001 + (1280 + 1280 + 15)), pow_add (2 : ℝ) 2001]
        generalize (2 : ℝ) ^ 2001 = A
        generalize (2 : ℝ) ^ (1280 + 1280 + 15) = P
        generalize (2 : ℝ) ^ (3856 * (Nat.totient (angles cfg) - 1)) = Q
        ring
    _ < 2 ^ filterPrecisionExact cfg * z :=
        mul_lt_mul_of_pos_right (pow_lt_pow_right₀ (by norm_num) (by rw [ex]; omega)) z0

/-! ### The decoder -/

/-- The answer of R157 and R158 for the exact responses. -/
noncomputable def exactLookup (cfg : Config) (b : List ℤ) : Option Char8 :=
  letterOf cfg (sortAsc ((topK Reference.precedes (restricted.map (Reference.resp cfg b)) 3).map fun i => restricted.getD i 0))
    (decide (Reference.resp cfg b 200 > Reference.resp cfg b 100))

theorem canon_facts : ∀ f ∈ canon, f ≤ 4000 ∧ 100 ∣ f := by decide

theorem restricted_canon : ∀ f ∈ restricted, f ∈ canon := by decide

theorem lookupResponses_exact (cfg : Config) (b : List ℤ) (w : ℕ) (g : ℕ → ℤ)
    (close : ∀ f ∈ canon, |((g f : ℤ) : ℝ) - 2 ^ w * Reference.resp cfg b f| ≤ ((filterTolerance : ℤ) : ℝ) / 2)
    (case : Reference.resp cfg b 200 ≠ Reference.resp cfg b 100 → filterTolerance < |g 200 - g 100|)
    (sep : ∀ f ∈ restricted, ∀ h ∈ restricted, Reference.resp cfg b f ≠ Reference.resp cfg b h → filterTolerance < |g f - g h|) :
    lookupResponses cfg (canon.map g) = exactLookup cfg b := by
  have W : (0 : ℝ) < 2 ^ w := by positivity
  have up := (compare_exact _ _ _ _ _ _ W (close 200 (by decide)) (close 100 (by decide)) case).1
  have get : ∀ i < 9, restricted.getD i 0 ∈ restricted := by decide
  have rank : topK (precedes filterTolerance) (restricted.map g) filterPeaks
      = topK Reference.precedes (restricted.map (Reference.resp cfg b)) 3 := by
    have l1 : restricted.map g = (List.range 9).map fun i => g (restricted.getD i 0) := rfl
    have l2 : restricted.map (Reference.resp cfg b) = (List.range 9).map fun i => Reference.resp cfg b (restricted.getD i 0) := rfl
    rw [l1, l2]
    refine topK_congr _ _ _ _ _ _ fun i hi j hj => ?_
    exact precedes_exact _ _ _ _ _ _ W (close _ (restricted_canon _ (get i hi))) (close _ (restricted_canon _ (get j hj)))
      (sep _ (get i hi) _ (get j hj)) i j
  unfold lookupResponses exactLookup
  have e0 : (canon.map g).getD 0 0 = g 100 := rfl
  have e1 : (canon.map g).getD 1 0 = g 200 := rfl
  have e2 : (canon.map g).drop 2 = restricted.map g := rfl
  rw [e0, e1, e2, rank]
  simp only [up, gt_iff_lt]

theorem settled_sep (g : ℕ → ℤ) (h : settled (canon.map g) = true) :
    filterTolerance < |g 200 - g 100| ∧ ∀ f ∈ restricted, ∀ k ∈ restricted, f ≠ k → filterTolerance < |g f - g k| := by
  have t0 : (0 : ℤ) ≤ filterTolerance := Int.natCast_nonneg _
  have e0 : (canon.map g).getD 0 0 = g 100 := rfl
  have e1 : (canon.map g).getD 1 0 = g 200 := rfl
  have e2 : (canon.map g).drop 2 = restricted.map g := rfl
  unfold settled at h
  rw [e0, e1, e2, Bool.and_eq_true, decide_eq_true_iff, decide_eq_true_iff, List.pairwise_map] at h
  refine ⟨by rw [Int.abs_eq_natAbs]; omega, fun f hf k hk ne => ?_⟩
  have sym : Std.Symm fun a b => filterTolerance.natAbs < (g a - g b).natAbs := ⟨fun a b hab => by
    rw [← Int.natAbs_neg (g b - g a), neg_sub]; exact hab⟩
  have := h.2.forall hf hk ne
  rw [Int.abs_eq_natAbs]; omega

theorem lookup_settled (cfg : Config) (b : List ℤ) (w : ℕ) (g : ℕ → ℤ)
    (close : ∀ f ∈ canon, |((g f : ℤ) : ℝ) - 2 ^ w * Reference.resp cfg b f| ≤ ((filterTolerance : ℤ) : ℝ) / 2)
    (s : settled (canon.map g) = true) : lookupResponses cfg (canon.map g) = exactLookup cfg b :=
  lookupResponses_exact cfg b w g close (fun _ => (settled_sep g s).1) fun f hf k hk ne =>
    (settled_sep g s).2 f hf k hk fun e => ne (by rw [e])

theorem lookup_far (cfg : Config) (b : List ℤ) (w : ℕ) (g : ℕ → ℤ)
    (close : ∀ f ∈ canon, |((g f : ℤ) : ℝ) - 2 ^ w * Reference.resp cfg b f| ≤ ((filterTolerance : ℤ) : ℝ) / 2)
    (far : ∀ f ∈ canon, ∀ k ∈ canon, Reference.resp cfg b f ≠ Reference.resp cfg b k →
      2 * ((filterTolerance : ℤ) : ℝ) < 2 ^ w * |Reference.resp cfg b f - Reference.resp cfg b k|) :
    lookupResponses cfg (canon.map g) = exactLookup cfg b := by
  have sep : ∀ f ∈ canon, ∀ k ∈ canon, Reference.resp cfg b f ≠ Reference.resp cfg b k → filterTolerance < |g f - g k| :=
    fun f hf k hk ne => apart _ _ _ _ _ _ (by positivity) (close f hf) (close k hk) (far f hf k hk ne)
  exact lookupResponses_exact cfg b w g close (sep 200 (by decide) 100 (by decide)) fun f hf k hk =>
    sep f (restricted_canon f hf) k (restricted_canon k hk)

/-- DECF decides with the exact responses: the machine's decoder is `fb_decode` (R159). -/
theorem fbDecode_exact (cfg : Config) (h : 8000 ≤ cfg.fs) (b : List ℤ) (hb : b.length = 320) (hm : ∀ a ∈ b, a.natAbs ≤ 32768) :
    fbDecode cfg b = Reference.fbDecode cfg b := by
  unfold fbDecode Reference.fbDecode
  simp only [forcedList_eq]
  rw [blockMax_eq]
  by_cases m0 : Reference.blockMax b = 0
  · rw [if_pos m0, if_pos m0]; rfl
  rw [if_neg m0, if_neg m0]
  have close : ∀ w, 2200 ≤ w → ∀ f ∈ canon, _ := fun w hw f hf =>
    response_close cfg h f (canon_facts f hf).1 w hw b hb hm m0
  have look : (if settled (responses cfg filterPrecision (Reference.blockMax b) b) then
        Decoded.ofLookup cfg.charcode (lookupResponses cfg (responses cfg filterPrecision (Reference.blockMax b) b))
      else Decoded.ofLookup cfg.charcode (lookupResponses cfg (responses cfg (filterPrecisionExact cfg) (Reference.blockMax b) b)))
      = Decoded.ofLookup cfg.charcode (exactLookup cfg b) := by
    simp only [responses, forcedList_eq]
    split
    · next s => exact congrArg _ (lookup_settled cfg b _ _ (close filterPrecision (le_refl 2200)) s)
    · exact congrArg _ (lookup_far cfg b _ _ (close _ (Nat.le_add_left _ _)) fun f hf k hk ne =>
        resp_apart cfg h f k (canon_facts f hf).1 (canon_facts k hk).1 (canon_facts f hf).2 (canon_facts k hk).2 b hb hm m0 ne)
  rw [look]
  unfold exactLookup Decoded.ofLookup
  generalize letterOf cfg _ _ = o
  cases o <;> rfl

end Sys2Proof.Laws
end

