-- ==== Sys2Proof/Laws/Memory.lean ====
section
/-! SUPPORT. The block buffer: a read after a write, the other entries, the one canonical form. -/

namespace Sys2Proof.Laws

open Sys2Proof.Machine

theorem wfFrom_cons {lo a : Nat} {v : Sample} {m : Memory} :
    Memory.wfFrom lo ((a, v) :: m) = true
      ↔ lo ≤ a ∧ a < blockLength ∧ v ≠ unlistedSample ∧ Memory.wfFrom (a + 1) m = true := by
  simp [Memory.wfFrom, and_assoc]

theorem wfFrom_mono {lo lo' : Nat} {m : Memory} (h : Memory.wfFrom lo m = true) (l : lo' ≤ lo) :
    Memory.wfFrom lo' m = true := by
  cases m with
  | nil => rfl
  | cons p m => obtain ⟨a, v⟩ := p; rw [wfFrom_cons] at h ⊢; exact ⟨l.trans h.1, h.2⟩

/-- An index below every listed one reads as an unlisted entry. -/
theorem read_below {lo : Nat} {m : Memory} (h : Memory.wfFrom lo m = true) {a : Nat} (ha : a < lo) :
    m.read a = unlistedSample := by
  induction m generalizing lo with
  | nil => rfl
  | cons p m ih =>
    obtain ⟨b, v⟩ := p
    rw [wfFrom_cons] at h
    rw [Memory.read, if_neg (by omega)]
    exact ih h.2.2.2 (by omega)

/-- The other entries keep their values, in any list. -/
theorem read_write_other (m : Memory) (a c : Nat) (v : Sample) (h : c ≠ a) : (m.write a v).read c = m.read c := by
  induction m with
  | nil =>
    rw [Memory.write]
    split
    · rfl
    · simp [Memory.read, h]
  | cons p m ih =>
    obtain ⟨b, u⟩ := p
    rw [Memory.write]
    split
    · split
      · rfl
      · rw [Memory.read.eq_2, if_neg h]
    · split
      · next e =>
        subst e
        split
        · rw [Memory.read, if_neg h]
        · rw [Memory.read, Memory.read, if_neg h, if_neg h]
      · rw [Memory.read, Memory.read, ih]

/-- A read after a write gives the value written. -/
theorem read_write_same {lo : Nat} {m : Memory} (h : Memory.wfFrom lo m = true) (a : Nat) (v : Sample) :
    (m.write a v).read a = v := by
  induction m generalizing lo with
  | nil =>
    rw [Memory.write]
    split
    · next e => rw [e]; rfl
    · rw [Memory.read, if_pos rfl]
  | cons p m ih =>
    obtain ⟨b, u⟩ := p
    have w := wfFrom_cons.mp h
    rw [Memory.write]
    split
    · next l =>
      split
      · next e => rw [e, Memory.read, if_neg (by omega), read_below w.2.2.2 (by omega)]
      · rw [Memory.read, if_pos rfl]
    · split
      · next e =>
        subst e
        split
        · next e' => rw [e', read_below w.2.2.2 (by omega)]
        · rw [Memory.read, if_pos rfl]
      · next e => rw [Memory.read, if_neg e, ih w.2.2.2]

theorem write_wfFrom {lo : Nat} {m : Memory} (h : Memory.wfFrom lo m = true) {a : Nat} (v : Sample) (l : lo ≤ a)
    (u : a < blockLength) : Memory.wfFrom lo (m.write a v) = true := by
  induction m generalizing lo with
  | nil =>
    rw [Memory.write]
    split
    · rfl
    · next e => exact wfFrom_cons.mpr ⟨l, u, e, rfl⟩
  | cons p m ih =>
    obtain ⟨b, x⟩ := p
    have w := wfFrom_cons.mp h
    rw [Memory.write]
    split
    · next ab =>
      split
      · exact h
      · next e => exact wfFrom_cons.mpr ⟨l, u, e, wfFrom_cons.mpr ⟨by omega, w.2⟩⟩
    · split
      · next e =>
        subst e
        split
        · exact wfFrom_mono w.2.2.2 (by omega)
        · next e' => exact wfFrom_cons.mpr ⟨l, u, e', w.2.2.2⟩
      · exact wfFrom_cons.mpr ⟨w.1, w.2.1, w.2.2.1, ih w.2.2.2 (by omega)⟩

/-- A write to an index of the buffer keeps the canonical form. -/
theorem write_wf {m : Memory} (h : m.wf = true) {a : Nat} (v : Sample) (u : a < blockLength) : (m.write a v).wf = true :=
  write_wfFrom h v (Nat.zero_le a) u

/-- Memories in the canonical form that read the same are the same list. -/
theorem wf_ext {lo : Nat} {m m' : Memory} (h : Memory.wfFrom lo m = true) (h' : Memory.wfFrom lo m' = true)
    (e : ∀ a, m.read a = m'.read a) : m = m' := by
  induction m generalizing lo m' with
  | nil =>
    cases m' with
    | nil => rfl
    | cons p m' =>
      obtain ⟨b, v⟩ := p
      have w := wfFrom_cons.mp h'
      exact absurd (by simpa [Memory.read] using (e b).symm) w.2.2.1
  | cons p m ih =>
    obtain ⟨a, v⟩ := p
    have w := wfFrom_cons.mp h
    cases m' with
    | nil => exact absurd (by simpa [Memory.read] using e a) w.2.2.1
    | cons p' m' =>
      obtain ⟨b, u⟩ := p'
      have w' := wfFrom_cons.mp h'
      have ab : a = b := by
        rcases lt_trichotomy a b with c | c | c
        · have x := e a
          rw [Memory.read, if_pos rfl, Memory.read, if_neg (by omega), read_below w'.2.2.2 (by omega)] at x
          exact absurd x w.2.2.1
        · exact c
        · have x := e b
          rw [Memory.read, if_neg (by omega), read_below w.2.2.2 (by omega), Memory.read, if_pos rfl] at x
          exact absurd x.symm w'.2.2.1
      subst ab
      have vu : v = u := by simpa [Memory.read] using e a
      subst vu
      congr 1
      refine ih w.2.2.2 w'.2.2.2 fun c => ?_
      have x := e c
      rw [Memory.read, Memory.read] at x
      by_cases ca : c = a
      · subst ca
        rw [read_below w.2.2.2 (by omega), read_below w'.2.2.2 (by omega)]
      · rwa [if_neg ca, if_neg ca] at x

theorem reset_wf : State.reset.blk.wf = true := rfl

/-! ### The block the decoders read -/

theorem block_length (s : State) : s.block.length = 320 := by simp [State.block, blockLength]

/-- A stored sample is at most 32768 in absolute value. -/
theorem block_natAbs (s : State) : ∀ a ∈ s.block, a.natAbs ≤ 32768 := by
  intro a ha
  obtain ⟨n, _, rfl⟩ := List.mem_map.mp ha
  have l := BitVec.le_toInt (s.blk.read n)
  have u := BitVec.toInt_lt (x := s.blk.read n)
  omega

end Sys2Proof.Laws
end

