-- ==== Sys2Proof/Laws/State.lean ====
section
/-! SUPPORT. One lemma per field for each update of the state, true by rfl. -/

namespace Sys2Proof.Laws

open Sys2Proof.Machine

@[simp] theorem setStatus_amp (s : State) (v : Word) : (s.setStatus v).amp = s.amp := rfl
@[simp] theorem setStatus_scnt (s : State) (v : Word) : (s.setStatus v).scnt = s.scnt := rfl
@[simp] theorem setStatus_res (s : State) (v : Word) : (s.setStatus v).res = s.res := rfl
@[simp] theorem setStatus_status (s : State) (v : Word) : (s.setStatus v).status = v &&& statusMask := rfl
@[simp] theorem setStatus_blk (s : State) (v : Word) : (s.setStatus v).blk = s.blk := rfl
@[simp] theorem setStatus_sout (s : State) (v : Word) : (s.setStatus v).sout = s.sout := rfl
@[simp] theorem setStatus_cout (s : State) (v : Word) : (s.setStatus v).cout = s.cout := rfl
@[simp] theorem setStatus_inputs (s : State) (v : Word) : (s.setStatus v).inputs = s.inputs := rfl
@[simp] theorem setStatus_config (s : State) (v : Word) : (s.setStatus v).config = s.config := rfl
@[simp] theorem setStatus_observed (s : State) (v : Word) : (s.setStatus v).observed = s.observed := rfl

@[simp] theorem raise_amp (c : Condition) (s : State) : (raise c s).amp = s.amp := rfl
@[simp] theorem raise_scnt (c : Condition) (s : State) : (raise c s).scnt = s.scnt := rfl
@[simp] theorem raise_res (c : Condition) (s : State) : (raise c s).res = s.res := rfl
@[simp] theorem raise_status (c : Condition) (s : State) : (raise c s).status = setFlag c s.status &&& statusMask := rfl
@[simp] theorem raise_blk (c : Condition) (s : State) : (raise c s).blk = s.blk := rfl
@[simp] theorem raise_sout (c : Condition) (s : State) : (raise c s).sout = s.sout := rfl
@[simp] theorem raise_cout (c : Condition) (s : State) : (raise c s).cout = s.cout := rfl
@[simp] theorem raise_inputs (c : Condition) (s : State) : (raise c s).inputs = s.inputs := rfl
@[simp] theorem raise_config (c : Condition) (s : State) : (raise c s).config = s.config := rfl
@[simp] theorem raise_observed (c : Condition) (s : State) : (raise c s).observed = s.observed := rfl

@[simp] theorem pushSamples_amp (s : State) (p : List Sample) : (s.pushSamples p).amp = s.amp := rfl
@[simp] theorem pushSamples_scnt (s : State) (p : List Sample) : (s.pushSamples p).scnt = s.scnt := rfl
@[simp] theorem pushSamples_res (s : State) (p : List Sample) : (s.pushSamples p).res = s.res := rfl
@[simp] theorem pushSamples_status (s : State) (p : List Sample) : (s.pushSamples p).status = s.status := rfl
@[simp] theorem pushSamples_blk (s : State) (p : List Sample) : (s.pushSamples p).blk = s.blk := rfl
@[simp] theorem pushSamples_sout (s : State) (p : List Sample) : (s.pushSamples p).sout = s.sout ++ p := rfl
@[simp] theorem pushSamples_cout (s : State) (p : List Sample) : (s.pushSamples p).cout = s.cout := rfl
@[simp] theorem pushSamples_inputs (s : State) (p : List Sample) : (s.pushSamples p).inputs = s.inputs := rfl
@[simp] theorem pushSamples_config (s : State) (p : List Sample) : (s.pushSamples p).config = s.config := rfl
@[simp] theorem pushSamples_observed (s : State) (p : List Sample) : (s.pushSamples p).observed = s.observed := rfl

@[simp] theorem pushChar_amp (s : State) (c : Char8) : (s.pushChar c).amp = s.amp := rfl
@[simp] theorem pushChar_scnt (s : State) (c : Char8) : (s.pushChar c).scnt = s.scnt := rfl
@[simp] theorem pushChar_res (s : State) (c : Char8) : (s.pushChar c).res = s.res := rfl
@[simp] theorem pushChar_status (s : State) (c : Char8) : (s.pushChar c).status = s.status := rfl
@[simp] theorem pushChar_blk (s : State) (c : Char8) : (s.pushChar c).blk = s.blk := rfl
@[simp] theorem pushChar_sout (s : State) (c : Char8) : (s.pushChar c).sout = s.sout := rfl
@[simp] theorem pushChar_cout (s : State) (c : Char8) : (s.pushChar c).cout = s.cout ++ [c] := rfl
@[simp] theorem pushChar_inputs (s : State) (c : Char8) : (s.pushChar c).inputs = s.inputs := rfl
@[simp] theorem pushChar_config (s : State) (c : Char8) : (s.pushChar c).config = s.config := rfl
@[simp] theorem pushChar_observed (s : State) (c : Char8) : (s.pushChar c).observed = s.observed := rfl

@[simp] theorem setRes_amp (s : State) (v : Word) : (s.setRes v).amp = s.amp := rfl
@[simp] theorem setRes_scnt (s : State) (v : Word) : (s.setRes v).scnt = s.scnt := rfl
@[simp] theorem setRes_res (s : State) (v : Word) : (s.setRes v).res = v := rfl
@[simp] theorem setRes_status (s : State) (v : Word) : (s.setRes v).status = s.status := rfl
@[simp] theorem setRes_blk (s : State) (v : Word) : (s.setRes v).blk = s.blk := rfl
@[simp] theorem setRes_sout (s : State) (v : Word) : (s.setRes v).sout = s.sout := rfl
@[simp] theorem setRes_cout (s : State) (v : Word) : (s.setRes v).cout = s.cout := rfl
@[simp] theorem setRes_inputs (s : State) (v : Word) : (s.setRes v).inputs = s.inputs := rfl
@[simp] theorem setRes_config (s : State) (v : Word) : (s.setRes v).config = s.config := rfl
@[simp] theorem setRes_observed (s : State) (v : Word) : (s.setRes v).observed = s.observed := rfl

@[simp] theorem setAmp_amp (s : State) (v : BitVec 16) : (s.setAmp v).amp = v := rfl
@[simp] theorem setAmp_scnt (s : State) (v : BitVec 16) : (s.setAmp v).scnt = s.scnt := rfl
@[simp] theorem setAmp_res (s : State) (v : BitVec 16) : (s.setAmp v).res = s.res := rfl
@[simp] theorem setAmp_status (s : State) (v : BitVec 16) : (s.setAmp v).status = s.status := rfl
@[simp] theorem setAmp_blk (s : State) (v : BitVec 16) : (s.setAmp v).blk = s.blk := rfl
@[simp] theorem setAmp_sout (s : State) (v : BitVec 16) : (s.setAmp v).sout = s.sout := rfl
@[simp] theorem setAmp_cout (s : State) (v : BitVec 16) : (s.setAmp v).cout = s.cout := rfl
@[simp] theorem setAmp_inputs (s : State) (v : BitVec 16) : (s.setAmp v).inputs = s.inputs := rfl
@[simp] theorem setAmp_config (s : State) (v : BitVec 16) : (s.setAmp v).config = s.config := rfl
@[simp] theorem setAmp_observed (s : State) (v : BitVec 16) : (s.setAmp v).observed = s.observed := rfl

@[simp] theorem clearCount_amp (s : State) : (s.clearCount).amp = s.amp := rfl
@[simp] theorem clearCount_scnt (s : State) : (s.clearCount).scnt = 0 := rfl
@[simp] theorem clearCount_res (s : State) : (s.clearCount).res = s.res := rfl
@[simp] theorem clearCount_status (s : State) : (s.clearCount).status = s.status := rfl
@[simp] theorem clearCount_blk (s : State) : (s.clearCount).blk = s.blk := rfl
@[simp] theorem clearCount_sout (s : State) : (s.clearCount).sout = s.sout := rfl
@[simp] theorem clearCount_cout (s : State) : (s.clearCount).cout = s.cout := rfl
@[simp] theorem clearCount_inputs (s : State) : (s.clearCount).inputs = s.inputs := rfl
@[simp] theorem clearCount_config (s : State) : (s.clearCount).config = s.config := rfl
@[simp] theorem clearCount_observed (s : State) : (s.clearCount).observed = s.observed := rfl

@[simp] theorem toReset_amp (s : State) : (s.toReset).amp = 0x0100 := rfl
@[simp] theorem toReset_scnt (s : State) : (s.toReset).scnt = 0 := rfl
@[simp] theorem toReset_res (s : State) : (s.toReset).res = 0 := rfl
@[simp] theorem toReset_status (s : State) : (s.toReset).status = 0 := rfl
@[simp] theorem toReset_blk (s : State) : (s.toReset).blk = s.blk := rfl
@[simp] theorem toReset_sout (s : State) : (s.toReset).sout = [] := rfl
@[simp] theorem toReset_cout (s : State) : (s.toReset).cout = [] := rfl
@[simp] theorem toReset_inputs (s : State) : (s.toReset).inputs = s.inputs := rfl
@[simp] theorem toReset_config (s : State) : (s.toReset).config = s.config := rfl
@[simp] theorem toReset_observed (s : State) : (s.toReset).observed = s.observed := rfl

@[simp] theorem loadSample_amp (s : State) (v : Sample) (h : s.scnt.val < blockLength) : (s.loadSample v h).amp = s.amp := rfl
@[simp] theorem loadSample_scnt (s : State) (v : Sample) (h : s.scnt.val < blockLength) : (s.loadSample v h).scnt = ⟨s.scnt.val + 1, Nat.succ_lt_succ h⟩ := rfl
@[simp] theorem loadSample_res (s : State) (v : Sample) (h : s.scnt.val < blockLength) : (s.loadSample v h).res = s.res := rfl
@[simp] theorem loadSample_status (s : State) (v : Sample) (h : s.scnt.val < blockLength) : (s.loadSample v h).status = s.status := rfl
@[simp] theorem loadSample_blk (s : State) (v : Sample) (h : s.scnt.val < blockLength) : (s.loadSample v h).blk = s.blk.write s.scnt.val v := rfl
@[simp] theorem loadSample_sout (s : State) (v : Sample) (h : s.scnt.val < blockLength) : (s.loadSample v h).sout = s.sout := rfl
@[simp] theorem loadSample_cout (s : State) (v : Sample) (h : s.scnt.val < blockLength) : (s.loadSample v h).cout = s.cout := rfl
@[simp] theorem loadSample_inputs (s : State) (v : Sample) (h : s.scnt.val < blockLength) : (s.loadSample v h).inputs = s.inputs := rfl
@[simp] theorem loadSample_config (s : State) (v : Sample) (h : s.scnt.val < blockLength) : (s.loadSample v h).config = s.config := rfl
@[simp] theorem loadSample_observed (s : State) (v : Sample) (h : s.scnt.val < blockLength) : (s.loadSample v h).observed = s.observed := rfl

@[simp] theorem observe_amp (r : Word × State) : (State.observe r).amp = r.2.amp := rfl
@[simp] theorem observe_scnt (r : Word × State) : (State.observe r).scnt = r.2.scnt := rfl
@[simp] theorem observe_res (r : Word × State) : (State.observe r).res = r.2.res := rfl
@[simp] theorem observe_status (r : Word × State) : (State.observe r).status = r.2.status := rfl
@[simp] theorem observe_blk (r : Word × State) : (State.observe r).blk = r.2.blk := rfl
@[simp] theorem observe_sout (r : Word × State) : (State.observe r).sout = r.2.sout := rfl
@[simp] theorem observe_cout (r : Word × State) : (State.observe r).cout = r.2.cout := rfl
@[simp] theorem observe_inputs (r : Word × State) : (State.observe r).inputs = r.2.inputs := rfl
@[simp] theorem observe_config (r : Word × State) : (State.observe r).config = r.2.config := rfl
@[simp] theorem observe_observed (r : Word × State) : (State.observe r).observed = r.2.observed ++ [r.1] := rfl

@[simp] theorem withFetchWord_amp (s : State) (nbits w : Nat) : (s.withFetchWord nbits w).amp = s.amp := rfl
@[simp] theorem withFetchWord_scnt (s : State) (nbits w : Nat) : (s.withFetchWord nbits w).scnt = s.scnt := rfl
@[simp] theorem withFetchWord_res (s : State) (nbits w : Nat) : (s.withFetchWord nbits w).res = s.res := rfl
@[simp] theorem withFetchWord_status (s : State) (nbits w : Nat) : (s.withFetchWord nbits w).status = s.status := rfl
@[simp] theorem withFetchWord_blk (s : State) (nbits w : Nat) : (s.withFetchWord nbits w).blk = s.blk := rfl
@[simp] theorem withFetchWord_sout (s : State) (nbits w : Nat) : (s.withFetchWord nbits w).sout = s.sout := rfl
@[simp] theorem withFetchWord_cout (s : State) (nbits w : Nat) : (s.withFetchWord nbits w).cout = s.cout := rfl
@[simp] theorem withFetchWord_inputs (s : State) (nbits w : Nat) : (s.withFetchWord nbits w).inputs = .write .word offCmd (BitVec.ofNat 32 (w % 2 ^ nbits)) :: s.inputs := rfl
@[simp] theorem withFetchWord_config (s : State) (nbits w : Nat) : (s.withFetchWord nbits w).config = s.config := rfl
@[simp] theorem withFetchWord_observed (s : State) (nbits w : Nat) : (s.withFetchWord nbits w).observed = s.observed := rfl

/-! A condition raised when a test holds. -/

@[simp] theorem raiseIf_amp (b : Bool) (c : Condition) (s : State) : (raiseIf b c s).amp = s.amp := by cases b <;> rfl
@[simp] theorem raiseIf_scnt (b : Bool) (c : Condition) (s : State) : (raiseIf b c s).scnt = s.scnt := by cases b <;> rfl
@[simp] theorem raiseIf_res (b : Bool) (c : Condition) (s : State) : (raiseIf b c s).res = s.res := by cases b <;> rfl
@[simp] theorem raiseIf_status (b : Bool) (c : Condition) (s : State) :
    (raiseIf b c s).status = if b then setFlag c s.status &&& statusMask else s.status := by cases b <;> rfl
@[simp] theorem raiseIf_blk (b : Bool) (c : Condition) (s : State) : (raiseIf b c s).blk = s.blk := by cases b <;> rfl
@[simp] theorem raiseIf_sout (b : Bool) (c : Condition) (s : State) : (raiseIf b c s).sout = s.sout := by cases b <;> rfl
@[simp] theorem raiseIf_cout (b : Bool) (c : Condition) (s : State) : (raiseIf b c s).cout = s.cout := by cases b <;> rfl
@[simp] theorem raiseIf_inputs (b : Bool) (c : Condition) (s : State) : (raiseIf b c s).inputs = s.inputs := by cases b <;> rfl
@[simp] theorem raiseIf_config (b : Bool) (c : Condition) (s : State) : (raiseIf b c s).config = s.config := by cases b <;> rfl
@[simp] theorem raiseIf_observed (b : Bool) (c : Condition) (s : State) : (raiseIf b c s).observed = s.observed := by cases b <;> rfl

@[simp] theorem resetWith_amp (c : Config) : (State.resetWith c).amp = 0x0100 := rfl
@[simp] theorem resetWith_scnt (c : Config) : (State.resetWith c).scnt = 0 := rfl
@[simp] theorem resetWith_res (c : Config) : (State.resetWith c).res = 0 := rfl
@[simp] theorem resetWith_status (c : Config) : (State.resetWith c).status = 0 := rfl
@[simp] theorem resetWith_blk (c : Config) : (State.resetWith c).blk = [] := rfl
@[simp] theorem resetWith_sout (c : Config) : (State.resetWith c).sout = [] := rfl
@[simp] theorem resetWith_cout (c : Config) : (State.resetWith c).cout = [] := rfl
@[simp] theorem resetWith_config (c : Config) : (State.resetWith c).config = c := rfl
@[simp] theorem resetWith_inputs (c : Config) : (State.resetWith c).inputs = [] := rfl
@[simp] theorem resetWith_observed (c : Config) : (State.resetWith c).observed = [] := rfl

end Sys2Proof.Laws
end

