-- ==== Sys2Proof/Laws/Ops.lean ====
section
/-! SUPPORT. For each shared operation, once, everything it does. -/

namespace Sys2Proof.Laws

open Sys2Proof.Machine

/-- Raising a condition writes STATUS and nothing else. -/
theorem raise_eq (c : Condition) (s : State) : raise c s = { s with status := setFlag c s.status &&& statusMask } := rfl

theorem raiseIf_eq (b : Bool) (c : Condition) (s : State) :
    raiseIf b c s = { s with status := if b then setFlag c s.status &&& statusMask else s.status } := by cases b <;> rfl

/-- Emitting a block appends its samples and, if it was clipped, sets CLIP. -/
theorem emitBlock_eq (p : List Sample × Bool) (s : State) :
    emitBlock p s = { s with
      sout := s.sout ++ p.1
      status := if p.2 then setFlag .pcmClip s.status &&& statusMask else s.status } := by
  obtain ⟨samples, clipped⟩ := p
  cases clipped <;> rfl

/-- The status after a decoder's answer. -/
def deliverStatus (r : Decoded) (v : Word) : Word :=
  let v := if r.degen then setFlag .degenerateBlock v &&& statusMask else v
  if r.unrec then setFlag .unrecognizedSymbol v &&& statusMask else v

/-- Delivering an answer appends its character, sets its flags and empties the block. -/
theorem deliver_eq (r : Decoded) (s : State) :
    deliver r s = { s with cout := s.cout ++ [r.char], scnt := 0, status := deliverStatus r s.status } := by
  obtain ⟨c, d, u⟩ := r
  cases d <;> cases u <;> rfl

/-- A decode command either finds too few samples and sets UNDER, or delivers the decoder's answer. -/
theorem decodeCommand_cases (dec : List Int → Decoded) (s : State) :
    (s.scnt.val < 320 ∧ decodeCommand dec s = { s with status := setFlag .blockUnderrun s.status &&& statusMask }) ∨
    (s.scnt.val = 320 ∧ decodeCommand dec s = { s with
      cout := s.cout ++ [(dec s.block).char], scnt := 0, status := deliverStatus (dec s.block) s.status }) := by
  unfold decodeCommand
  by_cases h : s.scnt.val < blockLength
  · exact .inl ⟨h, by rw [if_pos h, raise_eq]⟩
  · exact .inr ⟨by have := s.scnt.isLt; unfold blockLength at h; omega, by rw [if_neg h, deliver_eq]⟩

/-- A sample loaded where there is room. -/
theorem loadSample_eq (s : State) (v : Sample) (h : s.scnt.val < blockLength) :
    s.loadSample v h = { s with blk := s.blk.write s.scnt.val v, scnt := ⟨s.scnt.val + 1, Nat.succ_lt_succ h⟩ } := rfl

/-- LDS either stores its sample or finds the block full and sets OVER. -/
theorem execLds_cases (v : BitVec 16) (s : State) :
    (∃ h : s.scnt.val < blockLength, execLds v s = .next (s.loadSample v h)) ∨
    (s.scnt.val = 320 ∧ execLds v s = .next (raise .blockOverrun s)) := by
  unfold execLds
  by_cases h : s.scnt.val < blockLength
  · exact .inl ⟨h, by rw [dif_pos h]⟩
  · exact .inr ⟨by have := s.scnt.isLt; unfold blockLength at h; omega, by rw [dif_neg h]⟩

/-- Popping a queue returns and removes its head, if it has one. -/
theorem popSample_cases (s : State) :
    (s.sout = [] ∧ popSample s = (0, s)) ∨
    (∃ v rest, s.sout = v :: rest ∧ popSample s = (1#1 ++ 0#15 ++ v, { s with sout := rest })) := by
  unfold popSample
  cases h : s.sout with
  | nil => exact .inl ⟨rfl, rfl⟩
  | cons v rest => exact .inr ⟨v, rest, rfl, rfl⟩

theorem popChar_cases (s : State) :
    (s.cout = [] ∧ popChar s = (0, s)) ∨
    (∃ c rest, s.cout = c :: rest ∧ popChar s = (1#1 ++ 0#23 ++ c, { s with cout := rest })) := by
  unfold popChar
  cases h : s.cout with
  | nil => exact .inl ⟨rfl, rfl⟩
  | cons v rest => exact .inr ⟨v, rest, rfl, rfl⟩

/-- A read leaves the state as it is, or pops one of the queues. -/
theorem hostRead_cases (off : Nat) (s : State) :
    (hostRead off s).2 = s ∨ (off = offSdata ∧ hostRead off s = popSample s) ∨ (off = offCdata ∧ hostRead off s = popChar s) := by
  unfold hostRead
  repeat' split
  all_goals first
    | exact .inl rfl
    | exact .inr (.inl ⟨‹_›, rfl⟩)
    | exact .inr (.inr ⟨‹_›, rfl⟩)

/-- Every step is the head of the host's actions, or nothing. -/
theorem step_cases (s : State) :
    (s.inputs = [] ∧ step s = .next s) ∨
    (∃ a rest, s.inputs = a :: rest ∧ step s = hostAction a { s with inputs := rest }) := by
  unfold step nextAction
  cases h : s.inputs with
  | nil => exact .inl ⟨rfl, rfl⟩
  | cons a rest => exact .inr ⟨a, rest, rfl, rfl⟩

end Sys2Proof.Laws
end

