-- ==== Sys2Proof/Laws/PerInstr.lean ====
section
/-! SUPPORT. Per instruction: the word of a command selects a row of the opcode map, must-be-zero bits and all
(30_encoding R71 to R77). -/

namespace Sys2Proof.Laws

/-! ### The formats: opcode and must-be-zero bits -/

theorem formatZ_opcode (opc : BitVec 8) : opcodeOf (formatZ opc) = opc := by
  apply BitVec.eq_of_getLsbD_eq
  intro i hi
  simp only [opcodeOf, formatZ, BitVec.getLsbD_extractLsb', BitVec.getLsbD_append]
  interval_cases i <;> simp

theorem formatZ_mask (opc : BitVec 8) : formatZ opc &&& 0xFFFFFFFF#32 = opc ++ 0#24 := by
  apply BitVec.eq_of_getLsbD_eq
  intro i hi
  simp only [formatZ, BitVec.getLsbD_and, BitVec.getLsbD_append]
  interval_cases i <;> simp

theorem formatB_opcode (opc imm8 : BitVec 8) : opcodeOf (formatB opc imm8) = opc := by
  apply BitVec.eq_of_getLsbD_eq
  intro i hi
  simp only [opcodeOf, formatB, BitVec.getLsbD_extractLsb', BitVec.getLsbD_append]
  interval_cases i <;> simp

theorem formatB_mask (opc imm8 : BitVec 8) : formatB opc imm8 &&& 0xFFFFFF00#32 = opc ++ 0#24 := by
  apply BitVec.eq_of_getLsbD_eq
  intro i hi
  simp only [formatB, BitVec.getLsbD_and, BitVec.getLsbD_append]
  interval_cases i <;> simp

theorem formatH_opcode (opc : BitVec 8) (imm16 : BitVec 16) : opcodeOf (formatH opc imm16) = opc := by
  apply BitVec.eq_of_getLsbD_eq
  intro i hi
  simp only [opcodeOf, formatH, BitVec.getLsbD_extractLsb', BitVec.getLsbD_append]
  interval_cases i <;> simp

theorem formatH_mask (opc : BitVec 8) (imm16 : BitVec 16) : formatH opc imm16 &&& 0xFFFF0000#32 = opc ++ 0#24 := by
  apply BitVec.eq_of_getLsbD_eq
  intro i hi
  simp only [formatH, BitVec.getLsbD_and, BitVec.getLsbD_append]
  interval_cases i <;> simp

theorem formatY_opcode (opc : BitVec 8) (u : Bool) (sym : BitVec 5) : opcodeOf (formatY opc u sym) = opc := by
  apply BitVec.eq_of_getLsbD_eq
  intro i hi
  simp only [opcodeOf, formatY, BitVec.getLsbD_extractLsb', BitVec.getLsbD_append]
  interval_cases i <;> simp

theorem formatY_mask (opc : BitVec 8) (u : Bool) (sym : BitVec 5) : formatY opc u sym &&& 0xFFFFFEE0#32 = opc ++ 0#24 := by
  apply BitVec.eq_of_getLsbD_eq
  intro i hi
  simp only [formatY, BitVec.getLsbD_and, BitVec.getLsbD_append]
  interval_cases i <;> simp

theorem formatT_opcode (opc : BitVec 8) (case : Bool) (j2 j1 j0 : BitVec 4) : opcodeOf (formatT opc case j2 j1 j0) = opc := by
  apply BitVec.eq_of_getLsbD_eq
  intro i hi
  simp only [opcodeOf, formatT, BitVec.getLsbD_extractLsb', BitVec.getLsbD_append]
  interval_cases i <;> simp

theorem formatT_mask (opc : BitVec 8) (case : Bool) (j2 j1 j0 : BitVec 4) : formatT opc case j2 j1 j0 &&& 0xFFFFE000#32 = opc ++ 0#24 := by
  apply BitVec.eq_of_getLsbD_eq
  intro i hi
  simp only [formatT, BitVec.getLsbD_and, BitVec.getLsbD_append]
  interval_cases i <;> simp

/-- The word of `i` selects the row of its opcode: every bit the row's mask names is the row's. -/
def RowOf.Statement (i : Instr) : Prop :=
  ∃ row, opcodeMap[(opcodeOf (encode i)).toNat]? = some row ∧ encode i &&& row.mask = row.pattern

theorem RowOf.nop : RowOf.Statement (.nop) :=
  ⟨_, by rw [encode, formatZ_opcode]; rfl, by rw [encode]; exact formatZ_mask _⟩

theorem RowOf.sig (imm8 : BitVec 8) : RowOf.Statement (.sig imm8) :=
  ⟨_, by rw [encode, formatB_opcode]; rfl, by rw [encode]; exact formatB_mask _ _⟩

theorem RowOf.let_ (upper : Bool) (j2 j1 j0 : BitVec 4) : RowOf.Statement (.let_ upper j2 j1 j0) :=
  ⟨_, by rw [encode, formatT_opcode]; rfl, by rw [encode]; exact formatT_mask _ _ _ _ _⟩

theorem RowOf.seta (imm16 : BitVec 16) : RowOf.Statement (.seta imm16) :=
  ⟨_, by rw [encode, formatH_opcode]; rfl, by rw [encode]; exact formatH_mask _ _⟩

theorem RowOf.syn (sym : BitVec 5) (upper : Bool) : RowOf.Statement (.syn sym upper) :=
  ⟨_, by rw [encode, formatY_opcode]; rfl, by rw [encode]; exact formatY_mask _ _ _⟩

theorem RowOf.enc (imm8 : BitVec 8) : RowOf.Statement (.enc imm8) :=
  ⟨_, by rw [encode, formatB_opcode]; rfl, by rw [encode]; exact formatB_mask _ _⟩

theorem RowOf.qnt (imm16 : BitVec 16) : RowOf.Statement (.qnt imm16) :=
  ⟨_, by rw [encode, formatH_opcode]; rfl, by rw [encode]; exact formatH_mask _ _⟩

theorem RowOf.decs : RowOf.Statement (.decs) :=
  ⟨_, by rw [encode, formatZ_opcode]; rfl, by rw [encode]; exact formatZ_mask _⟩

theorem RowOf.decf : RowOf.Statement (.decf) :=
  ⟨_, by rw [encode, formatZ_opcode]; rfl, by rw [encode]; exact formatZ_mask _⟩

theorem RowOf.lds (imm16 : BitVec 16) : RowOf.Statement (.lds imm16) :=
  ⟨_, by rw [encode, formatH_opcode]; rfl, by rw [encode]; exact formatH_mask _ _⟩

theorem RowOf.ends : RowOf.Statement (.ends) :=
  ⟨_, by rw [encode, formatZ_opcode]; rfl, by rw [encode]; exact formatZ_mask _⟩

theorem RowOf.clrf : RowOf.Statement (.clrf) :=
  ⟨_, by rw [encode, formatZ_opcode]; rfl, by rw [encode]; exact formatZ_mask _⟩

theorem RowOf.rst : RowOf.Statement (.rst) :=
  ⟨_, by rw [encode, formatZ_opcode]; rfl, by rw [encode]; exact formatZ_mask _⟩

end Sys2Proof.Laws
end

