-- ==== Sys2Proof/Laws/Rounding.lean ====
section
/-! SUPPORT. The synthesizer's integers are the roundings of the exact reals of R102 and R104. -/

namespace Sys2Proof.Laws

open Sys2Proof.Machine

/-! ### Round half to even -/

theorem reference_round_inside {r : ℝ} {t : ℤ} (l : (t : ℝ) - 1 / 2 < r) (u : r < t + 1 / 2) :
    Reference.roundHalfEven r = t := by
  unfold Reference.roundHalfEven
  rcases lt_or_ge r t with h | h
  · have f : ⌊r⌋ = t - 1 := by rw [Int.floor_eq_iff]; push_cast; constructor <;> linarith
    rw [f]; push_cast
    rw [if_neg (by linarith), if_pos (by linarith)]; ring
  · have f : ⌊r⌋ = t := by rw [Int.floor_eq_iff]; constructor <;> linarith
    rw [f, if_pos (by linarith)]

theorem reference_round_tie (t : ℤ) : Reference.roundHalfEven ((t : ℝ) + 1 / 2) = evenOf t := by
  have f : ⌊(t : ℝ) + 1 / 2⌋ = t := by rw [Int.floor_eq_iff]; constructor <;> linarith
  unfold Reference.roundHalfEven evenOf
  rw [f, if_neg (by linarith), if_neg (by linarith)]

/-- The rounding done on integers is the rounding of the real, if a real that is no tie keeps away from
the ties. -/
theorem roundHalfEven_exact (p e d : ℕ) (a : ℤ) (x X : ℝ) (hd : 0 < d) (ha : |(a : ℝ) - 2 ^ p * x| ≤ e)
    (hX : |x| ≤ X) (he : (4 * e : ℝ) < 2 ^ p)
    (sep : ∀ t : ℤ, |((2 * t + 1 : ℤ) : ℝ)| * d ≤ 2 * X + 1 → 2 * x - (2 * t + 1 : ℤ) * d ≠ 0 →
      (4 * e : ℝ) < 2 ^ p * |2 * x - (2 * t + 1 : ℤ) * d|) :
    roundHalfEven p e d a = Reference.roundHalfEven (x / d) := by
  have P : (0 : ℝ) < 2 ^ p := by positivity
  have hd' : (0 : ℝ) < d := by exact_mod_cast hd
  obtain ⟨a1, a2⟩ := abs_le.mp ha
  obtain ⟨x1, x2⟩ := abs_le.mp hX
  have e0 : (0 : ℝ) ≤ e := by positivity
  -- a tie that the integers cannot tell from the value is the value
  have tie : ∀ t : ℤ, |((2 * t + 1 : ℤ) : ℝ) * (d * 2 ^ p) - 2 * a| ≤ 2 * e → x / d = t + 1 / 2 := by
    intro t ht
    obtain ⟨t1, t2⟩ := abs_le.mp ht
    have bound : |((2 * t + 1 : ℤ) : ℝ)| * d ≤ 2 * X + 1 := by
      have : |((2 * t + 1 : ℤ) : ℝ) * (d * 2 ^ p)| ≤ (2 * X + 1) * 2 ^ p := by
        rw [abs_le]; constructor <;> nlinarith
      rw [abs_mul, abs_of_pos (by positivity : (0 : ℝ) < d * 2 ^ p), ← mul_assoc] at this
      exact le_of_mul_le_mul_right this P
    by_contra hne
    have nz : 2 * x - (2 * t + 1 : ℤ) * d ≠ 0 := by
      intro h0
      apply hne
      push_cast at h0
      field_simp
      linarith
    have s := sep t bound nz
    rw [← abs_of_pos P, ← abs_mul] at s
    have : |2 ^ p * (2 * x - (2 * t + 1 : ℤ) * d)| ≤ 4 * e := by
      rw [abs_le]; constructor <;> nlinarith
    linarith
  set u : ℤ := ((d * 2 ^ p : ℕ) : ℤ) with hu
  have u0 : 0 < u := by rw [hu]; positivity
  have uR : (u : ℝ) = d * 2 ^ p := by rw [hu]; push_cast; ring
  set t : ℤ := (2 * a + u) / (2 * u) with ht
  have t1 : (2 * t - 1) * u ≤ 2 * a := by
    have := Int.mul_ediv_self_le (x := 2 * a + u) (k := 2 * u) (by omega)
    rw [← ht] at this; linarith
  have t2 : 2 * a < (2 * t + 1) * u := by
    have := Int.lt_mul_ediv_self_add (x := 2 * a + u) (k := 2 * u) (by omega)
    rw [← ht] at this; linarith
  have t1R : (2 * (t : ℝ) - 1) * u ≤ 2 * a := by exact_mod_cast t1
  have t2R : 2 * (a : ℝ) < (2 * t + 1) * u := by exact_mod_cast t2
  have unf : roundHalfEven p e d a
      = if (2 * t + 1) * u - 2 * a ≤ 2 * (e : ℤ) then evenOf t
        else if 2 * a - (2 * t - 1) * u ≤ 2 * (e : ℤ) then evenOf (t - 1) else t := rfl
  rw [unf]
  split
  · next h =>
    have hR : (2 * (t : ℝ) + 1) * u - 2 * a ≤ 2 * e := by exact_mod_cast h
    have := tie t (by rw [← uR]; push_cast; rw [abs_le]; constructor <;> linarith)
    rw [this, reference_round_tie]
  · next h =>
    have hR : 2 * (e : ℝ) < (2 * t + 1) * u - 2 * a := by exact_mod_cast not_le.mp h
    split
    · next h' =>
      have hR' : 2 * (a : ℝ) - (2 * t - 1) * u ≤ 2 * e := by exact_mod_cast h'
      have := tie (t - 1) (by rw [← uR]; push_cast; rw [abs_le]; constructor <;> linarith)
      rw [this, reference_round_tie]
    · next h' =>
      have hR' : 2 * (e : ℝ) < 2 * a - (2 * t - 1) * u := by exact_mod_cast not_le.mp h'
      rw [uR] at hR hR'
      symm
      apply reference_round_inside
      · rw [lt_div_iff₀ hd']
        have : 2 ^ p * (((t : ℝ) - 1 / 2) * d) < 2 ^ p * x := by nlinarith
        exact lt_of_mul_lt_mul_left this P.le
      · rw [div_lt_iff₀ hd']
        have : 2 ^ p * x < 2 ^ p * (((t : ℝ) + 1 / 2) * d) := by nlinarith
        exact lt_of_mul_lt_mul_left this P.le

/-! ### The sum of cosines -/

/-- The sum of the cosines of some tones at sample `n`. -/
noncomputable def cosSum (cfg : Config) (tones : List ℕ) (n : ℕ) : ℝ :=
  (tones.map fun f : ℕ => Real.cos (2 * Real.pi * (f : ℝ) * n / cfg.fs)).sum

theorem grid_pos (cfg : Config) : 0 < grid cfg := Nat.gcd_pos_of_pos_right _ (by omega)

theorem grid_mul_period (cfg : Config) : grid cfg * period cfg = cfg.fs := Nat.mul_div_cancel' (Nat.gcd_dvd_left _ _)

theorem period_pos (cfg : Config) (h : 0 < cfg.fs) : 0 < period cfg := by
  have := grid_mul_period cfg
  exact Nat.pos_of_ne_zero fun e => by rw [e] at this; omega

/-- The reduced angle of a tone that is a multiple of 100 Hz has the tone's own cosine. -/
theorem cos_phase (cfg : Config) (h : 0 < cfg.fs) (f n : ℕ) (hf : 100 ∣ f) :
    Real.cos (2 * Real.pi * (phase cfg f n : ℕ) / period cfg) = Real.cos (2 * Real.pi * f * n / cfg.fs) := by
  unfold phase
  rw [cos_mod _ _ (period_pos cfg h)]
  congr 1
  have gp : (grid cfg : ℝ) ≠ 0 := by exact_mod_cast (grid_pos cfg).ne'
  have pp : (period cfg : ℝ) ≠ 0 := by exact_mod_cast (period_pos cfg h).ne'
  have e1 : (cfg.fs : ℝ) = grid cfg * period cfg := by exact_mod_cast (grid_mul_period cfg).symm
  have e2 : (f : ℝ) = grid cfg * (f / grid cfg : ℕ) := by
    exact_mod_cast (Nat.mul_div_cancel' ((Nat.gcd_dvd_right _ _).trans hf)).symm
  rw [e1]
  conv_rhs => rw [e2]
  push_cast
  field_simp

theorem phase_lt (cfg : Config) (h : 0 < cfg.fs) (f n : ℕ) : phase cfg f n < period cfg :=
  Nat.mod_lt _ (period_pos cfg h)

theorem toneSum_close (cfg : Config) (h : 0 < cfg.fs) (p : ℕ) (tones : List ℕ) (ht : ∀ f ∈ tones, 100 ∣ f) (n : ℕ) :
    |((toneSum cfg (rows (period cfg / 16 + 1) (cosTable p (period cfg))) tones n : Int) : ℝ) - 2 ^ p * cosSum cfg tones n|
      ≤ 2 * tones.length := by
  induction tones with
  | nil => simp [toneSum, cosSum]
  | cons f fs ih =>
    have a := ih fun g hg => ht g (List.mem_cons_of_mem _ hg)
    have b := entry_close p _ _ (phase_lt cfg h f n)
    rw [cos_phase cfg h f n (ht f List.mem_cons_self)] at b
    simp only [toneSum, cosSum, List.map_cons, List.sum_cons, List.length_cons] at a ⊢
    rw [Int.cast_add, Nat.cast_add, Nat.cast_one]
    rw [abs_le] at a b ⊢
    constructor <;> linarith [a.1, a.2, b.1, b.2]

theorem cosSum_abs (cfg : Config) (tones : List ℕ) (n : ℕ) : |cosSum cfg tones n| ≤ tones.length := by
  induction tones with
  | nil => simp [cosSum]
  | cons f fs ih =>
    simp only [cosSum, List.map_cons, List.sum_cons, List.length_cons] at ih ⊢
    refine (abs_add_le _ _).trans ?_
    have := Real.abs_cos_le_one (2 * Real.pi * f * n / cfg.fs)
    push_cast
    linarith

theorem cosSum_tame (cfg : Config) (h : 0 < cfg.fs) (tones : List ℕ) (ht : ∀ f ∈ tones, 100 ∣ f) (n : ℕ) :
    Tame (period cfg) (2 * tones.length) ((2 * cosSum cfg tones n : ℝ) : ℂ) := by
  induction tones with
  | nil => simpa [cosSum] using tame_int (period cfg) 0
  | cons f fs ih =>
    have a := ih fun g hg => ht g (List.mem_cons_of_mem _ hg)
    have b := tame_cos (period cfg) (period_pos cfg h) (phase cfg f n)
    rw [cos_phase cfg h f n (ht f List.mem_cons_self)] at b
    have c := b.add a
    simp only [cosSum, List.map_cons, List.sum_cons, List.length_cons] at c ⊢
    rw [← Complex.ofReal_add, ← mul_add] at c
    exact c.mono (by push_cast; linarith)

/-- Every rounded sample is the rounding of the exact real, at every amplitude. -/
theorem roundedSample_exact (cfg : Config) (h : 0 < cfg.fs) (tones : List ℕ) (ht : ∀ f ∈ tones, 100 ∣ f)
    (h4 : tones.length ≤ 4) (amp n : ℕ) (hamp : amp < 2 ^ 16) :
    roundedSample cfg (rows (period cfg / 16 + 1) (cosTable (synthPrecision cfg) (period cfg))) tones amp n
      = Reference.roundHalfEven (100 * amp * cosSum cfg tones n / (256 : ℕ)) := by
  set p := synthPrecision cfg with hp
  have P : (0 : ℝ) < 2 ^ p := by positivity
  have hq := period_pos cfg h
  have ampR : (amp : ℝ) ≤ 65535 := by exact_mod_cast (by omega : amp ≤ 65535)
  have amp0 : (0 : ℝ) ≤ amp := by positivity
  have l4 : (tones.length : ℝ) ≤ 4 := by exact_mod_cast h4
  have close := toneSum_close cfg h p tones ht n
  have size := cosSum_abs cfg tones n
  set S := toneSum cfg (rows (period cfg / 16 + 1) (cosTable p (period cfg))) tones n
  set c := cosSum cfg tones n
  have p28 : (2 : ℝ) ^ 28 ≤ 2 ^ p := pow_le_pow_right₀ (by norm_num) (by rw [hp, synthPrecision]; omega)
  refine roundHalfEven_exact p (8 * (pcmScale * amp)) 256 _ (100 * amp * c) (400 * amp) (by norm_num) ?_ ?_ ?_ ?_
  · have e : (((pcmScale * amp : ℕ) * S : ℤ) : ℝ) - 2 ^ p * (100 * amp * c) = 100 * amp * ((S : ℝ) - 2 ^ p * c) := by
      rw [pcmScale]; push_cast; ring
    rw [e, abs_mul, abs_of_nonneg (by positivity)]
    calc 100 * (amp : ℝ) * |(S : ℝ) - 2 ^ p * c| ≤ 100 * amp * 8 := by gcongr; linarith
      _ = _ := by rw [pcmScale]; push_cast; ring
  · rw [abs_mul, abs_of_nonneg (by positivity)]
    calc 100 * (amp : ℝ) * |c| ≤ 100 * amp * 4 := by gcongr; linarith
      _ = _ := by ring
  · rw [pcmScale]; push_cast
    calc 4 * (8 * (100 * (amp : ℝ))) ≤ 4 * (8 * (100 * 65535)) := by gcongr
      _ < 2 ^ 28 := by norm_num
      _ ≤ _ := p28
  · intro t bound nz
    have tame : Tame (period cfg) (2 ^ 27) ((2 * (100 * amp * c) - (2 * t + 1 : ℤ) * (256 : ℕ) : ℝ) : ℂ) := by
      have a := (tame_int (period cfg) (100 * amp : ℕ)).mul (cosSum_tame cfg h tones ht n)
      have b := a.sub (tame_int (period cfg) ((2 * t + 1) * 256))
      have e : ((100 * amp : ℕ) : ℤ) * ((2 * c : ℝ) : ℂ) - (((2 * t + 1) * 256 : ℤ) : ℂ)
          = ((2 * (100 * amp * c) - (2 * t + 1 : ℤ) * (256 : ℕ) : ℝ) : ℂ) := by push_cast; ring
      rw [e] at b
      refine b.mono ?_
      have b1 : |(((2 * t + 1) * 256 : ℤ) : ℝ)| ≤ 2 * (400 * amp) + 1 := by
        have : (((2 * t + 1) * 256 : ℤ) : ℝ) = ((2 * t + 1 : ℤ) : ℝ) * (256 : ℕ) := by push_cast; ring
        rw [this, abs_mul, Nat.abs_cast]; exact bound
      have b2 : |(((100 * amp : ℕ) : ℤ) : ℝ)| * (2 * tones.length) ≤ 100 * amp * 8 := by
        rw [Int.cast_natCast, Nat.abs_cast]; push_cast; gcongr; linarith
      norm_num at b1 b2 ⊢
      linarith
    have s := tame.separated hq (by exact_mod_cast nz) (by norm_num)
    rw [Complex.norm_real, Real.norm_eq_abs, ← pow_mul] at s
    set z := |2 * (100 * amp * c) - (2 * t + 1 : ℤ) * (256 : ℕ)|
    have tot : (period cfg).totient - 1 ≤ period cfg := (Nat.sub_le _ _).trans (Nat.totient_le _)
    have z0 : 0 ≤ z := abs_nonneg _
    have big : (2 : ℝ) ^ (27 * (Nat.totient (period cfg) - 1)) * 2 ^ 28 ≤ 2 ^ p := by
      rw [← pow_add]; exact pow_le_pow_right₀ (by norm_num) (by rw [hp, synthPrecision]; omega)
    have : (2 : ℝ) ^ 28 ≤ 2 ^ p * z := by
      calc (2 : ℝ) ^ 28 ≤ 2 ^ 28 * (z * 2 ^ (27 * (Nat.totient (period cfg) - 1))) := by nlinarith
        _ = (2 ^ (27 * (Nat.totient (period cfg) - 1)) * 2 ^ 28) * z := by ring
        _ ≤ _ := by gcongr
    rw [pcmScale]; push_cast
    have a3 : 4 * (8 * (100 * (amp : ℝ))) ≤ 4 * (8 * (100 * 65535)) := by gcongr
    norm_num at a3 this ⊢
    linarith

/-! ### A rendered block -/

theorem tonesOf_some (cfg : Config) (s : ℕ) (upper : Bool) (g : Signature) (hg : cfg.sigtab[s]? = some g) :
    tonesOf cfg s upper = [g.low, g.middle, g.high, caseTone s upper] := by simp [tonesOf, hg, Signature.toList]

theorem hundred_dvd_tones (cfg : Config) (hw : cfg.WellFormed) (s : ℕ) (upper : Bool) :
    ∀ f ∈ tonesOf cfg s upper, 100 ∣ f := by
  intro f hf
  unfold tonesOf at hf
  split at hf
  · next g hg =>
    rcases List.mem_append.mp hf with m | m
    · have := (hw.2.2.1 g (List.mem_of_getElem? hg)).2 f m
      revert this f
      have all : ∀ f ∈ restricted, 100 ∣ f := by decide
      exact fun f _ _ m => all f m
    · rw [List.mem_singleton] at m
      subst m
      unfold caseTone lowerTone upperTone
      split
      · decide
      · split <;> decide
  · cases hf

theorem tones_length (cfg : Config) (s : ℕ) (upper : Bool) : (tonesOf cfg s upper).length ≤ 4 := by
  unfold tonesOf; split <;> simp [Signature.toList]

/-- The amplitude times the sum of the cosines is the sample of R102. -/
theorem sample_cosSum (cfg : Config) (s : ℕ) (upper : Bool) (A : ℝ) (n : ℕ) :
    Reference.sample cfg s upper A n = A * cosSum cfg (tonesOf cfg s upper) n := by
  unfold Reference.sample
  split
  · next g hg =>
    rw [tonesOf_some cfg s upper g hg]
    simp [cosSum]; ring
  · next hg => simp [tonesOf, hg, cosSum]

/-- The integers the machine rounds to are `round_half_even(100 * x[n])` (R104) of the exact `x` (R102). -/
theorem synthRounded_exact (cfg : Config) (hw : cfg.WellFormed) (s : ℕ) (upper : Bool) (amp : ℕ) (hamp : amp < 2 ^ 16) :
    synthRounded cfg s upper amp
      = (Reference.synth cfg s upper ((amp : ℝ) / 256)).map fun r : ℝ => Reference.roundHalfEven (100 * r) := by
  have h : 0 < cfg.fs := lt_of_lt_of_le (by decide) hw.1
  unfold synthRounded Reference.synth
  rw [withCosTable_eq, List.map_map]
  refine List.map_congr_left fun n _ => ?_
  rw [roundedSample_exact cfg h _ (hundred_dvd_tones cfg hw s upper) (tones_length cfg s upper) amp n hamp,
    Function.comp_apply, sample_cosSum]
  congr 1
  push_cast; ring

theorem saturate_eq (v : ℤ) : saturate v = (Reference.saturated v, decide (v > 32767 ∨ v < -32768)) := by
  unfold saturate Reference.saturated
  split
  · simp [*]
  · split <;> simp [*]

/-- The block SYN and ENC append is `pcm(synth(s, upper, amp/256))` of R102 and R104, exactly. -/
theorem pcmBlock_exact (cfg : Config) (hw : cfg.WellFormed) (s : ℕ) (upper : Bool) (amp : ℕ) (hamp : amp < 2 ^ 16) :
    pcmBlock cfg s upper amp
      = ((Reference.pcm (Reference.synth cfg s upper ((amp : ℝ) / 256))).1.map sampleOfInt,
        (Reference.pcm (Reference.synth cfg s upper ((amp : ℝ) / 256))).2) := by
  unfold pcmBlock Reference.pcm
  rw [forcedList_eq, synthRounded_exact cfg hw s upper amp hamp]
  simp only [saturate_eq, List.map_map, Function.comp_def]

end Sys2Proof.Laws
end

