-- ==== Sys2Proof/Laws/Spectral.lean ====
section
/-! SUPPORT. The spectral decoder's integers decide every comparison as the exact magnitudes of R132 do, so
`specDecode` is `spec_decode` of R137. -/

namespace Sys2Proof.Laws

open Sys2Proof.Machine

/-! ### Correlations -/

/-- The sum of `x[n] * c n`. -/
noncomputable def dot (x : List ℤ) (c : ℕ → ℝ) : ℝ := ∑ n ∈ Finset.range x.length, ((x.getD n 0 : ℤ) : ℝ) * c n

theorem dot_cons (a : ℤ) (x : List ℤ) (c : ℕ → ℝ) : dot (a :: x) c = a * c 0 + dot x fun n => c (n + 1) := by
  simp [dot, Finset.sum_range_succ', add_comm]

/-- The sum of the absolute values. -/
def weight (x : List ℤ) : ℕ := (x.map Int.natAbs).sum

theorem weight_le (x : List ℤ) (m : ℕ) (h : ∀ a ∈ x, a.natAbs ≤ m) : weight x ≤ x.length * m := by
  induction x with
  | nil => simp [weight]
  | cons a x ih =>
    have := ih fun b hb => h b (List.mem_cons_of_mem _ hb)
    have := h a List.mem_cons_self
    simp only [weight, List.map_cons, List.sum_cons, List.length_cons] at *
    rw [Nat.succ_mul]; omega

theorem dot_abs (x : List ℤ) (c : ℕ → ℝ) (e : ℝ) (he : ∀ n, |c n| ≤ e) : |dot x c| ≤ weight x * e := by
  induction x generalizing c with
  | nil => simp [dot, weight]
  | cons a x ih =>
    rw [dot_cons]
    refine (abs_add_le _ _).trans ?_
    have := ih (fun n => c (n + 1)) fun n => he _
    have h2 : |(a : ℝ) * c 0| ≤ |(a : ℝ)| * e := by rw [abs_mul]; gcongr; exact he 0
    have w : ((weight (a :: x) : ℕ) : ℝ) = |(a : ℝ)| + weight x := by
      simp only [weight, List.map_cons, List.sum_cons]
      rw [Nat.cast_add, Nat.cast_natAbs, Int.cast_abs]
    rw [w, add_mul]; linarith

theorem dot_sub (x : List ℤ) (c d : ℕ → ℝ) : dot x c - dot x d = dot x fun n => c n - d n := by
  simp [dot, mul_sub]

theorem dot_smul (x : List ℤ) (c : ℕ → ℝ) (m : ℝ) : m * dot x c = dot x fun n => m * c n := by
  simp only [dot, Finset.mul_sum]
  exact Finset.sum_congr rfl fun _ _ => by ring

theorem correlate_eq (table : List (List ℤ)) (k : ℕ) (x : List ℤ) (j : ℕ) (acc : ℤ) (hj : j < 320) :
    ((correlate table k x j acc : ℤ) : ℝ) = acc + dot x fun n => ((entry table ((j + k * n) % 320) : ℤ) : ℝ) := by
  induction x generalizing j acc with
  | nil => simp [correlate, dot]
  | cons b bs ih =>
    simp only [correlate, forced_eq, forcedNat_eq]
    rw [ih _ _ (Nat.mod_lt _ (by norm_num)), dot_cons]
    have e : ∀ n, ((j + k) % 320 + k * n) % 320 = (j + k * (n + 1)) % 320 := by
      intro n; rw [Nat.mod_add_mod]; congr 1; ring
    simp only [e, mul_zero, add_zero, Nat.mod_eq_of_lt hj]
    by_cases hb : b = 0
    · simp [hb]
    · simp [hb, add_assoc]

/-- The correlation the machine computes is `2^p` times the sum of cosines, to within 2 per unit of the block. -/
theorem correlate_close (p k : ℕ) (x : List ℤ) (j : ℕ) (hj : j < 320) :
    |((correlate (rows (320 / 16 + 1) (cosTable p 320)) k x j 0 : ℤ) : ℝ)
        - 2 ^ p * dot x fun n => Real.cos (2 * Real.pi * ((j + k * n : ℕ) : ℝ) / (320 : ℕ))| ≤ weight x * 2 := by
  rw [correlate_eq _ _ _ _ _ hj, Int.cast_zero, zero_add, dot_smul, dot_sub]
  refine dot_abs _ _ _ fun n => ?_
  have := entry_close p 320 ((j + k * n) % 320) (Nat.mod_lt _ (by norm_num))
  rwa [cos_mod _ _ (by norm_num)] at this

/-! ### Folding -/

theorem foldMiddle_length (sign : ℤ) (h : ℕ) (x : List ℤ) (hx : x.length = 2 * h + 1) :
    (foldMiddle sign h x).length = h + 1 := by
  simp [foldMiddle, hx]; omega

theorem foldMiddle_getD (sign : ℤ) (h : ℕ) (x : List ℤ) (hx : x.length = 2 * h + 1) (n : ℕ) :
    (foldMiddle sign h x).getD n 0
      = if n < h then x.getD n 0 + sign * x.getD (2 * h - n) 0 else if n = h then x.getD h 0 else 0 := by
  have l1 : (List.zipWith (fun a b => a + sign * b) (x.take h) (x.reverse.take h)).length = h := by simp [hx]; omega
  rw [foldMiddle, List.getD_eq_getElem?_getD, List.getElem?_append, l1]
  split
  · next hn =>
    rw [List.getElem?_eq_getElem (by rw [l1]; exact hn), Option.getD_some, List.getElem_zipWith, List.getElem_take,
      List.getElem_take, List.getElem_reverse]
    rw [List.getD_eq_getElem _ _ (by omega), List.getD_eq_getElem _ _ (by omega)]
    congr 3
    omega
  · next hn =>
    split
    · next e =>
      subst e
      rw [Nat.sub_self, List.getElem?_take, if_pos (by norm_num), List.getElem?_drop, add_zero, List.getD_eq_getElem?_getD]
    · next e =>
      rw [List.getElem?_eq_none (by simp; omega)]; rfl

/-- Folding keeps a sum whose coefficients have the symmetry. -/
theorem dot_foldMiddle (sign : ℤ) (h : ℕ) (x : List ℤ) (hx : x.length = 2 * h + 1) (c : ℕ → ℝ)
    (hc : ∀ n < h, c (2 * h - n) = sign * c n) : dot (foldMiddle sign h x) c = dot x c := by
  have split : ∀ f : ℕ → ℝ, ∑ n ∈ Finset.range (2 * h + 1), f n
      = (∑ n ∈ Finset.range h, (f n + f (2 * h - n))) + f h := by
    intro f
    rw [show 2 * h + 1 = (h + 1) + h by ring, Finset.sum_range_add, Finset.sum_range_succ,
      ← Finset.sum_range_reflect (fun x => f (h + 1 + x)), Finset.sum_add_distrib]
    have : ∑ j ∈ Finset.range h, f (h + 1 + (h - 1 - j)) = ∑ j ∈ Finset.range h, f (2 * h - j) := by
      refine Finset.sum_congr rfl fun j hj => ?_
      rw [Finset.mem_range] at hj
      congr 1; omega
    rw [this]; ring
  unfold dot
  rw [foldMiddle_length sign h x hx, hx, split, Finset.sum_range_succ]
  congr 1
  · refine Finset.sum_congr rfl fun n hn => ?_
    rw [Finset.mem_range] at hn
    rw [foldMiddle_getD sign h x hx, if_pos hn, hc n hn]
    push_cast; ring
  · rw [foldMiddle_getD sign h x hx, if_neg (lt_irrefl h), if_pos rfl]

theorem getD_natAbs (x : List ℤ) (m : ℕ) (h : ∀ a ∈ x, a.natAbs ≤ m) (n : ℕ) : (x.getD n 0).natAbs ≤ m := by
  rw [List.getD_eq_getElem?_getD]
  rcases lt_or_ge n x.length with l | l
  · rw [List.getElem?_eq_getElem l]; exact h _ (List.getElem_mem l)
  · rw [List.getElem?_eq_none l]; simp

theorem foldMiddle_natAbs (sign : ℤ) (hs : sign.natAbs = 1) (h : ℕ) (x : List ℤ) (hx : x.length = 2 * h + 1) (m : ℕ)
    (hm : ∀ a ∈ x, a.natAbs ≤ m) : ∀ a ∈ foldMiddle sign h x, a.natAbs ≤ 2 * m := by
  intro a ha
  obtain ⟨n, hn, rfl⟩ := List.getElem_of_mem ha
  have e := foldMiddle_getD sign h x hx n
  rw [List.getD_eq_getElem _ _ hn] at e
  rw [e]
  have b := getD_natAbs x m hm
  split
  · have := Int.natAbs_add_le (x.getD n 0) (sign * x.getD (2 * h - n) 0)
    rw [Int.natAbs_mul, hs, one_mul] at this
    have := b n; have := b (2 * h - n); omega
  · split
    · have := b h; omega
    · simp

/-- What the folded blocks share. -/
theorem foldBlock_facts (sign : ℤ) (hs : sign.natAbs = 1) (odd : Bool) (b : List ℤ) (hb : b.length = 320)
    (hm : ∀ a ∈ b, a.natAbs ≤ 32768) :
    (foldBlock sign odd b).length = 81 ∧ ∀ a ∈ foldBlock sign odd b, a.natAbs ≤ 131072 := by
  have l0 : (b ++ [0]).length = 2 * 160 + 1 := by simp [hb]
  have l1 := foldMiddle_length sign 160 (b ++ [0]) l0
  have m0 : ∀ a ∈ b ++ [0], a.natAbs ≤ 32768 := by
    intro a ha
    rcases List.mem_append.mp ha with h | h
    · exact hm a h
    · rw [List.mem_singleton] at h; subst h; simp
  have m1 := foldMiddle_natAbs sign hs 160 _ l0 _ m0
  have hs' : (if odd then -sign else sign).natAbs = 1 := by split <;> simp [hs]
  refine ⟨foldMiddle_length _ 80 _ l1, ?_⟩
  exact foldMiddle_natAbs _ hs' 80 _ l1 _ m1

theorem foldBlock_weight (sign : ℤ) (hs : sign.natAbs = 1) (odd : Bool) (b : List ℤ) (hb : b.length = 320)
    (hm : ∀ a ∈ b, a.natAbs ≤ 32768) : weight (foldBlock sign odd b) ≤ 10616832 := by
  obtain ⟨l, m⟩ := foldBlock_facts sign hs odd b hb hm
  have := weight_le _ _ m
  rw [l] at this; exact this

theorem dot_foldBlock (sign : ℤ) (odd : Bool) (b : List ℤ) (hb : b.length = 320) (c : ℕ → ℝ)
    (h1 : ∀ n < 160, c (320 - n) = sign * c n) (h2 : ∀ n < 80, c (160 - n) = (if odd then -sign else sign : ℤ) * c n) :
    dot (foldBlock sign odd b) c = dot b c := by
  have l0 : (b ++ [0]).length = 2 * 160 + 1 := by simp [hb]
  have l1 := foldMiddle_length sign 160 (b ++ [0]) l0
  rw [foldBlock, dot_foldMiddle _ 80 _ l1 c h2, dot_foldMiddle _ 160 _ l0 c h1]
  unfold dot
  rw [l0, hb, Finset.sum_range_succ]
  have last : (b ++ [0]).getD (2 * 160) 0 = 0 := by
    rw [List.getD_eq_getElem?_getD, List.getElem?_append_right (by omega), hb]; rfl
  rw [last]
  simp only [Int.cast_zero, zero_mul, add_zero]
  refine Finset.sum_congr rfl fun n hn => ?_
  rw [Finset.mem_range] at hn
  rw [List.getD_eq_getElem?_getD, List.getElem?_append_left (by omega), List.getD_eq_getElem?_getD]

/-! ### The symmetries of the cosine and the sine of a bin -/

/-- The cosine of bin `k` at sample `n` (R131). -/
noncomputable def cosBin (k n : ℕ) : ℝ := Real.cos (2 * Real.pi * k * n / 320)

/-- The sine of bin `k` at sample `n` (R131). -/
noncomputable def sinBin (k n : ℕ) : ℝ := Real.sin (2 * Real.pi * k * n / 320)

theorem bin_reflect (k n : ℕ) (hn : n ≤ 320) :
    2 * Real.pi * k * (320 - n : ℕ) / 320 = k * (2 * Real.pi) - 2 * Real.pi * k * n / 320 := by
  push_cast [Nat.cast_sub hn]; ring

theorem bin_half (k n : ℕ) (hn : n ≤ 160) :
    2 * Real.pi * k * (160 - n : ℕ) / 320 = k * Real.pi - 2 * Real.pi * k * n / 320 := by
  push_cast [Nat.cast_sub hn]; ring

theorem cosBin_reflect (k n : ℕ) (hn : n < 160) : cosBin k (320 - n) = (1 : ℤ) * cosBin k n := by
  rw [cosBin, bin_reflect k n (by omega), Real.cos_nat_mul_two_pi_sub]; simp [cosBin]

theorem sinBin_reflect (k n : ℕ) (hn : n < 160) : sinBin k (320 - n) = (-1 : ℤ) * sinBin k n := by
  rw [sinBin, bin_reflect k n (by omega), Real.sin_nat_mul_two_pi_sub]; simp [sinBin]

/-- The sign of `(-1)^k`, as the folds take it. -/
theorem parity_sign (k : ℕ) (sign : ℤ) :
    (((if decide (k % 2 = 1) then -sign else sign : ℤ)) : ℝ) = (-1) ^ k * sign := by
  rcases Nat.even_or_odd k with h | h
  · rw [h.neg_one_pow, if_neg (by simpa using Nat.even_iff.mp h)]; ring
  · rw [h.neg_one_pow, if_pos (by simpa using Nat.odd_iff.mp h)]; push_cast; ring

theorem cosBin_half (k n : ℕ) (hn : n < 80) :
    cosBin k (160 - n) = (if decide (k % 2 = 1) then -1 else 1 : ℤ) * cosBin k n := by
  rw [parity_sign k 1, cosBin, bin_half k n (by omega), Real.cos_nat_mul_pi_sub]; simp [cosBin]

theorem sinBin_half (k n : ℕ) (hn : n < 80) :
    sinBin k (160 - n) = (if decide (k % 2 = 1) then -(-1) else -1 : ℤ) * sinBin k n := by
  rw [parity_sign k (-1), sinBin, bin_half k n (by omega), Real.sin_nat_mul_pi_sub]; simp [sinBin]

theorem table_cos (k n : ℕ) : Real.cos (2 * Real.pi * ((0 + k * n : ℕ) : ℝ) / (320 : ℕ)) = cosBin k n := by
  rw [cosBin]; congr 1; push_cast; ring

theorem table_sin (k n : ℕ) : Real.cos (2 * Real.pi * ((240 + k * n : ℕ) : ℝ) / (320 : ℕ)) = sinBin k n := by
  have : 2 * Real.pi * ((240 + k * n : ℕ) : ℝ) / (320 : ℕ) = 2 * Real.pi * k * n / 320 - Real.pi / 2 + 2 * Real.pi := by
    push_cast; ring
  rw [this, Real.cos_add_two_pi, Real.cos_sub_pi_div_two, sinBin]

/-! ### The power of a bin -/

/-- The square of `160 * MAG[k]` (R132). -/
noncomputable def binPower (b : List ℤ) (k : ℕ) : ℝ := Reference.re b k ^ 2 + Reference.im b k ^ 2

theorem re_eq_dot (b : List ℤ) (hb : b.length = 320) (k : ℕ) : Reference.re b k = dot b (cosBin k) := by
  rw [Reference.re, dot, hb]; rfl

theorem im_eq_dot (b : List ℤ) (hb : b.length = 320) (k : ℕ) : Reference.im b k = -dot b (sinBin k) := by
  rw [Reference.im, dot, hb]; rfl

theorem mag_eq (b : List ℤ) (k : ℕ) : Reference.mag b k = 2 / 320 * Real.sqrt (binPower b k) := rfl

theorem mag_lt (b : List ℤ) (j k : ℕ) : Reference.mag b j < Reference.mag b k ↔ binPower b j < binPower b k := by
  rw [mag_eq, mag_eq, mul_lt_mul_iff_right₀ (by norm_num), Real.sqrt_lt_sqrt_iff (by unfold binPower; positivity)]

theorem mag_eq_iff (b : List ℤ) (j k : ℕ) : Reference.mag b j = Reference.mag b k ↔ binPower b j = binPower b k := by
  rw [mag_eq, mag_eq, mul_right_inj' (by norm_num), Real.sqrt_inj (by unfold binPower; positivity) (by unfold binPower; positivity)]

theorem square_close (A P a w : ℝ) (hP : 1 ≤ P) (hw : 0 ≤ w) (h : |A - P * a| ≤ w * 2) (ha : |a| ≤ w) :
    |A * A - P ^ 2 * a ^ 2| ≤ 4 * w ^ 2 * (P + 1) := by
  have e : A * A - P ^ 2 * a ^ 2 = (A - P * a) * ((A - P * a) + 2 * P * a) := by ring
  rw [e, abs_mul]
  have h2 : |(A - P * a) + 2 * P * a| ≤ w * 2 + 2 * P * w := by
    refine (abs_add_le _ _).trans (add_le_add h ?_)
    rw [abs_mul, abs_of_nonneg (by linarith)]; gcongr
  calc |A - P * a| * |(A - P * a) + 2 * P * a| ≤ (w * 2) * (w * 2 + 2 * P * w) :=
        mul_le_mul h h2 (abs_nonneg _) (by positivity)
    _ = _ := by ring

/-- The machine's power of a bin is the real one at scale `2^(2p)`, to within `2^(p+50)`. -/
theorem power_close (p : ℕ) (b : List ℤ) (hb : b.length = 320) (hm : ∀ a ∈ b, a.natAbs ≤ 32768) (k : ℕ) (hp : 20 ≤ p) :
    |((power (rows (320 / 16 + 1) (cosTable p 320)) (foldBlock 1 (decide (k % 2 = 1)) b)
        (foldBlock (-1) (decide (k % 2 = 1)) b) k : ℤ) : ℝ) - (2 ^ p) ^ 2 * binPower b k| ≤ 2 ^ (p + 50) := by
  have c := correlate_close p k (foldBlock 1 (decide (k % 2 = 1)) b) 0 (by norm_num)
  have s := correlate_close p k (foldBlock (-1) (decide (k % 2 = 1)) b) 240 (by norm_num)
  simp only [table_cos] at c
  simp only [table_sin] at s
  have dc := dot_foldBlock 1 (decide (k % 2 = 1)) b hb (cosBin k) (cosBin_reflect k) (cosBin_half k)
  have ds := dot_foldBlock (-1) (decide (k % 2 = 1)) b hb (sinBin k) (sinBin_reflect k) (sinBin_half k)
  have ac := dot_abs (foldBlock 1 (decide (k % 2 = 1)) b) (cosBin k) 1 fun n => Real.abs_cos_le_one _
  have as := dot_abs (foldBlock (-1) (decide (k % 2 = 1)) b) (sinBin k) 1 fun n => Real.abs_sin_le_one _
  have wc : ((weight (foldBlock 1 (decide (k % 2 = 1)) b) : ℕ) : ℝ) ≤ 10616832 := by
    exact_mod_cast foldBlock_weight 1 rfl _ b hb hm
  have ws : ((weight (foldBlock (-1) (decide (k % 2 = 1)) b) : ℕ) : ℝ) ≤ 10616832 := by
    exact_mod_cast foldBlock_weight (-1) rfl _ b hb hm
  rw [show (fun n => cosBin k n) = cosBin k from rfl, dc] at c
  rw [show (fun n => sinBin k n) = sinBin k from rfl, ds] at s
  rw [dc] at ac
  rw [ds] at as
  have P1 : (1 : ℝ) ≤ 2 ^ p := one_le_pow₀ (by norm_num)
  have qc := square_close _ _ _ 10616832 P1 (by norm_num) (c.trans (by linarith)) (ac.trans (by linarith))
  have qs := square_close _ _ _ 10616832 P1 (by norm_num) (s.trans (by linarith)) (as.trans (by linarith))
  unfold power binPower
  simp only [forced_eq]
  rw [re_eq_dot b hb, im_eq_dot b hb, neg_sq]
  set A := correlate (rows (320 / 16 + 1) (cosTable p 320)) k (foldBlock 1 (decide (k % 2 = 1)) b) 0 0
  set B := correlate (rows (320 / 16 + 1) (cosTable p 320)) k (foldBlock (-1) (decide (k % 2 = 1)) b) 240 0
  set x := dot b (cosBin k)
  set y := dot b (sinBin k)
  have e : ((A * A + B * B : ℤ) : ℝ) - (2 ^ p) ^ 2 * (x ^ 2 + y ^ 2)
      = ((A : ℝ) * A - (2 ^ p) ^ 2 * x ^ 2) + ((B : ℝ) * B - (2 ^ p) ^ 2 * y ^ 2) := by push_cast; ring
  rw [e]
  refine (abs_add_le _ _).trans ((add_le_add qc qs).trans ?_)
  have P20 : (2 : ℝ) ^ 20 ≤ 2 ^ p := pow_le_pow_right₀ (by norm_num) hp
  rw [pow_add]
  norm_num at P20 ⊢
  linarith

/-! ### Separation -/

theorem root_pow_eq (k n : ℕ) : root 320 ^ (k * n) = cosBin k n + sinBin k n * Complex.I := by
  have e : ((k * n : ℕ) : ℂ) * (2 * Real.pi * Complex.I / (320 : ℕ)) = ((2 * Real.pi * k * n / 320 : ℝ) : ℂ) * Complex.I := by
    push_cast; ring
  rw [root, ← Complex.exp_nat_mul, e, Complex.exp_mul_I, cosBin, sinBin, Complex.ofReal_cos, Complex.ofReal_sin]

theorem root_pow_conj (k n : ℕ) : root 320 ^ (319 * (k * n)) = cosBin k n - sinBin k n * Complex.I := by
  have h : root 320 ^ (319 * (k * n)) = root 320 ^ ((319 * k) * n) := by rw [mul_assoc]
  have c : cosBin (319 * k) n = cosBin k n := by
    have : 2 * Real.pi * ((319 * k : ℕ) : ℝ) * n / 320 = ((k * n : ℕ) : ℝ) * (2 * Real.pi) - 2 * Real.pi * k * n / 320 := by
      push_cast; ring
    rw [cosBin, this, Real.cos_nat_mul_two_pi_sub, cosBin]
  have s : sinBin (319 * k) n = -sinBin k n := by
    have : 2 * Real.pi * ((319 * k : ℕ) : ℝ) * n / 320 = ((k * n : ℕ) : ℝ) * (2 * Real.pi) - 2 * Real.pi * k * n / 320 := by
      push_cast; ring
    rw [sinBin, this, Real.sin_nat_mul_two_pi_sub, sinBin]
  rw [h, root_pow_eq, c, s]; push_cast; ring

theorem tame_sum (q : ℕ) (hq : 0 < q) (b : List ℤ) (j : ℕ → ℕ) (N : ℕ) :
    Tame q (∑ n ∈ Finset.range N, |((b.getD n 0 : ℤ) : ℝ)|) (∑ n ∈ Finset.range N, ((b.getD n 0 : ℤ) : ℂ) * root q ^ j n) := by
  induction N with
  | zero => simpa using tame_int q 0
  | succ N ih =>
    rw [Finset.sum_range_succ, Finset.sum_range_succ]
    have := (tame_int q (b.getD N 0)).mul ((tame_root q hq).pow (j N))
    rw [one_pow, mul_one] at this
    exact ih.add this

theorem binPower_tame (b : List ℤ) (hb : b.length = 320) (hm : ∀ a ∈ b, a.natAbs ≤ 32768) (k : ℕ) :
    Tame 320 (10485760 * 10485760) ((binPower b k : ℝ) : ℂ) := by
  have size : ∑ n ∈ Finset.range 320, |((b.getD n 0 : ℤ) : ℝ)| ≤ 10485760 := by
    have : ∑ n ∈ Finset.range 320, |((b.getD n 0 : ℤ) : ℝ)| ≤ ∑ n ∈ Finset.range 320, (32768 : ℝ) := by
      refine Finset.sum_le_sum fun n _ => ?_
      have := getD_natAbs b _ hm n
      rw [← Int.cast_abs, ← Nat.cast_natAbs]; exact_mod_cast this
    refine this.trans ?_
    rw [Finset.sum_const, Finset.card_range]; norm_num
  have a := (tame_sum 320 (by norm_num) b (fun n => k * n) 320).mono size
  have c := (tame_sum 320 (by norm_num) b (fun n => 319 * (k * n)) 320).mono size
  have m := a.mul c
  have e1 : ∑ n ∈ Finset.range 320, ((b.getD n 0 : ℤ) : ℂ) * root 320 ^ (k * n)
      = (dot b (cosBin k) : ℂ) + (dot b (sinBin k) : ℂ) * Complex.I := by
    rw [dot, dot, hb]; push_cast
    rw [Finset.sum_mul, ← Finset.sum_add_distrib]
    exact Finset.sum_congr rfl fun n _ => by rw [root_pow_eq]; ring
  have e2 : ∑ n ∈ Finset.range 320, ((b.getD n 0 : ℤ) : ℂ) * root 320 ^ (319 * (k * n))
      = (dot b (cosBin k) : ℂ) - (dot b (sinBin k) : ℂ) * Complex.I := by
    rw [dot, dot, hb]; push_cast
    rw [Finset.sum_mul, ← Finset.sum_sub_distrib]
    exact Finset.sum_congr rfl fun n _ => by rw [root_pow_conj]; ring
  rw [e1, e2] at m
  have e3 : ((dot b (cosBin k) : ℂ) + (dot b (sinBin k) : ℂ) * Complex.I) * ((dot b (cosBin k) : ℂ) - (dot b (sinBin k) : ℂ) * Complex.I)
      = ((binPower b k : ℝ) : ℂ) := by
    rw [binPower, re_eq_dot b hb, im_eq_dot b hb]
    push_cast
    linear_combination -(dot b (sinBin k) : ℂ) ^ 2 * Complex.I_sq
  rwa [e3] at m

theorem totient_320 : Nat.totient 320 = 128 := by
  rw [show 320 = 64 * 5 by norm_num, Nat.totient_mul (by norm_num), show 64 = 2 ^ 6 by norm_num,
    Nat.totient_prime_pow Nat.prime_two (by norm_num), Nat.totient_prime Nat.prime_five]
  norm_num

/-- Two powers that differ are further apart than the tolerance. -/
theorem binPower_apart (b : List ℤ) (hb : b.length = 320) (hm : ∀ a ∈ b, a.natAbs ≤ 32768) (i j : ℕ)
    (h : binPower b i ≠ binPower b j) :
    2 * ((spectralTolerance : ℤ) : ℝ) < (2 ^ spectralPrecision) ^ 2 * |binPower b i - binPower b j| := by
  have t := (binPower_tame b hb hm i).sub (binPower_tame b hb hm j)
  rw [← Complex.ofReal_sub] at t
  have s := (t.mono (by norm_num : (10485760 * 10485760 + 10485760 * 10485760 : ℝ) ≤ 2 ^ 48)).separated (by norm_num)
    (by exact_mod_cast sub_ne_zero.mpr h) (by norm_num)
  rw [Complex.norm_real, Real.norm_eq_abs, totient_320, ← pow_mul] at s
  set z := |binPower b i - binPower b j|
  have z0 : 0 ≤ z := abs_nonneg _
  have e : ((spectralTolerance : ℤ) : ℝ) = 2 ^ (6200 + 51) := by
    rw [spectralTolerance, spectralPrecision, Int.cast_natCast, Nat.cast_pow, Nat.cast_ofNat]
  rw [e, spectralPrecision, ← pow_mul]
  calc 2 * (2 : ℝ) ^ (6200 + 51) = 2 ^ 6252 := by rw [← pow_succ']
    _ ≤ 2 ^ 6252 * (z * 2 ^ (48 * (128 - 1))) := le_mul_of_one_le_right (by positivity) s
    _ = 2 ^ 12348 * z := by rw [mul_comm z, ← mul_assoc, ← pow_add]
    _ < 2 ^ (6200 * 2) * z := by
      have zp : 0 < z := abs_pos.mpr (sub_ne_zero.mpr h)
      exact mul_lt_mul_of_pos_right (pow_lt_pow_right₀ (by norm_num) (by norm_num)) zp

/-! ### The quantizer over the reals -/

theorem distance_scaled (num den f : ℕ) (hd : 0 < den) :
    ((((num : ℤ) - (den : ℤ) * (f : ℤ)).natAbs : ℕ) : ℝ) = den * |(num : ℝ) / den - f| := by
  have d0 : (0 : ℝ) < den := by exact_mod_cast hd
  have e : (((num : ℤ) - (den : ℤ) * (f : ℤ) : ℤ) : ℝ) = den * ((num : ℝ) / den - f) := by push_cast; field_simp
  rw [Nat.cast_natAbs, Int.cast_abs, e, abs_mul, abs_of_pos d0]

theorem quantizeLoop_exact (num den : ℕ) (hd : 0 < den) (l : List ℕ) (i best bd : ℕ) (r : ℝ) (hr : (bd : ℝ) = den * r) :
    quantizeLoop num den l i best bd = Reference.quantizeLoop ((num : ℝ) / den) l i best r := by
  induction l generalizing i best bd r with
  | nil => rfl
  | cons f fs ih =>
    have d0 : (0 : ℝ) < den := by exact_mod_cast hd
    have e := distance_scaled num den f hd
    have c : ((num : ℤ) - (den : ℤ) * (f : ℤ)).natAbs < bd ↔ |(num : ℝ) / den - f| < r := by
      rw [← mul_lt_mul_iff_right₀ d0, ← e, ← hr, Nat.cast_lt]
    simp only [quantizeLoop, Reference.quantizeLoop, c]
    split
    · exact ih _ _ _ _ e
    · exact ih _ _ _ _ hr

/-- The quantizer of R120 on an exact quotient. -/
theorem quantize_exact (num den : ℕ) (hd : 0 < den) : quantize num den = Reference.quantize ((num : ℝ) / den) :=
  quantizeLoop_exact num den hd _ _ _ _ _ (distance_scaled num den 100 hd)

/-! ### The decoder -/

theorem binPowers_eq (b : List ℤ) : binPowers b = (List.range 161).map fun k =>
    power (rows (320 / 16 + 1) (cosTable spectralPrecision 320)) (foldBlock 1 (decide (k % 2 = 1)) b)
      (foldBlock (-1) (decide (k % 2 = 1)) b) k := by
  unfold binPowers
  simp only [forcedList_eq, withCosTable_eq]
  refine List.map_congr_left fun k _ => ?_
  split
  · next h => rw [decide_eq_false (by omega)]
  · next h => rw [decide_eq_true (by omega)]

/-- DECS decides with the exact magnitudes: the machine's decoder is `spec_decode` (R137). -/
theorem specDecode_exact (cfg : Config) (b : List ℤ) (hb : b.length = 320) (hm : ∀ a ∈ b, a.natAbs ≤ 32768) :
    specDecode cfg b = Reference.specDecode cfg b := by
  set f : ℕ → ℤ := fun k => power (rows (320 / 16 + 1) (cosTable spectralPrecision 320))
    (foldBlock 1 (decide (k % 2 = 1)) b) (foldBlock (-1) (decide (k % 2 = 1)) b) k with hf
  have half : ((spectralTolerance : ℤ) : ℝ) / 2 = 2 ^ (spectralPrecision + 50) := by
    rw [spectralTolerance, Int.cast_natCast, Nat.cast_pow, Nat.cast_ofNat, pow_succ]; ring
  have close : ∀ k, |((f k : ℤ) : ℝ) - (2 ^ spectralPrecision) ^ 2 * binPower b k| ≤ ((spectralTolerance : ℤ) : ℝ) / 2 := by
    intro k
    rw [half]
    exact power_close spectralPrecision b hb hm k (by norm_num [spectralPrecision])
  have scale : (0 : ℝ) < (2 ^ spectralPrecision) ^ 2 := by positivity
  have sep : ∀ i j, binPower b i ≠ binPower b j → spectralTolerance < |f i - f j| := fun i j h =>
    apart _ _ _ _ _ _ scale (close i) (close j) (binPower_apart b hb hm i j h)
  have tol0 : (0 : ℤ) ≤ spectralTolerance := Int.natCast_nonneg _
  have same : ∀ i j, (f i - f j).natAbs ≤ spectralTolerance.natAbs ↔ binPower b i = binPower b j := by
    intro i j
    constructor
    · intro h
      by_contra c
      have := sep i j c
      rw [Int.abs_eq_natAbs] at this
      omega
    · intro h
      have ci := abs_le.mp (close i)
      have cj := abs_le.mp (close j)
      rw [h] at ci
      have : |((f i - f j : ℤ) : ℝ)| ≤ ((spectralTolerance : ℤ) : ℝ) := by
        push_cast; rw [abs_le]; constructor <;> linarith [ci.1, ci.2, cj.1, cj.2]
      have : |f i - f j| ≤ spectralTolerance := by exact_mod_cast this
      rw [Int.abs_eq_natAbs] at this
      omega
  have flat : flatSpectrum ((List.range 161).map f) = true ↔ ∀ k ∈ Finset.Icc 1 160, Reference.mag b k = Reference.mag b 0 := by
    have head : ((List.range 161).map f).headD 0 = f 0 := rfl
    unfold flatSpectrum
    rw [List.all_eq_true, head]
    constructor
    · intro h k hk
      rw [Finset.mem_Icc] at hk
      have := h (f k) (List.mem_map_of_mem (List.mem_range.mpr (by omega)))
      exact (mag_eq_iff b k 0).mpr ((same k 0).mp (of_decide_eq_true this))
    · intro h x hx
      obtain ⟨k, hk, rfl⟩ := List.mem_map.mp hx
      rw [List.mem_range] at hk
      refine decide_eq_true ((same k 0).mpr ?_)
      rcases Nat.eq_zero_or_pos k with e | e
      · rw [e]
      · exact (mag_eq_iff b k 0).mp (h k (Finset.mem_Icc.mpr ⟨e, by omega⟩))
  have order : topK (precedes spectralTolerance) ((List.range 161).map f) spectralPeaks
      = topK Reference.precedes ((List.range 161).map (Reference.mag b)) 4 := by
    refine topK_congr _ _ _ _ _ _ fun i _ j _ => ?_
    rw [precedes_exact spectralTolerance (f i) (f j) _ _ _ scale (close i) (close j) (sep i j) i j]
    unfold Reference.precedes
    rw [decide_eq_decide]
    simp only [gt_iff_lt, mag_lt, mag_eq_iff]
  have bins : ∀ k : ℕ, quantizeHz (k * cfg.fs) blockLength = Reference.quantizeHz ((k : ℝ) * cfg.fs / 320) := by
    intro k
    rw [quantizeHz, Reference.quantizeHz, quantize_exact _ _ (by decide), blockLength, canonAt]
    push_cast; rfl
  unfold specDecode Reference.specDecode
  simp only [forcedList_eq]
  rw [binPowers_eq, ← hf]
  by_cases d : ∀ k ∈ Finset.Icc 1 160, Reference.mag b k = Reference.mag b 0
  · rw [if_pos (flat.mpr d), if_pos d]; rfl
  · rw [if_neg (fun c => d (flat.mp c)), if_neg d, order, lookupBins]
    simp only [bins, Decoded.ofLookup, lowerTone]
    have e : ∀ n : ℕ, (n != 100) = decide (n ≠ 100) := by intro n; by_cases h : n = 100 <;> simp [h]
    rw [e] <;> generalize letterOf cfg _ _ = o <;> cases o <;> rfl

end Sys2Proof.Laws
end

