-- ==== Sys2Proof/Tests/Slice0.lean ====
section
/-! SUPPORT. Small tests of single steps, with results from the spec's own examples, and for every statement
with hypotheses a concrete case that meets them. -/

namespace Sys2Proof.Tests

open Sys2Proof Sys2Proof.Machine Sys2Proof.Safety

/-! ### Well-formedness: each check refuses an ill-formed term -/

theorem test_wf_sig : ¬ (Instr.sig 27).WellFormed ∧ (Instr.sig 26).WellFormed := by decide
theorem test_wf_syn : ¬ (Instr.syn 27 false).WellFormed ∧ (Instr.syn 26 true).WellFormed := by decide
theorem test_wf_let_j2 : ¬ (Instr.let_ true 11 0 0).WellFormed := by decide
theorem test_wf_let_j1 : ¬ (Instr.let_ true 0 11 0).WellFormed := by decide
theorem test_wf_let_j0 : ¬ (Instr.let_ true 0 0 11).WellFormed ∧ (Instr.let_ true 10 10 10).WellFormed := by decide
theorem test_wf_config_rate : ¬ (Config.mk 7999 decidedTable .ascii).WellFormed := by decide
theorem test_wf_config_rows : ¬ (Config.mk 8000 (decidedTable.take 26) .ascii).WellFormed := by decide
theorem test_wf_charcode_injective : ¬ { CharCode.ascii with star := 0x5A }.WellFormed ∧
    ¬ { CharCode.ascii with lower := CharCode.ascii.upper }.WellFormed := by decide
theorem test_wf_charcode_length : ¬ { CharCode.ascii with upper := CharCode.ascii.upper.drop 1 }.WellFormed := by decide
theorem test_wf_config_charcode : ¬ (Config.mk 8000 decidedTable { CharCode.ascii with space := 0x2A }).WellFormed := by decide
theorem test_wf_config_member : ¬ (Config.mk 8000 (⟨200, 800, 1600⟩ :: decidedTable.drop 1) .ascii).WellFormed := by decide
theorem test_wf_config_distinct : ¬ (Config.mk 8000 (⟨400, 800, 2400⟩ :: decidedTable.drop 1) .ascii).WellFormed := by decide

/-! ### Decoding: words written out from the formats of R71 to R77 -/

theorem test_decode_nop : decode 0b00000000_000000000000000000000000#32 = .ok .nop := by decide
theorem test_decode_sig : decode 0b00000001_0000000000000000_00010010#32 = .ok (.sig 18) := by decide
theorem test_decode_let : decode 0b00000010_00000000000_1_0111_0101_0100#32 = .ok (.let_ true 7 5 4) := by decide
theorem test_decode_seta : decode 0b00000011_00000000_0000000110000001#32 = .ok (.seta 0x0181) := by decide
theorem test_decode_syn : decode 0b00000100_000000000000000_1_000_10010#32 = .ok (.syn 18 true) := by decide
theorem test_decode_enc : decode 0b00000101_0000000000000000_01010011#32 = .ok (.enc 0x53) := by decide
theorem test_decode_qnt : decode 0b00000110_00000000_0000010010110001#32 = .ok (.qnt 1201) := by decide
theorem test_decode_decs : decode 0b00000111_000000000000000000000000#32 = .ok .decs := by decide
theorem test_decode_decf : decode 0b00001000_000000000000000000000000#32 = .ok .decf := by decide
theorem test_decode_lds : decode 0b00001001_00000000_1111111110100011#32 = .ok (.lds (BitVec.ofInt 16 (-93))) := by decide
theorem test_decode_ends : decode 0b00001010_000000000000000000000000#32 = .ok .ends := by decide
theorem test_decode_clrf : decode 0b00001011_000000000000000000000000#32 = .ok .clrf := by decide
theorem test_decode_rst : decode 0b00001100_000000000000000000000000#32 = .ok .rst := by decide
theorem test_decode_reserved_opcode : decode 0x0D000000 = .error .reservedOpcode ∧ decode 0xFF000000 = .error .reservedOpcode := by decide
theorem test_decode_mustBeZero : decode 0x01000112 = .error .mustBeZero ∧ decode 0x04000132 = .error .mustBeZero := by decide
theorem test_decode_reservedOperand : decode 0x0100001B = .error .reservedOperand ∧ decode 0x0200B000 = .error .mustBeZero ∧
    decode 0x02000B00 = .error .reservedOperand := by decide
theorem test_table_word : decodeTableWord 32 0x04000112 = some (.syn 18 true) ∧ decodeTableWord 32 0x0D000000 = none := by decide

/-! ### Single steps -/

/-- A field of the next state. -/
def after {α : Type} (f : State → α) (o : Host.Outcome State Fault Refusal) : Option α :=
  match o with
  | .next s => some (f s)
  | .fault _ => none
  | .refused _ => none

/-- A state with a count and a block. -/
def loaded (n : Fin 321) (m : Memory) : State := { State.reset with scnt := n, blk := m }

/-- R95's example. -/
theorem test_sig : after State.res (exec (.sig 18) .reset) = some 0x754 := by decide
/-- R96's examples. -/
theorem test_let : after State.res (exec (.let_ false 4 7 5) .reset) = some 0x73 ∧
    after State.res (exec (.let_ true 4 3 2) .reset) = some 0x12A := by decide
/-- R96: space whatever the case, and a reserved index. -/
theorem test_let_space : after State.res (exec (.let_ true 10 8 5) .reset) = some 0x20 ∧
    after State.status (exec (.let_ true 10 8 11) .reset) = some 0x40 := by decide
/-- R101's example. -/
theorem test_seta : after State.amp (step (State.reset.withFetchWord 32 0x03000080)) = some 0x80 := by decide
/-- R122's example: the midpoint belongs to the lower step. -/
theorem test_qnt : after State.res (exec (.qnt 1200) .reset) = some 0 ∧ after State.res (exec (.qnt 1201) .reset) = some 1 := by decide
/-- R105's example: 400, 281, 45, -93, -69, 0, 9, 4, 81, 198. -/
theorem test_syn : after (fun s => (s.sout.take 10).map BitVec.toInt) (exec (.syn 18 true) .reset)
    = some [400, 281, 45, -93, -69, 0, 9, 4, 81, 198] := by decide +kernel
/-- R108: CLIP from 0x51EC on. -/
theorem test_syn_clip : after State.status (exec (.syn 25 true) { State.reset with amp := 0x51EC }) = some 0x08 := by decide +kernel
/-- A block with other legal parameters (R7): FS = 16000, and the codes of the two cases exchanged. -/
def otherConfig : Config := ⟨16000, decidedTable, { CharCode.ascii with upper := CharCode.ascii.lower, lower := CharCode.ascii.upper }⟩

/-- V26: at FS = 16000 the block of `S` starts 400, 368, 281, 163, 45, -46. -/
theorem test_syn_rate : after (fun s => (s.sout.take 6).map BitVec.toInt) (exec (.syn 18 true) (.resetWith otherConfig))
    = some [400, 368, 281, 163, 45, -46] := by decide +kernel
/-- R96 with other character codes: the triple of `S`, in the code that stands for `S`. -/
theorem test_let_codes : after State.res (exec (.let_ true 7 5 4) (.resetWith otherConfig)) = some 0x73 := by decide
/-- R106: a digit is dropped. -/
theorem test_enc_drop : after State.status (exec (.enc 0x32) .reset) = some 0x04 := by decide
/-- 95_test_vectors P3: the block of space starts 400, 70. -/
theorem test_enc_space : after (fun s => (s.sout.take 2).map BitVec.toInt) (exec (.enc 0x20) .reset) = some [400, 70] := by decide +kernel
/-- R172's example. -/
theorem test_lds : after (fun s => (s.blk.read 3).toInt) (exec (.lds 0xFFA3) (loaded 3 [])) = some (-93) ∧
    after (fun s => s.scnt.val) (exec (.lds 0xFFA3) (loaded 3 [])) = some 4 := by decide
/-- V44 (c): a full block takes no sample. -/
theorem test_lds_full : after State.status (exec (.lds 7) (loaded 320 [])) = some 0x20 := by decide
/-- V44 (a). -/
theorem test_decs_under : after State.status (exec .decs (loaded 319 [])) = some 0x10 := by decide
/-- R136: one sample that is not zero. -/
theorem test_decs_impulse : after State.status (exec .decs (loaded 320 [(3, 1000)])) = some 0x03 := by decide +kernel
/-- V40: DECS decodes the block of `S`. -/
theorem test_specDecode_S : (specDecode .decided ((pcmBlock .decided 18 true 256).1.map BitVec.toInt)).char = 0x53 := by decide +kernel
/-- R160: a zero block is degenerate. -/
theorem test_decf_zero : after State.cout (exec .decf (loaded 320 [])) = some [0x2A] := by decide +kernel
/-- V40: DECF decodes the block of `a`. -/
theorem test_fbDecode_a : (fbDecode .decided ((pcmBlock .decided 0 false 256).1.map BitVec.toInt)).char = 0x61 := by decide +kernel
/-- V44 (d). -/
theorem test_ends : after (fun s => s.scnt.val) (exec .ends (loaded 100 [])) = some 0 := by decide
/-- R174's example. -/
theorem test_clrf : after State.status (exec .clrf { State.reset with status := 5 }) = some 0 := by decide
/-- V46. -/
theorem test_rst : after (fun s => (s.amp, s.sout, s.status)) (exec .rst { State.reset with amp := 7, sout := [1], status := 1 })
    = some (0x0100, [], 0) := by decide
/-- V45: a valid sample -93, and an empty queue. -/
theorem test_pop : after State.observed (hostAction (.read .word 0x14) { State.reset with sout := [0xFFA3] }) = some [0x8000FFA3] ∧
    after State.observed (hostAction (.read .word 0x14) .reset) = some [0] := by decide
/-- R96 and R79 through the assembler of R83. -/
theorem test_assemble : (assemble .ascii "SYN 18, 1 ; S".toList).map encode = some 0x04000112 := by decide

/-! ### Witnesses: for every statement with hypotheses, a case that meets them -/

/-- Legal parameters other than the decided ones, for every statement about them. -/
theorem witness_legal_parameters : otherConfig.WellFormed ∧ otherConfig ≠ .decided ∧ 100 ∣ otherConfig.fs ∧
    ∀ f ∈ canon, otherConfig.fs ∣ f * 320 := by decide

theorem witness_DecodeEncodeRoundTrip : (Instr.let_ true 10 10 10).WellFormed := by decide
theorem witness_EncodeDecodeRoundTrip : decode 0x0401011A = .error .mustBeZero ∧ decode 0x0400011A = .ok (.syn 26 true) := by decide
theorem witness_IllegalWordsExactly : decode 0x0D000000 = .error .reservedOpcode := by decide
theorem witness_StepRunsDecodedInstruction :
    (State.reset.withFetchWord 32 0x01000012).inputs = .write .word 0 0x01000012 :: [] ∧ decode 0x01000012 = .ok (.sig 18) := by decide
theorem witness_FetchedWordRunsNext : (Instr.lds 0xFFFF).WellFormed := by decide
theorem witness_IllegalWordStepOnlySetsFlag :
    (State.reset.withFetchWord 32 0x0100001B).inputs = .write .word 0 0x0100001B :: [] ∧
    decode 0x0100001B = .error .reservedOperand := by decide
theorem witness_ProgramRunsInOrder : (∀ i ∈ [Instr.seta 5, .lds 7, .ends], i.WellFormed) ∧ State.reset.inputs = [] := by decide
theorem witness_StepStopsOnlyOnUnsupportedAccess :
    ((State.reset.withFetchWord 32 0).inputs.head?.map supported).getD true = true ∧
    (({ State.reset with inputs := [.read .word 2] } : State).inputs.head?.map supported).getD true = false ∧
    (({ State.reset with inputs := [.read .half 4] } : State).inputs.head?.map supported).getD true = false := by decide
theorem witness_NopChangesNothing : ((0x00FFFFFF : Word) >>> 24).toNat = 0 ∧ (0x00FFFFFF : Word) ≠ 0 := by decide
theorem witness_SigReturnsSignature : State.reset.config.WellFormed ∧ State.reset.config = .decided ∧ (26 : BitVec 8).toNat < 27 ∧ 27 ≤ (27 : BitVec 8).toNat := by decide
theorem witness_LetReturnsLetter : State.reset.config.WellFormed ∧ State.reset.config = .decided ∧ (10 : BitVec 4).toNat < 11 ∧ 11 ≤ (11 : BitVec 4).toNat ∧ (1 : BitVec 4).toNat < 2 := by decide
theorem witness_LetterOfFindsTheRow : Config.decided.WellFormed ∧ sigSorted .decided 26 = [1000, 2000, 4000] ∧
    sigSorted .decided 0 = [400, 800, 1600] ∧ ∀ s < 27, sigSorted .decided s ≠ [400, 400, 800] := by decide
theorem witness_SynAppendsExactBlock : State.reset.config.WellFormed ∧ (26 : BitVec 5).toNat < 27 ∧ 27 ≤ (27 : BitVec 5).toNat := by decide
theorem witness_SynSpecialCases : (0 : BitVec 5).toNat < 27 ∧ ({ State.reset with amp := 0 } : State).amp = 0 := by decide
theorem witness_BlockShape : Config.decided.WellFormed ∧ (26 : Nat) < 27 ∧ (65535 : Nat) < 2 ^ 16 ∧ 100 ∣ Config.decided.fs ∧
    239 + Config.decided.fs / 100 < 320 ∧ (∀ f ∈ canon, Config.decided.fs ∣ f * 320) ∧ (1 : Nat) ≤ 319 ∧ (319 : Nat) < 320 := by decide
theorem witness_ClipExactlyFromThreshold : Config.decided.WellFormed ∧ (26 : Nat) < 27 ∧ (20972 : Nat) < 2 ^ 16 := by decide
theorem witness_EncAppendsExactBlock : State.reset.config.WellFormed ∧ symOfChar State.reset.config.charcode 0x7A = some 25 ∧
    symOfChar State.reset.config.charcode 0x20 = some 26 ∧ symOfChar State.reset.config.charcode 0x7B = none := by decide
theorem witness_CharacterCodes : (0x41#8).toNat = 0x41 ∧ (0x5A#8).toNat = 0x5A ∧ (0x61#8).toNat = 0x61 ∧ (0x7A#8).toNat = 0x7A ∧
    (0x20#8).toNat = 0x20 ∧ (0x1F#8).toNat < 0x20 ∧ (0x40#8).toNat < 0x41 ∧ (0x60#8).toNat < 0x61 ∧ 0x7A < (0x7B#8).toNat := by decide
theorem witness_QuantizerStaircase : (0 : Nat) < 8 ∧ 1200 ≤ 150 * 8 ∧ 150 * 8 < 1201 ∧ 2400 ≤ 300 * 8 ∧ 300 * 8 < 2401 ∧
    4000 ≤ 500 * 8 ∧ 500 * 8 < 4001 ∧ 5600 ≤ 700 * 8 ∧ 700 * 8 < 5601 ∧ 7200 ≤ 900 * 8 ∧ 900 * 8 < 7201 ∧ 8800 ≤ 1100 * 8 ∧
    1100 * 8 < 8801 ∧ 11200 ≤ 1400 * 8 ∧ 1400 * 8 < 11201 ∧ 14400 ≤ 1800 * 8 ∧ 1800 * 8 < 14401 ∧ 17600 ≤ 2200 * 8 ∧
    2200 * 8 < 17601 ∧ 25600 ≤ 3200 * 8 ∧ 3200 * 8 < 25601 ∧ 4000 ∈ canon := by decide
theorem witness_LdsStoresOrOverruns : (loaded 319 [(318, 5)]).blk.wf = true ∧ (loaded 319 []).scnt.val < 320 ∧
    (loaded 320 []).scnt.val = 320 ∧ (0x7FFF#16).toNat < 2 ^ 15 ∧ 2 ^ 15 ≤ (0x8000#16).toNat := by decide
theorem witness_LoadProgramFillsBlock : State.reset.blk.wf = true ∧ State.reset.scnt = 0 ∧
    (List.replicate 320 (1 : Sample)).length = 320 := ⟨rfl, rfl, List.length_replicate⟩
theorem witness_EndsDropsBlock : (loaded 5 [(0, 1), (4, 2)]).blk.wf = true := by decide
theorem witness_DecsDecodesExactly : (loaded 320 []).config.WellFormed ∧ (loaded 320 []).scnt.val = 320 ∧ (loaded 319 []).scnt.val < 320 := by decide
theorem witness_DecfDecodesExactly : (loaded 320 [(0, 5)]).config.WellFormed ∧ (loaded 320 [(0, 5)]).scnt.val = 320 ∧ (loaded 0 []).scnt.val < 320 := by decide
theorem witness_DecsDegenerateBlocks : (loaded 320 [(319, 7)]).scnt.val = 320 ∧
    ∀ n < 320, n ≠ 319 → (loaded 320 [(319, 7)]).blk.read n = 0 := by decide +kernel
theorem witness_DecfDegenerateBlocks : (loaded 320 [(0, 0xFFF9)]).scnt.val = 320 ∧
    (∀ n < 320, ((loaded 320 [(0, 0xFFF9)]).blk.read n).toInt ≤ 0) ∧
    ∃ n < 320, (loaded 320 [(0, 0xFFF9)]).blk.read n = 0 := by decide +kernel
theorem witness_DecodersIgnoreScale : Config.decided.WellFormed ∧ 0 < 32768 ∧ (List.replicate 320 (-1 : Int)).length = 320 ∧
    ∀ x ∈ List.replicate 320 (-1 : Int), -32768 ≤ 32768 * x ∧ 32768 * x ≤ 32767 :=
  ⟨by decide, by decide, List.length_replicate, fun x h => by rw [List.eq_of_mem_replicate h]; decide⟩
theorem witness_DecodeStreamCharacters : State.reset.config.WellFormed ∧ State.reset.blk.wf = true ∧ State.reset.scnt = 0 := by decide
theorem witness_FilterStability : Config.decided.WellFormed ∧ 2400 ∈ canon ∧ 2 * 2400 < Config.decided.fs := by decide
theorem witness_HardwareResetEqualsRst : ({ State.reset with inputs := [.reset] } : State).inputs = .reset :: [] := by decide
theorem witness_InvariantKeptByEveryStep :
    Inv { State.reset with status := 0x03, cout := [0x2A], res := 0x754, inputs := [.read .word 0x1C] } ∧
    step { State.reset with status := 0x03, cout := [0x2A], res := 0x754, inputs := [.read .word 0x1C] }
      = .next { State.reset with status := 0x03, res := 0x754, observed := [0x8000002A] } := ⟨by decide, rfl⟩
theorem witness_FlagsAreSticky : Instr.nop ≠ .clrf ∧ Instr.nop ≠ .rst ∧ exec .nop { State.reset with status := 0x40 }
    = .next { State.reset with status := 0x40 } ∧ ({ State.reset with status := 0x40 } : State).flag .illegalCommand = true :=
  ⟨by decide, by decide, rfl, by decide⟩
theorem witness_ConditionsByCommand : exec .decs State.reset = .next { State.reset with status := 0x10 } ∧
    State.reset.flag .blockUnderrun = false ∧ ({ State.reset with status := 0x10 } : State).flag .blockUnderrun = true :=
  ⟨rfl, by decide, by decide⟩
theorem witness_ConditionsByCommand_illegal : exec (.sig 27) State.reset = .next { State.reset with status := 0x40 } ∧
    State.reset.flag .illegalCommand = false ∧ ({ State.reset with status := 0x40 } : State).flag .illegalCommand = true :=
  ⟨rfl, by decide, by decide⟩
theorem witness_StateWrittenOnlyBy : exec (.seta 7) State.reset = .next { State.reset with amp := 7 } ∧
    ({ State.reset with amp := 7 } : State).amp ≠ State.reset.amp := ⟨rfl, by decide⟩
theorem witness_StateWrittenOnlyBy_res : exec (.sig 18) State.reset = .next { State.reset with res := 0x754 } ∧
    ({ State.reset with res := 0x754 } : State).res ≠ State.reset.res := ⟨rfl, by decide⟩
theorem witness_StateWrittenOnlyBy_scnt : exec .ends (loaded 320 []) = .next (loaded 0 []) ∧
    (loaded 0 []).scnt ≠ (loaded 320 []).scnt := ⟨rfl, by decide⟩
theorem witness_StateWrittenOnlyBy_status : exec .decs State.reset = .next { State.reset with status := 0x10 } ∧
    ({ State.reset with status := 0x10 } : State).status ≠ State.reset.status := ⟨rfl, by decide⟩
theorem witness_StateWrittenOnlyBy_blk : exec (.lds 5) State.reset = .next (loaded 1 [(0, 5)]) ∧
    (loaded 1 [(0, 5)]).blk ≠ State.reset.blk := ⟨rfl, by decide⟩
theorem witness_StateWrittenOnlyBy_sout : exec .rst { State.reset with sout := [1] } = .next State.reset ∧
    State.reset.sout ≠ ({ State.reset with sout := [1] } : State).sout := ⟨rfl, by decide⟩
theorem witness_StateWrittenOnlyBy_cout : exec .rst { State.reset with cout := [0x2A] } = .next State.reset ∧
    State.reset.cout ≠ ({ State.reset with cout := [0x2A] } : State).cout := ⟨rfl, by decide⟩
theorem witness_SampleCountMoves : exec (.lds 5) (loaded 319 []) = .next (loaded 320 [(319, 5)]) ∧ (loaded 319 []).scnt.val < 320 :=
  ⟨rfl, by decide⟩
theorem witness_SampleCountMoves_full : exec (.lds 5) (loaded 320 []) = .next { loaded 320 [] with status := 0x20 } ∧
    (loaded 320 []).scnt.val = 320 := ⟨rfl, by decide⟩
theorem witness_SampleCountMoves_decode : exec .decs (loaded 319 []) = .next { loaded 319 [] with status := 0x10 } := rfl
theorem witness_SampleCountMoves_ends : exec .ends (loaded 320 []) = .next (loaded 0 []) := rfl
theorem witness_SampleCountMoves_other : exec .nop (loaded 7 []) = .next (loaded 7 []) ∧ (∀ v, Instr.nop ≠ .lds v) ∧
    Instr.nop ≠ .decs ∧ Instr.nop ≠ .decf ∧ Instr.nop ≠ .ends ∧ Instr.nop ≠ .rst :=
  ⟨rfl, fun _ h => Instr.noConfusion h, by decide, by decide, by decide, by decide⟩
theorem witness_ResultsIgnoreOtherState : Instr.decs ≠ .rst ∧ (loaded 320 []).config = ({ loaded 320 [] with status := 1 } : State).config ∧
    (loaded 320 []).amp = ({ loaded 320 [] with status := 1 } : State).amp ∧
    (loaded 320 []).scnt = ({ loaded 320 [] with status := 1 } : State).scnt ∧
    ∀ n < 320, (loaded 320 []).blk.read n = ({ loaded 320 [] with status := 1 } : State).blk.read n :=
  ⟨by decide, rfl, rfl, rfl, fun _ _ => rfl⟩
theorem witness_HostRegisterMap : State.reset.sout = [] ∧ State.reset.cout = [] ∧
    ({ State.reset with sout := [1], cout := [0x53] } : State).sout = 1 :: [] ∧
    ({ State.reset with sout := [1], cout := [0x53] } : State).cout = 0x53 :: [] ∧ 0x24 % 4 = 0 ∧ 0x20 < 0x24 := by decide
theorem witness_PopsReturnQueueInOrder :
    ({ State.reset with sout := [1, 2], inputs := [.read .word 0x14, .read .word 0x14] } : State).inputs
      = List.replicate 2 (.read .word 0x14) := by decide
theorem witness_LegalCharacterCodes : CharCode.ascii.WellFormed ∧ otherConfig.charcode.WellFormed ∧
    (∀ k < 26, 0x7B#8 ≠ upperChar .ascii k ∧ 0x7B#8 ≠ lowerChar .ascii k) ∧ 0x7B#8 ≠ CharCode.ascii.space := by decide
theorem witness_ConfigurationNeverWritten : step { State.resetWith otherConfig with inputs := [.reset] }
    = .next (.resetWith otherConfig) := rfl
theorem witness_RunsKeepParameters : (machineAt otherConfig).run 1 { State.resetWith otherConfig with inputs := [.reset] }
    = .next (.resetWith otherConfig) ∧ otherConfig.WellFormed := ⟨rfl, by decide⟩

end Sys2Proof.Tests
end

/-! ## What a command does to the state

`CommandEffect s i t` lists, once, every way command `i` can lead from `s` to `t`, in terms of the shared operations of
Machine/Ops.lean. Statements about all commands are case analyses of it. -/

namespace Sys2Proof.Proofs

open Sys2Proof.Machine Sys2Proof.Safety Sys2Proof.Laws

/-- The ways a command can change the state `s` (R95 to R175). -/
inductive CommandEffect (s : State) : Instr → State → Prop
  /-- R171. -/
  | nop : CommandEffect s .nop s
  /-- The command only sets a flag of its own (R199). DEGEN is set by `deliver` alone. -/
  | raised {i : Instr} {c : Condition} (can : canRaise c i = true) (alone : c ≠ .degenerateBlock) :
      CommandEffect s i (raise c s)
  /-- R95. -/
  | sig {imm8 : BitVec 8} (legal : isSym imm8.toNat = true) :
      CommandEffect s (.sig imm8) (s.setRes (sigResult s.config imm8.toNat))
  /-- R96. -/
  | let_ {upper : Bool} {j2 j1 j0 : BitVec 4} :
      CommandEffect s (.let_ upper j2 j1 j0) (s.setRes (letResult s.config upper j2.toNat j1.toNat j0.toNat))
  /-- R101. -/
  | seta {imm16 : BitVec 16} : CommandEffect s (.seta imm16) (s.setAmp imm16)
  /-- R105. -/
  | syn {sym : BitVec 5} {upper : Bool} :
      CommandEffect s (.syn sym upper) (emitBlock (pcmBlock s.config sym.toNat upper s.amp.toNat) s)
  /-- R106. -/
  | enc {imm8 : BitVec 8} {k : Nat} (accepted : symOfChar s.config.charcode imm8 = some k) :
      CommandEffect s (.enc imm8) (emitBlock (pcmBlock s.config k (isUpper s.config.charcode imm8) s.amp.toNat) s)
  /-- R122. -/
  | qnt {imm16 : BitVec 16} : CommandEffect s (.qnt imm16) (s.setRes (resOfIndex (quantize imm16.toNat 8)))
  /-- R138. -/
  | decs : CommandEffect s .decs (deliver (specDecode s.config s.block) s)
  /-- R160. -/
  | decf : CommandEffect s .decf (deliver (fbDecode s.config s.block) s)
  /-- R172. -/
  | lds {imm16 : BitVec 16} (room : s.scnt.val < blockLength) : CommandEffect s (.lds imm16) (s.loadSample imm16 room)
  /-- R173. -/
  | ends : CommandEffect s .ends s.clearCount
  /-- R174. -/
  | clrf : CommandEffect s .clrf (s.setStatus 0)
  /-- R175. -/
  | rst : CommandEffect s .rst s.toReset

/-- A decode command delivers its decoder's answer or raises BlockUnderrun. -/
theorem decodeCommand_effect {i : Instr} {decoder : List Int → Decoded} {s : State}
    (can : canRaise .blockUnderrun i = true) (full : CommandEffect s i (deliver (decoder s.block) s)) :
    CommandEffect s i (decodeCommand decoder s) := by
  unfold decodeCommand
  split
  · exact .raised can (by decide)
  · exact full

/-- Every command completes, with one of the effects listed. -/
theorem exec_completes (i : Instr) (s : State) : ∃ t, exec i s = .next t ∧ CommandEffect s i t := by
  cases i with
  | nop => exact ⟨_, rfl, .nop⟩
  | sig imm8 =>
    refine ⟨_, rfl, ?_⟩
    split
    · next legal => exact .sig legal
    · exact .raised rfl (by decide)
  | let_ upper j2 j1 j0 =>
    refine ⟨_, rfl, ?_⟩
    split
    · exact .let_
    · exact .raised rfl (by decide)
  | seta imm16 => exact ⟨_, rfl, .seta⟩
  | syn sym upper =>
    refine ⟨_, rfl, ?_⟩
    split
    · exact .syn
    · exact .raised rfl (by decide)
  | enc imm8 =>
    refine ⟨_, rfl, ?_⟩
    split
    · exact .raised rfl (by decide)
    · next accepted => exact .enc accepted
  | qnt imm16 => exact ⟨_, rfl, .qnt⟩
  | decs => exact ⟨_, rfl, decodeCommand_effect rfl .decs⟩
  | decf => exact ⟨_, rfl, decodeCommand_effect rfl .decf⟩
  | lds imm16 =>
    obtain ⟨room, e⟩ | ⟨-, e⟩ := execLds_cases imm16 s
    · exact ⟨_, e, .lds room⟩
    · exact ⟨_, e, .raised rfl (by decide)⟩
  | ends => exact ⟨_, rfl, .ends⟩
  | clrf => exact ⟨_, rfl, .clrf⟩
  | rst => exact ⟨_, rfl, .rst⟩

/-- The effects listed are all a command can have. -/
theorem exec_effect {i : Instr} {s t : State} (h : exec i s = .next t) : CommandEffect s i t := by
  obtain ⟨t', e, effect⟩ := exec_completes i s
  rw [e] at h
  cases h
  exact effect

/-- The ways a supported host action can change the state `s` (R17, R28). -/
inductive HostEffect (s : State) : State → Prop
  /-- A legal word written to CMD. -/
  | command {i : Instr} {t : State} (effect : CommandEffect s i t) : HostEffect s t
  /-- An illegal word written to CMD (R82). -/
  | illegal : HostEffect s (raise .illegalCommand s)
  /-- A write to any other offset. -/
  | ignored : HostEffect s s
  /-- A read. -/
  | read (off : Nat) : HostEffect s (.observe (hostRead off s))
  /-- Hardware reset. -/
  | reset : HostEffect s s.toReset

/-- Every word written to CMD completes (R78, R82). -/
theorem command_completes (w : Word) (s : State) : ∃ t, command w s = .next t ∧ HostEffect s t := by
  unfold command
  cases decode w with
  | error e => exact ⟨_, rfl, .illegal⟩
  | ok i =>
    obtain ⟨t, e, effect⟩ := exec_completes i s
    exact ⟨t, e, .command effect⟩

/-- Settles O10: `exec_completes` for the commands, `command_completes` for the words. -/
theorem commandsAlwaysComplete : Obligations.CommandsAlwaysComplete := by
  intro s
  constructor
  · intro i
    obtain ⟨t, e, -⟩ := exec_completes i s
    exact ⟨t, e⟩
  · intro w
    obtain ⟨t, e, -⟩ := command_completes w s
    exact ⟨t, e⟩

/-- No command writes the configuration, what the host has waiting or what it has read (R16). -/
theorem CommandEffect.frame {i : Instr} {s t : State} (h : CommandEffect s i t) :
    t.config = s.config ∧ t.inputs = s.inputs ∧ t.observed = s.observed := by
  cases h <;> simp [emitBlock_eq, deliver_eq]

/-- Settles O46: each effect of a command changes only the pieces its shared operation writes (R20). -/
theorem stateWrittenOnlyBy : Obligations.StateWrittenOnlyBy := by
  intro i s t h
  have effect := exec_effect h
  obtain ⟨config, inputs, observed⟩ := effect.frame
  simp only [config, inputs, observed, and_true]
  cases effect with
  | nop => simp
  | raised can _ => exact ⟨by simp, by simp, by simp, fun _ => .inl ⟨_, can⟩, by simp, by simp, by simp⟩
  | sig _ => simp
  | let_ => simp
  | seta => simp
  | syn => simpa [emitBlock_eq] using fun _ _ => ⟨.pcmClip, rfl⟩
  | enc _ => simpa [emitBlock_eq] using fun _ _ => ⟨.pcmClip, rfl⟩
  | qnt => simp
  | decs => simpa [deliver_eq] using fun _ => ⟨.unrecognizedSymbol, rfl⟩
  | decf => simpa [deliver_eq] using fun _ => ⟨.unrecognizedSymbol, rfl⟩
  | lds _ => simp
  | ends => simp
  | clrf => simp
  | rst => simp

/-! ## The host's actions and the step -/

/-- A host access the map gives a meaning completes. -/
theorem hostAction_completes {a : HostAction} (legal : supported a = true) (s : State) :
    ∃ t, hostAction a s = .next t ∧ HostEffect s t := by
  cases a with
  | write width off v =>
    have legal : accessSupported width off = true := legal
    rw [hostAction, if_pos legal, hostWrite]
    split
    · exact command_completes v s
    · exact ⟨s, rfl, .ignored⟩
  | read width off =>
    have legal : accessSupported width off = true := legal
    rw [hostAction, if_pos legal]
    exact ⟨_, rfl, .read off⟩
  | reset => exact ⟨_, rfl, .reset⟩

/-- Any other access is refused by name (R52). -/
theorem hostAction_refused {a : HostAction} (h : supported a = false) (s : State) :
    hostAction a s = .refused .unsupportedHostAccess := by
  cases a with
  | write width off v => exact if_neg (by simpa [supported] using h)
  | read width off => exact if_neg (by simpa [supported] using h)
  | reset => cases h

/-- A host action that completes had one of the effects listed. -/
theorem hostAction_effect {a : HostAction} {s t : State} (h : hostAction a s = .next t) : HostEffect s t := by
  cases legal : supported a with
  | true =>
    obtain ⟨t', e, effect⟩ := hostAction_completes legal s
    rw [e] at h
    cases h
    exact effect
  | false => rw [hostAction_refused legal] at h; cases h

/-- A step leaves its state alone, or is one host action on the state with that action taken off the list. -/
theorem step_effect {s t : State} (h : step s = .next t) :
    t = s ∨ ∃ rest, HostEffect { s with inputs := rest } t := by
  obtain ⟨-, e⟩ | ⟨a, rest, -, e⟩ := step_cases s
  · rw [e] at h
    cases h
    exact .inl rfl
  · rw [e] at h
    exact .inr ⟨rest, hostAction_effect h⟩

/-- Settles O11: `step_cases`, then completion or refusal of the action taken. -/
theorem stepStopsOnlyOnUnsupportedAccess : Obligations.StepStopsOnlyOnUnsupportedAccess := by
  intro s
  obtain ⟨idle, e⟩ | ⟨a, rest, waiting, e⟩ := step_cases s
  · rw [idle, e]
    exact ⟨fun _ => ⟨s, rfl⟩, fun h => by cases h⟩
  · rw [waiting, e]
    refine ⟨fun legal => ?_, fun h => hostAction_refused h _⟩
    obtain ⟨t, e', -⟩ := hostAction_completes legal { s with inputs := rest }
    exact ⟨t, e'⟩

/-- A 32-bit write to CMD is the command of its word, with the action taken off the list. -/
theorem step_of_command {s : State} {w : Word} {rest : List HostAction} (waiting : s.inputs = .write .word 0 w :: rest) :
    step s = command w { s with inputs := rest } := by
  obtain ⟨idle, -⟩ | ⟨a, rest', waiting', e⟩ := step_cases s
  · rw [waiting] at idle
    cases idle
  · rw [waiting] at waiting'
    cases waiting'
    exact e

/-- Settles O6: the step is `command` of the word (R15, R56), and that is `exec` of what it decodes to. -/
theorem stepRunsDecodedInstruction : Obligations.StepRunsDecodedInstruction := by
  intro s w i rest waiting decoded
  rw [step_of_command waiting, command, decoded]

/-! ## A command's word decodes to the command -/

/-- A word decodes to `i` if the row of its opcode reads `i`'s operands from it. -/
theorem decode_of_fields {i : Instr} {opc : BitVec 8} {r : OpcodeRow} (opcode : opcodeOf (encode i) = opc)
    (found : opcodeMap[opc.toNat]? = some r) (row : RowOf.Statement i) (fields : r.fields (encode i) = i)
    (legal : i.WellFormed) : decode (encode i) = .ok i := by
  obtain ⟨r', found', mask⟩ := row
  rw [opcode, found] at found'
  cases found'
  rw [decode, opcode, found]
  simp only [if_pos mask, fields, if_pos legal]

theorem formatB_imm8 (opc imm8 : BitVec 8) : (formatB opc imm8).extractLsb' 0 8 = imm8 :=
  BitVec.extractLsb'_append_eq_right

theorem formatH_imm16 (opc : BitVec 8) (imm16 : BitVec 16) : (formatH opc imm16).extractLsb' 0 16 = imm16 :=
  BitVec.extractLsb'_append_eq_right

theorem formatY_sym (opc : BitVec 8) (u : Bool) (sym : BitVec 5) : (formatY opc u sym).extractLsb' 0 5 = sym :=
  BitVec.extractLsb'_append_eq_right

theorem formatY_u (opc : BitVec 8) (u : Bool) (sym : BitVec 5) : (formatY opc u sym).getLsbD 8 = u := by
  simp only [formatY, BitVec.getLsbD_append]
  simp

theorem formatT_j0 (opc : BitVec 8) (case : Bool) (j2 j1 j0 : BitVec 4) :
    (formatT opc case j2 j1 j0).extractLsb' 0 4 = j0 :=
  BitVec.extractLsb'_append_eq_right

theorem formatT_j1 (opc : BitVec 8) (case : Bool) (j2 j1 j0 : BitVec 4) :
    (formatT opc case j2 j1 j0).extractLsb' 4 4 = j1 := by
  rw [formatT, BitVec.extractLsb'_append_eq_of_le (by decide)]
  exact BitVec.extractLsb'_append_eq_right

theorem formatT_j2 (opc : BitVec 8) (case : Bool) (j2 j1 j0 : BitVec 4) :
    (formatT opc case j2 j1 j0).extractLsb' 8 4 = j2 := by
  rw [formatT, BitVec.extractLsb'_append_eq_of_le (by decide), BitVec.extractLsb'_append_eq_of_le (by decide)]
  exact BitVec.extractLsb'_append_eq_right

theorem formatT_case (opc : BitVec 8) (case : Bool) (j2 j1 j0 : BitVec 4) :
    (formatT opc case j2 j1 j0).getLsbD 12 = case := by
  simp only [formatT, BitVec.getLsbD_append]
  simp

/-- The decoder reads every legal command back from its own word (R70 to R78). -/
theorem decode_encode {i : Instr} (legal : i.WellFormed) : decode (encode i) = .ok i := by
  cases i with
  | nop => exact decode_of_fields (formatZ_opcode _) rfl RowOf.nop rfl legal
  | sig v => exact decode_of_fields (formatB_opcode _ _) rfl (RowOf.sig v) (congrArg Instr.sig (formatB_imm8 _ _)) legal
  | let_ u j2 j1 j0 =>
    refine decode_of_fields (formatT_opcode _ _ _ _ _) rfl (RowOf.let_ u j2 j1 j0) ?_ legal
    change Instr.let_ _ _ _ _ = _
    rw [encode, formatT_case, formatT_j2, formatT_j1, formatT_j0]
  | seta v => exact decode_of_fields (formatH_opcode _ _) rfl (RowOf.seta v) (congrArg Instr.seta (formatH_imm16 _ _)) legal
  | syn sym u =>
    refine decode_of_fields (formatY_opcode _ _ _) rfl (RowOf.syn sym u) ?_ legal
    change Instr.syn _ _ = _
    rw [encode, formatY_sym, formatY_u]
  | enc v => exact decode_of_fields (formatB_opcode _ _) rfl (RowOf.enc v) (congrArg Instr.enc (formatB_imm8 _ _)) legal
  | qnt v => exact decode_of_fields (formatH_opcode _ _) rfl (RowOf.qnt v) (congrArg Instr.qnt (formatH_imm16 _ _)) legal
  | decs => exact decode_of_fields (formatZ_opcode _) rfl RowOf.decs rfl legal
  | decf => exact decode_of_fields (formatZ_opcode _) rfl RowOf.decf rfl legal
  | lds v => exact decode_of_fields (formatH_opcode _ _) rfl (RowOf.lds v) (congrArg Instr.lds (formatH_imm16 _ _)) legal
  | ends => exact decode_of_fields (formatZ_opcode _) rfl RowOf.ends rfl legal
  | clrf => exact decode_of_fields (formatZ_opcode _) rfl RowOf.clrf rfl legal
  | rst => exact decode_of_fields (formatZ_opcode _) rfl RowOf.rst rfl legal

/-- A 32-bit word placed by `withFetchWord` is the one the host writes next. -/
theorem withFetchWord_inputs_word (s : State) (w : Word) :
    (s.withFetchWord 32 w.toNat).inputs = .write .word 0 w :: s.inputs := by
  rw [withFetchWord_inputs, Nat.mod_eq_of_lt w.isLt, BitVec.ofNat_toNat, BitVec.setWidth_eq]
  rfl

/-- Settles O7: the step is `command` of the word placed, which decodes to the command (log entry 1). -/
theorem fetchedWordRunsNext : Obligations.FetchedWordRunsNext := by
  intro s i legal
  exact stepRunsDecodedInstruction _ _ _ _ (withFetchWord_inputs_word s (encode i)) (decode_encode legal)

/-! ## Legal character codes (R7, R11) -/

/-- What R7 asks of the codes: 26 and 26 letters, and all 54 codes different. -/
theorem codes_distinct {codes : CharCode} (h : codes.WellFormed) :
    codes.upper.Nodup ∧ codes.lower.Nodup ∧ (∀ c ∈ codes.lower, c ∉ codes.upper) ∧
    codes.space ∉ codes.upper ∧ codes.space ∉ codes.lower ∧
    codes.star ∉ codes.upper ∧ codes.star ∉ codes.lower ∧ codes.star ≠ codes.space := by
  obtain ⟨-, -, nodup⟩ := h
  rw [List.nodup_append', List.nodup_append'] at nodup
  obtain ⟨⟨upper, lower, letters⟩, others, disjoint⟩ := nodup
  simp only [List.disjoint_cons_right, List.mem_append, not_or] at disjoint
  obtain ⟨⟨spaceUpper, spaceLower⟩, ⟨starUpper, starLower⟩, -⟩ := disjoint
  refine ⟨upper, lower, fun c l u => letters u l, spaceUpper, spaceLower, starUpper, starLower, ?_⟩
  simpa [eq_comm] using others

theorem mem_upper_iff {codes : CharCode} (h : codes.WellFormed) {c : Char8} :
    c ∈ codes.upper ↔ ∃ k < 26, c = upperChar codes k := by
  constructor
  · intro m
    obtain ⟨k, hk, rfl⟩ := List.getElem_of_mem m
    exact ⟨k, by rwa [h.1] at hk, (List.getD_eq_getElem _ _ hk).symm⟩
  · rintro ⟨k, hk, rfl⟩
    exact upperChar_mem h hk

theorem mem_lower_iff {codes : CharCode} (h : codes.WellFormed) {c : Char8} :
    c ∈ codes.lower ↔ ∃ k < 26, c = lowerChar codes k := by
  constructor
  · intro m
    obtain ⟨k, hk, rfl⟩ := List.getElem_of_mem m
    exact ⟨k, by rwa [h.2.1] at hk, (List.getD_eq_getElem _ _ hk).symm⟩
  · rintro ⟨k, hk, rfl⟩
    exact lowerChar_mem h hk

theorem symOfChar_upperChar {codes : CharCode} (h : codes.WellFormed) {k : Nat} (hk : k < 26) :
    symOfChar codes (upperChar codes k) = some k := by
  obtain ⟨nodup, -⟩ := codes_distinct h
  rw [symOfChar, if_pos (upperChar_mem h hk), upperChar, List.getD_eq_getElem _ _ (by rwa [h.1]),
    nodup.idxOf_getElem]

theorem symOfChar_lowerChar {codes : CharCode} (h : codes.WellFormed) {k : Nat} (hk : k < 26) :
    symOfChar codes (lowerChar codes k) = some k := by
  obtain ⟨-, nodup, apart, -⟩ := codes_distinct h
  have lower := lowerChar_mem h hk
  rw [symOfChar, if_neg (apart _ lower), if_pos lower, lowerChar, List.getD_eq_getElem _ _ (by rwa [h.2.1]),
    nodup.idxOf_getElem]

theorem symOfChar_space {codes : CharCode} (h : codes.WellFormed) : symOfChar codes codes.space = some 26 := by
  obtain ⟨-, -, -, upper, lower, -⟩ := codes_distinct h
  rw [symOfChar, if_neg upper, if_neg lower, if_pos rfl, spaceSym]

theorem symOfChar_eq_none_iff {codes : CharCode} {c : Char8} :
    symOfChar codes c = none ↔ c ∉ codes.upper ∧ c ∉ codes.lower ∧ c ≠ codes.space := by
  rw [← Option.not_isSome_iff_eq_none, symOfChar_isSome]
  simp only [not_or, ne_eq]

theorem isUpper_eq_false {codes : CharCode} {c : Char8} (h : c ∉ codes.upper) : isUpper codes c = false :=
  decide_eq_false h

theorem isUpper_upperChar {codes : CharCode} (h : codes.WellFormed) {k : Nat} (hk : k < 26) :
    isUpper codes (upperChar codes k) = true :=
  decide_eq_true (upperChar_mem h hk)

theorem isUpper_lowerChar {codes : CharCode} (h : codes.WellFormed) {k : Nat} (hk : k < 26) :
    isUpper codes (lowerChar codes k) = false := by
  obtain ⟨-, -, apart, -⟩ := codes_distinct h
  exact isUpper_eq_false (apart _ (lowerChar_mem h hk))

theorem isUpper_space {codes : CharCode} (h : codes.WellFormed) : isUpper codes codes.space = false := by
  obtain ⟨-, -, -, upper, -⟩ := codes_distinct h
  exact isUpper_eq_false upper

/-- A code outside the 53 characters has no symbol. -/
theorem symOfChar_eq_none {codes : CharCode} (h : codes.WellFormed) {c : Char8}
    (letters : ∀ k < 26, c ≠ upperChar codes k ∧ c ≠ lowerChar codes k) (space : c ≠ codes.space) :
    symOfChar codes c = none := by
  refine symOfChar_eq_none_iff.mpr ⟨fun m => ?_, fun m => ?_, space⟩
  · obtain ⟨k, hk, e⟩ := (mem_upper_iff h).mp m
    exact (letters k hk).1 e
  · obtain ⟨k, hk, e⟩ := (mem_lower_iff h).mp m
    exact (letters k hk).2 e

/-- Settles O53: where a code stands in CHARCODE decides its symbol and case (log entry 4). -/
theorem legalCharacterCodes : Obligations.LegalCharacterCodes := by
  intro codes h
  obtain ⟨-, -, -, -, -, starUpper, starLower, starSpace⟩ := codes_distinct h
  exact ⟨fun k hk => ⟨symOfChar_upperChar h hk, isUpper_upperChar h hk⟩,
    fun k hk => ⟨symOfChar_lowerChar h hk, isUpper_lowerChar h hk⟩,
    symOfChar_space h, isUpper_space h,
    symOfChar_eq_none_iff.mpr ⟨starUpper, starLower, starSpace⟩,
    fun c letters space => symOfChar_eq_none h letters space⟩

theorem ascii_wellFormed : CharCode.ascii.WellFormed := by decide

theorem upperChar_ascii {k : Nat} (hk : k < 26) : upperChar .ascii k = BitVec.ofNat 8 (0x41 + k) := by
  simp [upperChar, CharCode.ascii, List.getD_eq_getElem?_getD, hk]

theorem lowerChar_ascii {k : Nat} (hk : k < 26) : lowerChar .ascii k = BitVec.ofNat 8 (0x61 + k) := by
  simp [lowerChar, CharCode.ascii, List.getD_eq_getElem?_getD, hk]

/-- Settles O23: each ASCII range is a range of `upperChar` or `lowerChar`, whose symbol and case are known. -/
theorem characterCodes : Obligations.CharacterCodes := by
  intro c
  refine ⟨fun range => ?_, fun range => ?_, fun e => ?_, fun outside => ?_⟩
  · have hk : c.toNat - 0x41 < 26 := by omega
    have letter : upperChar .ascii (c.toNat - 0x41) = c := by
      rw [upperChar_ascii hk]
      apply BitVec.eq_of_toNat_eq
      rw [BitVec.toNat_ofNat]
      omega
    have sym := symOfChar_upperChar ascii_wellFormed hk
    have case := isUpper_upperChar ascii_wellFormed hk
    rw [letter] at sym case
    exact ⟨sym, case⟩
  · have hk : c.toNat - 0x61 < 26 := by omega
    have letter : lowerChar .ascii (c.toNat - 0x61) = c := by
      rw [lowerChar_ascii hk]
      apply BitVec.eq_of_toNat_eq
      rw [BitVec.toNat_ofNat]
      omega
    have sym := symOfChar_lowerChar ascii_wellFormed hk
    have case := isUpper_lowerChar ascii_wellFormed hk
    rw [letter] at sym case
    exact ⟨sym, case⟩
  · have space : c = CharCode.ascii.space := BitVec.eq_of_toNat_eq e
    rw [space]
    exact ⟨symOfChar_space ascii_wellFormed, isUpper_space ascii_wellFormed⟩
  · have letters : ∀ k < 26, c ≠ upperChar .ascii k ∧ c ≠ lowerChar .ascii k := by
      intro k hk
      rw [upperChar_ascii hk, lowerChar_ascii hk]
      constructor <;> rintro rfl <;> rw [BitVec.toNat_ofNat] at outside <;> omega
    have space : c ≠ CharCode.ascii.space := by
      rintro rfl
      exact absurd outside (by decide)
    have none := symOfChar_eq_none ascii_wellFormed letters space
    obtain ⟨upper, -, -⟩ := symOfChar_eq_none_iff.mp none
    exact ⟨none, isUpper_eq_false upper⟩

/-! ## The formats of RES (R24) -/

theorem toNat_append_eq {m n : Nat} (x : BitVec m) (y : BitVec n) : (x ++ y).toNat = x.toNat * 2 ^ n + y.toNat := by
  rw [BitVec.toNat_append, ← Nat.shiftLeft_add_eq_or_of_lt y.isLt, Nat.shiftLeft_eq]

theorem sortAsc_perm (l : List Nat) : (sortAsc l).Perm l := List.perm_insertionSort _ l

/-- Sorting different numbers puts them in strictly rising order. -/
theorem sortAsc_strict {l : List Nat} (h : l.Nodup) : (sortAsc l).Pairwise (· < ·) := by
  have le : (sortAsc l).Pairwise (· ≤ ·) := List.pairwise_insertionSort _ l
  have ne : (sortAsc l).Pairwise (· ≠ ·) := (sortAsc_perm l).nodup_iff.mpr h
  exact (le.and ne).imp fun ⟨a, b⟩ => lt_of_le_of_ne a b

theorem canonIndex_bounds : ∀ f ∈ restricted, 2 ≤ canonIndex f ∧ canonIndex f ≤ 10 := by decide

theorem canonIndex_strictMono : ∀ f ∈ restricted, ∀ g ∈ restricted, f < g → canonIndex f < canonIndex g := by decide

/-- At legal parameters the sorted Signature of a symbol has three strictly rising canonical indices 2..10 (R95). -/
theorem sigSorted_indices {cfg : Config} (h : cfg.WellFormed) {k : Nat} (hk : k < 27) :
    ∃ f0 f1 f2, sigSorted cfg k = [f0, f1, f2] ∧ 2 ≤ canonIndex f0 ∧ canonIndex f0 < canonIndex f1 ∧
      canonIndex f1 < canonIndex f2 ∧ canonIndex f2 ≤ 10 := by
  obtain ⟨-, rows, legal, -, -⟩ := h
  have hk : k < cfg.sigtab.length := by rwa [rows]
  obtain ⟨nodup, members⟩ := legal _ (List.getElem_mem hk)
  have sorted : sigSorted cfg k = sortAsc cfg.sigtab[k].toList := by
    rw [sigSorted, List.getElem?_eq_getElem hk]
    rfl
  have perm := sortAsc_perm cfg.sigtab[k].toList
  obtain ⟨f0, f1, f2, e⟩ := List.length_eq_three.mp perm.length_eq
  have strict := sortAsc_strict nodup
  simp only [e, List.pairwise_cons, List.mem_cons, List.not_mem_nil, or_false, forall_eq_or_imp, forall_eq] at strict
  obtain ⟨⟨lt01, -⟩, lt12, -⟩ := strict
  have mem : ∀ f ∈ [f0, f1, f2], f ∈ restricted := fun f m => members f (perm.mem_iff.mp (e ▸ m))
  have m0 := mem f0 (by simp)
  have m1 := mem f1 (by simp)
  have m2 := mem f2 (by simp)
  exact ⟨f0, f1, f2, sorted.trans e, (canonIndex_bounds f0 m0).1, canonIndex_strictMono f0 m0 f1 m1 lt01,
    canonIndex_strictMono f1 m1 f2 m2 lt12, (canonIndex_bounds f2 m2).2⟩

theorem isSigResult_resOfSignature {i0 i1 i2 : Nat} (h0 : 2 ≤ i0) (h01 : i0 < i1) (h12 : i1 < i2) (h2 : i2 ≤ 10) :
    isSigResult (resOfSignature i0 i1 i2) = true := by
  have field0 : (resOfSignature i0 i1 i2).extractLsb' 0 4 = BitVec.ofNat 4 i0 := BitVec.extractLsb'_append_eq_right
  have field1 : (resOfSignature i0 i1 i2).extractLsb' 4 4 = BitVec.ofNat 4 i1 := by
    rw [resOfSignature, BitVec.extractLsb'_append_eq_of_le (by decide)]
    exact BitVec.extractLsb'_append_eq_right
  have field2 : (resOfSignature i0 i1 i2).extractLsb' 8 4 = BitVec.ofNat 4 i2 := by
    rw [resOfSignature, BitVec.extractLsb'_append_eq_of_le (by decide), BitVec.extractLsb'_append_eq_of_le (by decide)]
    exact BitVec.extractLsb'_append_eq_right
  have size : (resOfSignature i0 i1 i2).toNat < 2 ^ 12 := by
    rw [resOfSignature]
    simp only [toNat_append_eq, BitVec.toNat_ofNat]
    omega
  simp only [isSigResult, field0, field1, field2, BitVec.toNat_ofNat, Bool.and_eq_true, decide_eq_true_eq]
  omega

theorem sigResult_legal {cfg : Config} (h : cfg.WellFormed) {k : Nat} (hk : k < 27) :
    isSigResult (sigResult cfg k) = true := by
  obtain ⟨f0, f1, f2, e, i0, i01, i12, i2⟩ := sigSorted_indices h hk
  rw [sigResult, e]
  exact isSigResult_resOfSignature i0 i01 i12 i2

theorem letResult_legal {cfg : Config} (h : cfg.charcode.WellFormed) (upper : Bool) (j2 j1 j0 : Nat) :
    isLetResult cfg.charcode (letResult cfg upper j2 j1 j0) = true := by
  rw [letResult, isLetResult]
  cases e : letterOf cfg (sortAsc [canonAt j0, canonAt j1, canonAt j2]) upper with
  | none => simp [resOfLookup]
  | some c =>
    have text : isText cfg.charcode c = true := letterOf_isSome h e
    have char : (resOfLookup cfg.charcode (some c)).extractLsb' 0 8 = c := BitVec.extractLsb'_append_eq_right
    have size : (resOfLookup cfg.charcode (some c)).toNat < 2 ^ 8 := by
      simp only [resOfLookup, toNat_append_eq, BitVec.toNat_ofNat]
      omega
    rw [char, text, decide_eq_true size]
    simp

/-- The loop answers the index it had, or one of those it goes through. -/
theorem quantizeLoop_lt (num den : Nat) (l : List Nat) {i best : Nat} (h : best < i) (bd : Nat) :
    quantizeLoop num den l i best bd < i + l.length := by
  induction l generalizing i best bd with
  | nil => exact h
  | cons f fs ih =>
    rw [quantizeLoop, List.length_cons]
    split
    · have := ih (i := i + 1) (by omega : i < i + 1) ((num : Int) - den * f).natAbs
      omega
    · have := ih (i := i + 1) (by omega : best < i + 1) bd
      omega

theorem quantize_le (num den : Nat) : quantize num den ≤ 10 :=
  Nat.le_of_lt_succ (quantizeLoop_lt num den (canon.drop 1) Nat.zero_lt_one _)

theorem resOfIndex_legal {i : Nat} (h : i ≤ 10) : isQntResult (resOfIndex i) = true := by
  rw [isQntResult, decide_eq_true_eq, resOfIndex, BitVec.toNat_ofNat]
  omega

/-! ## What the decoders answer (R177, R201 (d)) -/

/-- An answer the invariant allows: text or `*`, and DEGEN never without UNREC. -/
def SoundAnswer (codes : CharCode) (r : Decoded) : Prop :=
  isOutput codes r.char = true ∧ (r.degen = true → r.unrec = true)

theorem soundAnswer_degenerate (codes : CharCode) : SoundAnswer codes (.degenerate codes) :=
  ⟨by simp [isOutput, Decoded.degenerate], fun _ => rfl⟩

theorem soundAnswer_lookup {cfg : Config} (h : cfg.charcode.WellFormed) (t : List Nat) (upper : Bool) :
    SoundAnswer cfg.charcode (.ofLookup cfg.charcode (letterOf cfg t upper)) := by
  cases e : letterOf cfg t upper with
  | none => exact ⟨by simp [isOutput, Decoded.ofLookup], fun d => by cases d⟩
  | some c =>
    have text : isText cfg.charcode c = true := letterOf_isSome h e
    exact ⟨by simp [isOutput, Decoded.ofLookup, text], fun d => by cases d⟩

theorem specDecode_sound {cfg : Config} (h : cfg.charcode.WellFormed) (b : List Int) :
    SoundAnswer cfg.charcode (specDecode cfg b) := by
  simp only [specDecode, forcedList_eq]
  split
  · exact soundAnswer_degenerate _
  · exact soundAnswer_lookup h _ _

theorem fbDecode_sound {cfg : Config} (h : cfg.charcode.WellFormed) (b : List Int) :
    SoundAnswer cfg.charcode (fbDecode cfg b) := by
  simp only [fbDecode, forcedList_eq]
  split
  · exact soundAnswer_degenerate _
  · split <;> exact soundAnswer_lookup h _ _

/-! ## The flags of STATUS (R25, R191) -/

theorem code_lt (c : Condition) : c.code < 7 := by cases c <;> decide

theorem code_inj {c d : Condition} : c.code = d.code ↔ c = d := by
  constructor
  · cases c <;> cases d <;> simp [Condition.code]
  · exact congrArg _

theorem getLsbD_statusMask {i : Nat} (h : i < 7) : statusMask.getLsbD i = true := by
  interval_cases i <;> rfl

theorem mask_reserved (v : Word) : v &&& statusMask &&& ~~~statusMask = 0 := by
  rw [BitVec.and_assoc, BitVec.and_not_self]
  exact BitVec.and_zero

/-- Raising a condition sets its flag and keeps the six others. -/
theorem raise_flag (c d : Condition) (s : State) : (raise c s).flag d = (decide (d = c) || s.flag d) := by
  have bit : (1#32 <<< c.code).getLsbD d.code = decide (d = c) := by
    have lt : d.code < 32 := (code_lt d).trans (by decide)
    change (BitVec.twoPow 32 c.code).getLsbD d.code = _
    rw [BitVec.getLsbD_twoPow, decide_eq_true ((code_lt c).trans (by decide)), Bool.true_and]
    exact decide_eq_decide.mpr (code_inj.trans eq_comm)
  rw [State.flag, raise_status, setFlag, BitVec.getLsbD_and, BitVec.getLsbD_or, getLsbD_statusMask (code_lt d), bit,
    Bool.and_true, Bool.or_comm, State.flag]

theorem raiseIf_flag (b : Bool) (c d : Condition) (s : State) :
    (raiseIf b c s).flag d = (b && decide (d = c) || s.flag d) := by
  cases b with
  | false => simp [raiseIf]
  | true => simp [raiseIf, raise_flag]

/-- The part of the invariant about STATUS. -/
def StatusLegal (s : State) : Prop :=
  s.status &&& ~~~statusMask = 0 ∧ (s.flag .degenerateBlock = true → s.flag .unrecognizedSymbol = true)

theorem statusLegal_zero {s : State} (h : s.status = 0) : StatusLegal s := by
  unfold StatusLegal State.flag
  rw [h]
  decide

theorem statusLegal_raise {s : State} (h : StatusLegal s) {c : Condition} (alone : c ≠ .degenerateBlock) :
    StatusLegal (raise c s) := by
  obtain ⟨-, pair⟩ := h
  refine ⟨mask_reserved _, fun degen => ?_⟩
  rw [raise_flag, decide_eq_false alone.symm, Bool.false_or] at degen
  rw [raise_flag, pair degen, Bool.or_true]

theorem statusLegal_deliver {s : State} (h : StatusLegal s) {r : Decoded} (sound : r.degen = true → r.unrec = true) :
    StatusLegal (deliver r s) := by
  obtain ⟨reserved, pair⟩ := h
  have flag : ∀ d, (deliver r s).flag d = (r.unrec && decide (d = .unrecognizedSymbol) ||
      (r.degen && decide (d = .degenerateBlock) || s.flag d)) := fun d =>
    (raiseIf_flag _ _ _ _).trans (congrArg _ (raiseIf_flag _ _ _ _))
  constructor
  · have status : (deliver r s).status = s.status ∨ ∃ v, (deliver r s).status = v &&& statusMask := by
      rw [deliver_eq]
      unfold deliverStatus
      cases r.unrec with
      | true => exact .inr ⟨_, rfl⟩
      | false =>
        cases r.degen with
        | true => exact .inr ⟨_, rfl⟩
        | false => exact .inl rfl
    obtain e | ⟨v, e⟩ := status
    · rw [e, reserved]
    · rw [e, mask_reserved]
  · rw [flag, flag]
    intro degen
    cases d : r.degen with
    | true => simp [sound d]
    | false => simp [pair (by simpa [d] using degen)]

/-! ## The invariant under each shared operation -/

/-- The part of the invariant about RES. -/
def ResLegal (codes : CharCode) (r : Word) : Prop :=
  (isSigResult r || isLetResult codes r || isQntResult r) = true

theorem inv_raise {s : State} (h : Inv s) {c : Condition} (alone : c ≠ .degenerateBlock) : Inv (raise c s) := by
  obtain ⟨params, buffer, reserved, pair, res, output⟩ := h
  obtain ⟨reserved', pair'⟩ := statusLegal_raise ⟨reserved, pair⟩ alone
  exact ⟨params, buffer, reserved', pair', res, output⟩

theorem inv_setRes {s : State} (h : Inv s) {v : Word} (legal : ResLegal s.config.charcode v) : Inv (s.setRes v) := by
  obtain ⟨params, buffer, reserved, pair, -, output⟩ := h
  exact ⟨params, buffer, reserved, pair, legal, output⟩

theorem inv_emitBlock {s : State} (h : Inv s) (p : List Sample × Bool) : Inv (emitBlock p s) := by
  obtain ⟨samples, clipped⟩ := p
  have pushed : Inv (s.pushSamples samples) := h
  cases clipped with
  | false => exact pushed
  | true => exact inv_raise pushed (by decide)

theorem inv_deliver {s : State} (h : Inv s) {r : Decoded} (sound : SoundAnswer s.config.charcode r) :
    Inv (deliver r s) := by
  obtain ⟨params, buffer, reserved, pair, res, output⟩ := h
  obtain ⟨char, flags⟩ := sound
  obtain ⟨reserved', pair'⟩ := statusLegal_deliver ⟨reserved, pair⟩ flags
  have output' : (s.cout ++ [r.char]).all (isOutput s.config.charcode) = true := by simp [output, char]
  refine ⟨?_, ?_, reserved', pair', ?_, ?_⟩ <;> rw [deliver_eq] <;> assumption

theorem inv_loadSample {s : State} (h : Inv s) (v : Sample) (room : s.scnt.val < blockLength) :
    Inv (s.loadSample v room) := by
  obtain ⟨params, buffer, rest⟩ := h
  exact ⟨params, write_wf buffer v room, rest⟩

theorem inv_clearFlags {s : State} (h : Inv s) : Inv (s.setStatus 0) := by
  obtain ⟨params, buffer, -, -, res, output⟩ := h
  obtain ⟨reserved, pair⟩ := statusLegal_zero (s := s.setStatus 0) rfl
  exact ⟨params, buffer, reserved, pair, res, output⟩

/-- The reset values meet the invariant, whatever legal parameters and canonical buffer they stand with (R31). -/
theorem inv_of_resetValues {s : State} (params : s.config.WellFormed) (buffer : s.blk.wf = true) (status : s.status = 0)
    (res : s.res = 0) (cout : s.cout = []) : Inv s := by
  obtain ⟨reserved, pair⟩ := statusLegal_zero status
  refine ⟨params, buffer, reserved, pair, ?_, ?_⟩
  · rw [res, show isQntResult 0 = true from rfl, Bool.or_true]
  · rw [cout]
    rfl

theorem inv_toReset {s : State} (h : Inv s) : Inv s.toReset := by
  obtain ⟨params, buffer, -⟩ := h
  exact inv_of_resetValues params buffer rfl rfl rfl

theorem inv_resetWith {cfg : Config} (h : cfg.WellFormed) : Inv (State.resetWith cfg) :=
  inv_of_resetValues h rfl rfl rfl rfl

theorem decided_wellFormed : Config.decided.WellFormed := by decide

/-- Settles O41: `inv_resetWith`, at any legal parameters and at the decided ones. -/
theorem invariantAtReset : Obligations.InvariantAtReset :=
  ⟨fun _ h => inv_resetWith h, inv_resetWith decided_wellFormed⟩

/-- A read keeps the invariant: a pop of CDATA leaves the rest of COUT. -/
theorem inv_read {s : State} (h : Inv s) (off : Nat) : Inv (.observe (hostRead off s)) := by
  have kept : Inv (hostRead off s).2 := by
    obtain e | ⟨-, e⟩ | ⟨-, e⟩ := hostRead_cases off s
    · rwa [e]
    · rw [e]
      obtain ⟨-, e⟩ | ⟨v, rest, -, e⟩ := popSample_cases s <;> rw [e] <;> exact h
    · rw [e]
      obtain ⟨-, e⟩ | ⟨c, rest, queue, e⟩ := popChar_cases s <;> rw [e]
      · exact h
      · obtain ⟨params, buffer, reserved, pair, res, output⟩ := h
        rw [queue, List.all_cons, Bool.and_eq_true] at output
        exact ⟨params, buffer, reserved, pair, res, output.2⟩
  exact kept

/-! ## The invariant under commands, host actions and steps -/

theorem charcode_wellFormed {cfg : Config} (h : cfg.WellFormed) : cfg.charcode.WellFormed := by
  obtain ⟨-, -, -, -, codes⟩ := h
  exact codes

theorem CommandEffect.inv {i : Instr} {s t : State} (effect : CommandEffect s i t) (h : Inv s) : Inv t := by
  have params : s.config.WellFormed := h.1
  have codes := charcode_wellFormed params
  cases effect with
  | nop => exact h
  | raised _ alone => exact inv_raise h alone
  | sig legal => exact inv_setRes h (by simp [ResLegal, sigResult_legal params (of_decide_eq_true legal)])
  | let_ => exact inv_setRes h (by simp [ResLegal, letResult_legal codes])
  | seta => exact h
  | syn => exact inv_emitBlock h _
  | enc _ => exact inv_emitBlock h _
  | qnt => exact inv_setRes h (by simp [ResLegal, resOfIndex_legal (quantize_le _ _)])
  | decs => exact inv_deliver h (specDecode_sound codes _)
  | decf => exact inv_deliver h (fbDecode_sound codes _)
  | lds room => exact inv_loadSample h _ room
  | ends => exact h
  | clrf => exact inv_clearFlags h
  | rst => exact inv_toReset h

theorem HostEffect.inv {s t : State} (effect : HostEffect s t) (h : Inv s) : Inv t := by
  cases effect with
  | command effect => exact effect.inv h
  | illegal => exact inv_raise h (by decide)
  | ignored => exact h
  | read off => exact inv_read h off
  | reset => exact inv_toReset h

/-- Settles O42: each effect of a step is made of shared operations, each of which keeps the invariant. -/
theorem invariantKeptByEveryStep : Obligations.InvariantKeptByEveryStep := by
  intro s t h e
  obtain rfl | ⟨rest, effect⟩ := step_effect e
  · exact h
  · have taken : Inv { s with inputs := rest } := h
    exact effect.inv taken

/-! ## The parameters -/

theorem hostRead_config (off : Nat) (s : State) : (hostRead off s).2.config = s.config := by
  obtain e | ⟨-, e⟩ | ⟨-, e⟩ := hostRead_cases off s <;> rw [e]
  · obtain ⟨-, e⟩ | ⟨v, rest, -, e⟩ := popSample_cases s <;> rw [e]
  · obtain ⟨-, e⟩ | ⟨c, rest, -, e⟩ := popChar_cases s <;> rw [e]

theorem HostEffect.config_eq {s t : State} (effect : HostEffect s t) : t.config = s.config := by
  cases effect with
  | command effect => exact effect.frame.1
  | illegal => rfl
  | ignored => rfl
  | read off => exact hostRead_config off s
  | reset => rfl

/-- Settles O54: no effect of a host action writes the parameters (R16, log entry 4). -/
theorem configurationNeverWritten : Obligations.ConfigurationNeverWritten := by
  intro s t e
  obtain rfl | ⟨rest, effect⟩ := step_effect e
  · rfl
  · exact effect.config_eq

/-- What every step of a machine keeps holds at the end of every run that reaches a state. -/
theorem run_keeps {M : Host.Core} {P : M.State → Prop} (kept : ∀ s t, P s → M.step s = .next t → P t) (n : Nat)
    {s t : M.State} (h : P s) (e : M.run n s = .next t) : P t := by
  induction n generalizing s with
  | zero =>
    cases e
    exact h
  | succ n ih =>
    rw [Host.Core.run] at e
    split at e
    · next s' e' => exact ih (kept s s' h e') e
    · cases e
    · cases e

/-- Settles O55: `run_keeps` for the parameters and for the invariant, which each step keeps, from the reset state. -/
theorem runsKeepParameters : Obligations.RunsKeepParameters := by
  intro cfg actions n t e
  constructor
  · have kept : ∀ s t : State, s.config = cfg → step s = .next t → t.config = cfg := fun s t h e =>
      (configurationNeverWritten s t e).trans h
    exact run_keeps (M := machineAt cfg) kept n rfl e
  · intro legal
    have start : Inv { State.resetWith cfg with inputs := actions } := inv_resetWith legal
    exact run_keeps (M := machineAt cfg) invariantKeptByEveryStep n start e

/-- Settles O52: the decided parameters and `machineAt` unfolded (R7, R91, R11; log entry 4). -/
theorem defaultParameters : Obligations.DefaultParameters :=
  ⟨rfl, rfl, rfl, decided_wellFormed, rfl, fun _ => ⟨rfl, rfl, rfl, rfl⟩⟩

end Sys2Proof.Proofs

/-! ## The host's register map, SCNT, the sticky flags, the block and the queues

The reads of R28 one by one, what each command does to SCNT and to a set flag, and two inductions: over the samples an
LDB stores and over the samples a host pops. -/

namespace Sys2Proof.Proofs

open Sys2Proof.Machine Sys2Proof.Safety Sys2Proof.Laws

/-! ### The block: LDS one by one (R84, R172) -/

theorem execAll_cons {i : Instr} {s s' : State} (h : exec i s = .next s') (is : List Instr) :
    execAll (i :: is) s = execAll is s' := by
  rw [execAll, h]

theorem exec_lds_room (v : Sample) {s : State} (room : s.scnt.val < blockLength) :
    exec (.lds v) s = .next (s.loadSample v room) := dif_pos room

theorem exec_lds_full (v : Sample) {s : State} (full : s.scnt.val = 320) :
    exec (.lds v) s = .next (raise .blockOverrun s) := dif_neg (by rw [full]; decide)

/-- `t` is `s` after the samples of `vs` were stored one after another, from BLK[SCNT] on. -/
structure SamplesStored (s : State) (vs : List Sample) (t : State) : Prop where
  frame : t = { s with blk := t.blk, scnt := t.scnt }
  count : t.scnt.val = s.scnt.val + vs.length
  canonical : t.blk.wf = true
  kept : ∀ a < s.scnt.val, t.blk.read a = s.blk.read a
  stored : ∀ (k : Nat) (h : k < vs.length), t.blk.read (s.scnt.val + k) = vs[k]

theorem SamplesStored.nil {s : State} (canonical : s.blk.wf = true) : SamplesStored s [] s where
  frame := rfl
  count := rfl
  canonical := canonical
  kept := fun _ _ => rfl
  stored := fun k h => absurd h (Nat.not_lt_zero k)

/-- A sample stored before the others: the later ones go to later entries. -/
theorem SamplesStored.cons {s t : State} {v : Sample} {vs : List Sample} (canonical : s.blk.wf = true)
    (room : s.scnt.val < blockLength) (h : SamplesStored (s.loadSample v room) vs t) : SamplesStored s (v :: vs) t := by
  obtain ⟨frame, count, canonical', kept, stored⟩ := h
  simp only [loadSample_scnt, loadSample_blk] at count kept stored
  refine ⟨frame, ?_, canonical', fun a lt => ?_, fun k lt => ?_⟩
  · rw [count, List.length_cons]
    omega
  · rw [kept a (by omega), read_write_other _ _ _ _ (by omega)]
  · cases k with
    | zero => exact (kept _ (Nat.lt_succ_self _)).trans (read_write_same canonical _ _)
    | succ k =>
      rw [List.getElem_cons_succ, ← stored k (Nat.lt_of_succ_lt_succ lt), Nat.add_assoc, Nat.add_comm 1 k]

/-- An LDB of no more samples than there is room for stores them all (R84, R172). -/
theorem execAll_loadProgram (vs : List Sample) {s : State} (canonical : s.blk.wf = true)
    (room : s.scnt.val + vs.length ≤ blockLength) :
    ∃ t, execAll (loadProgram vs) s = .next t ∧ SamplesStored s vs t := by
  induction vs generalizing s with
  | nil => exact ⟨s, rfl, .nil canonical⟩
  | cons v vs ih =>
    rw [List.length_cons] at room
    have here : s.scnt.val < blockLength := by omega
    have later : s.scnt.val + 1 + vs.length ≤ blockLength := by omega
    obtain ⟨t, run, stored⟩ := ih (s := s.loadSample v here) (write_wf canonical v here) later
    exact ⟨t, (execAll_cons (exec_lds_room v here) _).trans run, stored.cons canonical here⟩

/-- The decoders read what a whole LDB stored. -/
theorem SamplesStored.block_eq {s t : State} {vs : List Sample} (h : SamplesStored s vs t) (empty : s.scnt = 0)
    (whole : vs.length = 320) : t.block = vs.map BitVec.toInt := by
  apply List.ext_getElem
  · rw [block_length, List.length_map, whole]
  · intro k _ lt
    rw [List.length_map] at lt
    have read : t.blk.read k = vs[k] := by simpa [empty] using h.stored k lt
    simp [State.block, read]

/-- Settles O28: `execAll_loadProgram` from SCNT = 0, and the decoders' view of what it stored. -/
theorem loadProgramFillsBlock : Obligations.LoadProgramFillsBlock := by
  intro s block canonical empty whole
  have room : s.scnt.val + block.length ≤ blockLength := by
    rw [empty, whole]
    decide
  obtain ⟨t, run, stored⟩ := execAll_loadProgram block canonical room
  have full : t.scnt.val = 320 := by
    rw [stored.count, empty, whole]
    rfl
  exact ⟨t, run, stored.frame, full, stored.block_eq empty whole⟩

/-! ### The flags (R25, R203) -/

theorem flag_of_status_eq {s t : State} (h : t.status = s.status) (c : Condition) : t.flag c = s.flag c :=
  congrArg (·.getLsbD c.code) h

theorem emitBlock_flag (p : List Sample × Bool) (s : State) (c : Condition) :
    (emitBlock p s).flag c = (p.2 && decide (c = .pcmClip) || s.flag c) :=
  raiseIf_flag p.2 .pcmClip c (s.pushSamples p.1)

theorem deliver_flag (r : Decoded) (s : State) (c : Condition) :
    (deliver r s).flag c = (r.unrec && decide (c = .unrecognizedSymbol) ||
      (r.degen && decide (c = .degenerateBlock) || s.flag c)) :=
  (raiseIf_flag r.unrec _ c _).trans (congrArg _ (raiseIf_flag r.degen _ c (s.pushChar r.char)))

/-- Each effect of a command but those of CLRF and RST keeps every flag that is set. -/
theorem CommandEffect.flag_kept {i : Instr} {s t : State} (effect : CommandEffect s i t) (notClrf : i ≠ .clrf)
    (notRst : i ≠ .rst) {c : Condition} (set : s.flag c = true) : t.flag c = true := by
  cases effect with
  | raised _ _ => rw [raise_flag, set, Bool.or_true]
  | syn => rw [emitBlock_flag, set, Bool.or_true]
  | enc _ => rw [emitBlock_flag, set, Bool.or_true]
  | decs => rw [deliver_flag, set, Bool.or_true, Bool.or_true]
  | decf => rw [deliver_flag, set, Bool.or_true, Bool.or_true]
  | clrf => exact absurd rfl notClrf
  | rst => exact absurd rfl notRst
  | nop | sig _ | let_ | seta | qnt | lds _ | ends => exact set

/-- Settles O44: every effect of another command than CLRF and RST keeps a set flag. -/
theorem flagsAreSticky : Obligations.FlagsAreSticky :=
  fun _ _ _ _ notClrf notRst h set => (exec_effect h).flag_kept notClrf notRst set

/-! ### SCNT (R22) -/

/-- A decode command empties a full block and keeps any other count (R138, R160). -/
theorem decodeCommand_scnt (decoder : List Int → Decoded) (s : State) :
    (decodeCommand decoder s).scnt.val = if s.scnt.val = 320 then 0 else s.scnt.val := by
  obtain ⟨few, e⟩ | ⟨full, e⟩ := decodeCommand_cases decoder s
  · rw [e, if_neg (Nat.ne_of_lt few)]
  · rw [e, if_pos full]
    rfl

theorem lds_scnt_room {v : Sample} {s t : State} (h : exec (.lds v) s = .next t) (room : s.scnt.val < 320) :
    t.scnt.val = s.scnt.val + 1 := by
  rw [exec_lds_room v room] at h
  cases h
  rfl

theorem lds_scnt_full {v : Sample} {s t : State} (h : exec (.lds v) s = .next t) (full : s.scnt.val = 320) :
    t.scnt.val = 320 := by
  rw [exec_lds_full v full] at h
  cases h
  exact full

/-- Only LDS, the decode commands, ENDS and RST move SCNT. -/
theorem CommandEffect.scnt_kept {i : Instr} {s t : State} (effect : CommandEffect s i t) (notLds : ∀ v, i ≠ .lds v)
    (notDecs : i ≠ .decs) (notDecf : i ≠ .decf) (notEnds : i ≠ .ends) (notRst : i ≠ .rst) : t.scnt = s.scnt := by
  cases effect with
  | syn => rw [emitBlock_eq]
  | enc _ => rw [emitBlock_eq]
  | lds _ => exact absurd rfl (notLds _)
  | decs => exact absurd rfl notDecs
  | decf => exact absurd rfl notDecf
  | ends => exact absurd rfl notEnds
  | rst => exact absurd rfl notRst
  | nop | raised _ _ | sig _ | let_ | seta | qnt | clrf => rfl

/-- Settles O47: a clause for LDS with room and without, one for the decode commands, one for ENDS and RST, and
`CommandEffect.scnt_kept` for the others. -/
theorem sampleCountMoves : Obligations.SampleCountMoves := by
  intro i s t h
  refine ⟨?_, ?_, ?_, ?_, (exec_effect h).scnt_kept⟩
  · rintro ⟨v, rfl⟩ room
    exact lds_scnt_room h room
  · rintro ⟨v, rfl⟩ full
    exact lds_scnt_full h full
  · rintro (rfl | rfl) <;> cases h <;> exact decodeCommand_scnt _ s
  · rintro (rfl | rfl) <;> cases h <;> rfl

/-! ### The register map (R28) -/

/-- A supported read records its value in the state it leaves. -/
theorem hostAction_read {off : Nat} (aligned : off % 4 = 0) {s t : State} {w : Word} (read : hostRead off s = (w, t)) :
    hostAction (.read .word off) s = .next { t with observed := t.observed ++ [w] } := by
  have legal : accessSupported .word off = true := decide_eq_true aligned
  rw [hostAction, if_pos legal, read]
  rfl

theorem hostAction_write {off : Nat} (aligned : off % 4 = 0) (v : Word) (s : State) :
    hostAction (.write .word off v) s = hostWrite off v s := by
  have legal : accessSupported .word off = true := decide_eq_true aligned
  rw [hostAction, if_pos legal]

theorem popSample_nil {s : State} (queue : s.sout = []) : popSample s = (0, s) := by
  rw [popSample, queue]

theorem popSample_cons {s : State} {v : Sample} {rest : List Sample} (queue : s.sout = v :: rest) :
    popSample s = (1#1 ++ 0#15 ++ v, { s with sout := rest }) := by
  rw [popSample, queue]

theorem popChar_nil {s : State} (queue : s.cout = []) : popChar s = (0, s) := by
  rw [popChar, queue]

theorem popChar_cons {s : State} {c : Char8} {rest : List Char8} (queue : s.cout = c :: rest) :
    popChar s = (1#1 ++ 0#23 ++ c, { s with cout := rest }) := by
  rw [popChar, queue]

/-! What `hostRead` is at each offset of the map. -/

theorem hostRead_cmd (s : State) : hostRead 0x00 s = (0, s) := rfl
theorem hostRead_status (s : State) : hostRead 0x04 s = (s.status &&& statusMask, s) := rfl
theorem hostRead_amp (s : State) : hostRead 0x08 s = (s.amp.setWidth 32, s) := rfl
theorem hostRead_scnt (s : State) : hostRead 0x0C s = (BitVec.ofNat 32 s.scnt.val, s) := rfl
theorem hostRead_res (s : State) : hostRead 0x10 s = (s.res, s) := rfl
theorem hostRead_sdata (s : State) : hostRead 0x14 s = popSample s := rfl
theorem hostRead_slvl (s : State) : hostRead 0x18 s = (levelWord s.sout.length, s) := rfl
theorem hostRead_cdata (s : State) : hostRead 0x1C s = popChar s := rfl
theorem hostRead_clvl (s : State) : hostRead 0x20 s = (levelWord s.cout.length, s) := rfl

/-- Above the map every offset reads 0. -/
theorem hostRead_unlisted {off : Nat} (above : 0x20 < off) (s : State) : hostRead off s = (0, s) := by
  have listed : ∀ r ≤ 0x20, off ≠ r := fun r le => (le.trans_lt above).ne'
  rw [hostRead, if_neg (listed offStatus (by decide)), if_neg (listed offAmp (by decide)),
    if_neg (listed offScnt (by decide)), if_neg (listed offRes (by decide)), if_neg (listed offSdata (by decide)),
    if_neg (listed offSlvl (by decide)), if_neg (listed offCdata (by decide)), if_neg (listed offClvl (by decide))]

/-- Settles O49: each offset's `hostRead`, recorded by `hostAction_read`, and the two branches of `hostWrite`. -/
theorem hostRegisterMap : Obligations.HostRegisterMap := by
  intro s
  refine ⟨hostAction_read rfl (hostRead_cmd s), hostAction_read rfl (hostRead_status s),
    hostAction_read rfl (hostRead_amp s), hostAction_read rfl (hostRead_scnt s), hostAction_read rfl (hostRead_res s),
    fun empty => ?_, fun v rest queue => ?_, hostAction_read rfl (hostRead_slvl s), fun empty => ?_,
    fun c rest queue => ?_, hostAction_read rfl (hostRead_clvl s), fun off aligned above => ?_, fun v => ?_,
    fun off v aligned other => ?_⟩
  · exact hostAction_read rfl ((hostRead_sdata s).trans (popSample_nil empty))
  · exact hostAction_read rfl ((hostRead_sdata s).trans (popSample_cons queue))
  · exact hostAction_read rfl ((hostRead_cdata s).trans (popChar_nil empty))
  · exact hostAction_read rfl ((hostRead_cdata s).trans (popChar_cons queue))
  · exact hostAction_read aligned (hostRead_unlisted above s)
  · exact (hostAction_write rfl v s).trans (if_pos rfl)
  · exact (hostAction_write aligned v s).trans (if_neg other)

/-! ### Popping SDATA (R27) -/

theorem run_succ {M : Host.Core} {s s' : M.State} (h : M.step s = .next s') (n : Nat) :
    M.run (n + 1) s = M.run n s' := by
  rw [Host.Core.run, h]

theorem step_of_inputs {s : State} {a : HostAction} {rest : List HostAction} (waiting : s.inputs = a :: rest) :
    step s = hostAction a { s with inputs := rest } := by
  rw [step, nextAction, waiting]

/-- What a read of SDATA returns while samples are waiting: the head with the valid bit (R28). -/
def sdataWord (v : Sample) : Word := 1#1 ++ 0#15 ++ v

/-- A step that reads SDATA pops the head of SOUT. -/
theorem step_read_sdata {s : State} {v : Sample} {queue : List Sample} {rest : List HostAction}
    (head : s.sout = v :: queue) (waiting : s.inputs = .read .word 0x14 :: rest) :
    step s = .next { s with inputs := rest, sout := queue, observed := s.observed ++ [sdataWord v] } := by
  have read : hostRead 0x14 { s with inputs := rest } = (sdataWord v, { s with inputs := rest, sout := queue }) :=
    popSample_cons (s := { s with inputs := rest }) head
  rw [step_of_inputs waiting, hostAction_read rfl read]

/-- As many pops as there are samples return them in order and empty the queue. -/
theorem run_popSamples (queue : List Sample) {s : State} (samples : s.sout = queue)
    (reads : s.inputs = List.replicate queue.length (.read .word 0x14)) :
    Sys2Proof.core.run queue.length s
      = .next { s with inputs := [], sout := [], observed := s.observed ++ queue.map sdataWord } := by
  induction queue generalizing s with
  | nil =>
    rw [List.length_nil, List.replicate_zero] at reads
    rw [List.length_nil, List.map_nil, List.append_nil, ← reads, ← samples]
    rfl
  | cons v rest ih =>
    rw [List.length_cons, List.replicate_succ] at reads
    have pop := step_read_sdata samples reads
    refine (run_succ (M := Sys2Proof.core) pop rest.length).trans ((ih rfl rfl).trans ?_)
    simp only [List.map_cons, List.append_assoc, List.singleton_append]

/-- Settles O50: `run_popSamples` for the whole of SOUT. -/
theorem popsReturnQueueInOrder : Obligations.PopsReturnQueueInOrder :=
  fun s reads => run_popSamples s.sout rfl reads

/-! ### SETA (R101) -/

/-- Settles O17: SETA's arm writes AMP alone, its format is H with opcode 0x03, and the worked word decodes. -/
theorem setaSetsAmplitude : Obligations.SetaSetsAmplitude :=
  fun _ _ => ⟨rfl, rfl, by decide⟩

end Sys2Proof.Proofs

/-! ## The byte pair, programs, noninterference, the decoders on scaled blocks and on streams

Three inductions (over a program's commands, the samples of one block, the blocks of a stream), and `outputOf`: all a
command pushes or returns, as a function of what R57 lets it depend on. -/

namespace Sys2Proof.Proofs

open Sys2Proof.Machine Sys2Proof.Safety Sys2Proof.Laws

/-! ### The PCM byte pair (R51) -/

/-- The low byte of a sample is bits 7:0, the high byte bits 15:8. -/
theorem bytesOfSample_sampleOfBytes (lo hi : BitVec 8) : bytesOfSample (sampleOfBytes lo hi) = [lo, hi] := by
  have low : (hi ++ lo).extractLsb' 0 8 = lo := BitVec.extractLsb'_append_eq_right
  have high : (hi ++ lo).extractLsb' 8 8 = hi := BitVec.extractLsb'_append_eq_left
  rw [bytesOfSample, sampleOfBytes, low, high]

theorem toNat_sampleOfBytes (lo hi : BitVec 8) : (sampleOfBytes lo hi).toNat = lo.toNat + 256 * hi.toNat := by
  rw [sampleOfBytes, toNat_append_eq]
  omega

theorem toNat_bytesOfSample (v : Sample) : (bytesOfSample v).map BitVec.toNat = [v.toNat % 256, v.toNat / 256] := by
  have bound : v.toNat / 256 < 256 := by omega
  simp [bytesOfSample, BitVec.extractLsb'_toNat, Nat.shiftRight_eq_div_pow, Nat.mod_eq_of_lt bound]

/-- Settles O51: the two directions of R51 and the values of the bytes. -/
theorem pcmBytesLowFirst : Obligations.PcmBytesLowFirst :=
  fun v lo hi => ⟨bytesOfSample_sampleOfBytes lo hi, toNat_sampleOfBytes lo hi, toNat_bytesOfSample v⟩

/-! ### Running a program's words (R56) -/

/-- The state with another list of waiting host actions. -/
def withInputs (l : List HostAction) (s : State) : State := { s with inputs := l }

@[simp] theorem withInputs_config (l : List HostAction) (s : State) : (withInputs l s).config = s.config := rfl
@[simp] theorem withInputs_amp (l : List HostAction) (s : State) : (withInputs l s).amp = s.amp := rfl

theorem withInputs_self {l : List HostAction} {s : State} (h : s.inputs = l) : withInputs l s = s := by
  subst h
  rfl

theorem emitBlock_withInputs (p : List Sample × Bool) (l : List HostAction) (s : State) :
    emitBlock p (withInputs l s) = withInputs l (emitBlock p s) := by
  rw [emitBlock_eq, emitBlock_eq]
  rfl

theorem decodeCommand_withInputs (decoder : List Int → Decoded) (l : List HostAction) (s : State) :
    decodeCommand decoder (withInputs l s) = withInputs l (decodeCommand decoder s) := by
  rw [decodeCommand, decodeCommand, deliver_eq, deliver_eq, apply_ite (withInputs l)]
  rfl

theorem exec_enc_rejected {s : State} {c : Char8} (h : symOfChar s.config.charcode c = none) :
    exec (.enc c) s = .next (raise .encodingInputRejected s) := by
  rw [exec, execEnc, h]

theorem exec_enc_accepted {s : State} {c : Char8} {k : Nat} (h : symOfChar s.config.charcode c = some k) :
    exec (.enc c) s
      = .next (emitBlock (pcmBlock s.config k (isUpper s.config.charcode c) s.amp.toNat) s) := by
  rw [exec, execEnc, h]

/-- No command looks at the waiting host actions: with others waiting it does the same. -/
theorem exec_withInputs {i : Instr} {s t : State} (h : exec i s = .next t) (l : List HostAction) :
    exec i (withInputs l s) = .next (withInputs l t) := by
  cases i with
  | nop | seta _ | qnt _ | ends | clrf | rst =>
    cases h
    rfl
  | sig _ | let_ _ _ _ _ =>
    cases h
    rw [apply_ite (withInputs l)]
    rfl
  | syn _ _ =>
    cases h
    rw [apply_ite (withInputs l), ← emitBlock_withInputs]
    rfl
  | enc imm8 =>
    cases e : symOfChar s.config.charcode imm8 with
    | none =>
      rw [exec_enc_rejected e, Host.Outcome.next.injEq] at h
      subst h
      exact exec_enc_rejected (s := withInputs l s) e
    | some k =>
      rw [exec_enc_accepted e, Host.Outcome.next.injEq] at h
      subst h
      rw [exec_enc_accepted (s := withInputs l s) e, emitBlock_withInputs, withInputs_config, withInputs_amp]
  | decs | decf =>
    cases h
    exact congrArg _ (decodeCommand_withInputs _ l s)
  | lds v =>
    obtain ⟨room, e⟩ | ⟨full, -⟩ := execLds_cases v s
    · cases e.symm.trans h
      exact exec_lds_room v (s := withInputs l s) room
    · cases (exec_lds_full v full).symm.trans h
      exact exec_lds_full v (s := withInputs l s) full

/-- A step that takes the word of a legal command runs the command. -/
theorem step_encode {i : Instr} (legal : i.WellFormed) {s t : State} (h : exec i s = .next t) (l : List HostAction) :
    step (withInputs (.write .word 0 (encode i) :: l) s) = .next (withInputs l t) :=
  (stepRunsDecodedInstruction _ _ i l rfl (decode_encode legal)).trans (exec_withInputs h l)

/-- The words of a program, waiting as host actions, run as the program. -/
theorem run_asInputs {program : List Instr} (legal : ∀ i ∈ program, i.WellFormed) (s : State) :
    ∃ t, execAll program s = .next t ∧
      Sys2Proof.core.run program.length (withInputs (asInputs program) s) = .next (withInputs [] t) := by
  induction program generalizing s with
  | nil => exact ⟨s, rfl, rfl⟩
  | cons i is ih =>
    obtain ⟨legalHead, legalTail⟩ := List.forall_mem_cons.mp legal
    obtain ⟨s', e, -⟩ := exec_completes i s
    obtain ⟨t, all, run⟩ := ih legalTail s'
    have head : Sys2Proof.core.step (withInputs (asInputs (i :: is)) s) = .next (withInputs (asInputs is) s') :=
      step_encode legalHead e (asInputs is)
    exact ⟨t, (execAll_cons e is).trans all, (run_succ head is.length).trans run⟩

/-- No program changes what the host has waiting. -/
theorem execAll_inputs {program : List Instr} {s t : State} (h : execAll program s = .next t) : t.inputs = s.inputs := by
  induction program generalizing s with
  | nil =>
    cases h
    rfl
  | cons i is ih =>
    obtain ⟨s', e, effect⟩ := exec_completes i s
    rw [execAll_cons e] at h
    exact (ih h).trans effect.frame.2.1

/-- Settles O9: `run_asInputs`; with no action waiting before, none is waiting after. -/
theorem programRunsInOrder : Obligations.ProgramRunsInOrder := by
  intro program s legal idle
  obtain ⟨t, all, run⟩ := run_asInputs legal s
  rw [withInputs_self ((execAll_inputs all).trans idle)] at run
  exact ⟨t, all, run⟩

/-! ### What a command gives out (R57) -/

/-- What a command appends to the queues, and the value it writes to RES if it writes one. -/
structure Output where
  samples : List Sample := []
  chars : List Char8 := []
  result : Option Word := none

/-- The output of an accepted encoding: the rendered samples. -/
def Output.ofPcm (p : List Sample × Bool) : Output := { samples := p.1 }

/-- The output of a decode command: a character, if the block is full. -/
def Output.ofDecoder (decoder : List Int → Decoded) (scnt : Fin 321) (block : List Int) : Output :=
  if scnt.val < 320 then {} else { chars := [(decoder block).char] }

/-- The output of each command but RST, from all it may depend on (R57): the parameters, AMP, SCNT and the block. -/
def outputOf (cfg : Config) (amp : BitVec 16) (scnt : Fin 321) (block : List Int) : Instr → Output
  | .sig imm8 => if isSym imm8.toNat then { result := some (sigResult cfg imm8.toNat) } else {}
  | .let_ upper j2 j1 j0 =>
    if isCanonIndex j0.toNat && isCanonIndex j1.toNat && isCanonIndex j2.toNat then
      { result := some (letResult cfg upper j2.toNat j1.toNat j0.toNat) }
    else {}
  | .syn sym upper => if isSym sym.toNat then .ofPcm (pcmBlock cfg sym.toNat upper amp.toNat) else {}
  | .enc imm8 =>
    ((symOfChar cfg.charcode imm8).map fun k =>
      Output.ofPcm (pcmBlock cfg k (isUpper cfg.charcode imm8) amp.toNat)).getD {}
  | .qnt imm16 => { result := some (resOfIndex (quantize imm16.toNat 8)) }
  | .decs => .ofDecoder (specDecode cfg) scnt block
  | .decf => .ofDecoder (fbDecode cfg) scnt block
  | .nop | .seta _ | .lds _ | .ends | .clrf | .rst => {}

/-- `t` is `s` with `o` given out, as far as the queues and RES go. -/
structure Gives (s : State) (o : Output) (t : State) : Prop where
  sout : t.sout = s.sout ++ o.samples
  cout : t.cout = s.cout ++ o.chars
  res : t.res = o.result.getD s.res

theorem Gives.nothing {s t : State} (sout : t.sout = s.sout) (cout : t.cout = s.cout) (res : t.res = s.res) :
    Gives s {} t :=
  ⟨sout.trans (List.append_nil _).symm, cout.trans (List.append_nil _).symm, res⟩

theorem Gives.result (s : State) (v : Word) : Gives s { result := some v } (s.setRes v) :=
  ⟨(List.append_nil _).symm, (List.append_nil _).symm, rfl⟩

theorem Gives.samples (s : State) (p : List Sample × Bool) : Gives s (.ofPcm p) (emitBlock p s) := by
  rw [emitBlock_eq]
  exact ⟨rfl, (List.append_nil _).symm, rfl⟩

theorem Gives.decoded (decoder : List Int → Decoded) (s : State) :
    Gives s (.ofDecoder decoder s.scnt s.block) (decodeCommand decoder s) := by
  rw [Output.ofDecoder]
  obtain ⟨few, e⟩ | ⟨full, e⟩ := decodeCommand_cases decoder s
  · rw [e, if_pos few]
    exact .nothing rfl rfl rfl
  · rw [e, if_neg (by omega)]
    exact ⟨(List.append_nil _).symm, rfl, rfl⟩

/-- Every command but RST gives out what `outputOf` says. -/
theorem exec_gives {i : Instr} (notRst : i ≠ .rst) (s : State) :
    ∃ t, exec i s = .next t ∧ Gives s (outputOf s.config s.amp s.scnt s.block i) t := by
  cases i with
  | nop | seta _ | ends | clrf => exact ⟨_, rfl, .nothing rfl rfl rfl⟩
  | sig _ | let_ _ _ _ _ =>
    refine ⟨_, rfl, ?_⟩
    rw [outputOf]
    split
    · exact .result s _
    · exact .nothing rfl rfl rfl
  | syn _ _ =>
    refine ⟨_, rfl, ?_⟩
    rw [outputOf]
    split
    · exact .samples s _
    · exact .nothing rfl rfl rfl
  | enc imm8 =>
    rw [outputOf]
    cases e : symOfChar s.config.charcode imm8 with
    | none => exact ⟨_, exec_enc_rejected e, .nothing rfl rfl rfl⟩
    | some k => exact ⟨_, exec_enc_accepted e, .samples s _⟩
  | qnt _ => exact ⟨_, rfl, .result s _⟩
  | decs => exact ⟨_, rfl, .decoded (specDecode s.config) s⟩
  | decf => exact ⟨_, rfl, .decoded (fbDecode s.config) s⟩
  | lds v =>
    obtain ⟨room, e⟩ | ⟨-, e⟩ := execLds_cases v s
    · exact ⟨_, e, .nothing rfl rfl rfl⟩
    · exact ⟨_, e, .nothing rfl rfl rfl⟩
  | rst => exact absurd rfl notRst

/-- The block is the samples read at the indices below 320. -/
theorem block_congr {s s' : State} (h : ∀ n < 320, s.blk.read n = s'.blk.read n) : s.block = s'.block :=
  List.map_congr_left fun n lt => congrArg BitVec.toInt (h n (List.mem_range.mp lt))

/-- Settles O48: by `exec_gives` both commands give out the same `outputOf`. -/
theorem resultsIgnoreOtherState : Obligations.ResultsIgnoreOtherState := by
  intro i s s' notRst config amp scnt buffer
  obtain ⟨t, e, sout, cout, res⟩ := exec_gives notRst s
  obtain ⟨t', e', sout', cout', res'⟩ := exec_gives notRst s'
  rw [← config, ← amp, ← scnt, ← block_congr buffer] at sout' cout' res'
  refine ⟨t, t', _, _, e, e', sout, sout', cout, cout', ?_⟩
  cases written : (outputOf s.config s.amp s.scnt s.block i).result with
  | none =>
    rw [written] at res res'
    exact .inl ⟨res, res'⟩
  | some v =>
    rw [written] at res res'
    exact .inr (res.trans res'.symm)

/-! ### Scaling a block (R62) -/

/-- The block multiplied by `k`. -/
def scaled (k : Nat) (b : List Int) : List Int := b.map fun x => (k : Int) * x

theorem getD_scaled (k : Nat) (b : List Int) (n : Nat) : (scaled k b).getD n 0 = k * b.getD n 0 := by
  rw [scaled, ← List.getD_map b 0 fun x => (k : Int) * x, mul_zero]

theorem re_scaled (k : Nat) (b : List Int) (j : Nat) : Reference.re (scaled k b) j = k * Reference.re b j := by
  rw [Reference.re, Reference.re, Finset.mul_sum]
  refine Finset.sum_congr rfl fun n _ => ?_
  rw [getD_scaled]
  push_cast
  ring

theorem im_scaled (k : Nat) (b : List Int) (j : Nat) : Reference.im (scaled k b) j = k * Reference.im b j := by
  rw [Reference.im, Reference.im, mul_neg, Finset.mul_sum]
  refine congrArg _ (Finset.sum_congr rfl fun n _ => ?_)
  rw [getD_scaled]
  push_cast
  ring

/-- Every magnitude is multiplied by the factor (R132). -/
theorem mag_scaled (k : Nat) (b : List Int) (j : Nat) : Reference.mag (scaled k b) j = k * Reference.mag b j := by
  have square : Reference.re (scaled k b) j ^ 2 + Reference.im (scaled k b) j ^ 2
      = (k : ℝ) ^ 2 * (Reference.re b j ^ 2 + Reference.im b j ^ 2) := by
    rw [re_scaled, im_scaled]
    ring
  rw [Reference.mag, Reference.mag, square, Real.sqrt_mul (by positivity), Real.sqrt_sq (by positivity)]
  ring

/-- R13's order is that of the values multiplied by a positive factor. -/
theorem precedes_scaled {k : ℝ} (pos : 0 < k) (x y : ℝ) (i j : Nat) :
    Reference.precedes (k * x, i) (k * y, j) = Reference.precedes (x, i) (y, j) := by
  rw [Reference.precedes, Reference.precedes, decide_eq_decide]
  simp only [gt_iff_lt, mul_lt_mul_iff_right₀ pos, mul_right_inj' pos.ne']

/-- Neither the test for a flat spectrum nor the ranking of the bins sees the factor. -/
theorem reference_specDecode_scaled (cfg : Config) (b : List Int) {k : Nat} (pos : 0 < k) :
    Reference.specDecode cfg (scaled k b) = Reference.specDecode cfg b := by
  have posR : (0 : ℝ) < k := Nat.cast_pos.mpr pos
  have flat : (∀ j ∈ Finset.Icc 1 160, Reference.mag (scaled k b) j = Reference.mag (scaled k b) 0)
      ↔ ∀ j ∈ Finset.Icc 1 160, Reference.mag b j = Reference.mag b 0 := by
    simp only [mag_scaled, mul_right_inj' posR.ne']
  have order : topK Reference.precedes ((List.range 161).map (Reference.mag (scaled k b))) 4
      = topK Reference.precedes ((List.range 161).map (Reference.mag b)) 4 :=
    topK_congr _ _ _ _ _ _ fun i _ j _ => by rw [mag_scaled, mag_scaled, precedes_scaled posR]
  rw [Reference.specDecode, Reference.specDecode, order]
  simp only [flat]

theorem foldl_max_scaled (k : Nat) (b : List Int) (m : Int) :
    (scaled k b).foldl max ((k : Int) * m) = k * b.foldl max m := by
  induction b generalizing m with
  | nil => rfl
  | cons x xs ih =>
    have head : max ((k : Int) * m) (k * x) = k * max m x := (mul_max_of_nonneg m x (Int.natCast_nonneg k)).symm
    rw [scaled, List.map_cons, List.foldl_cons, List.foldl_cons, head]
    exact ih (max m x)

theorem blockMax_scaled (k : Nat) (b : List Int) : Reference.blockMax (scaled k b) = k * Reference.blockMax b := by
  cases b with
  | nil => exact (mul_zero _).symm
  | cons x xs => exact foldl_max_scaled k xs x

/-- The normalized block does not see the factor (R151). -/
theorem normalized_scaled (b : List Int) {k : Nat} (pos : 0 < k) :
    Reference.normalized (scaled k b) = Reference.normalized b := by
  have ne : (k : ℝ) ≠ 0 := Nat.cast_ne_zero.mpr pos.ne'
  rw [Reference.normalized, Reference.normalized, blockMax_scaled, scaled, List.map_map]
  refine List.map_congr_left fun x _ => ?_
  push_cast [Function.comp]
  exact mul_div_mul_left _ _ ne

theorem resp_scaled (cfg : Config) (b : List Int) {k : Nat} (pos : 0 < k) :
    Reference.resp cfg (scaled k b) = Reference.resp cfg b := by
  funext f
  rw [Reference.resp, Reference.resp, normalized_scaled b pos]

theorem reference_fbDecode_scaled (cfg : Config) (b : List Int) {k : Nat} (pos : 0 < k) :
    Reference.fbDecode cfg (scaled k b) = Reference.fbDecode cfg b := by
  have silent : Reference.blockMax (scaled k b) = 0 ↔ Reference.blockMax b = 0 := by
    rw [blockMax_scaled, mul_eq_zero_iff_left (Int.natCast_ne_zero.mpr pos.ne')]
  rw [Reference.fbDecode, Reference.fbDecode, resp_scaled cfg b pos]
  simp only [silent]

/-- A block that keeps to the sample range when multiplied keeps to it itself. -/
theorem natAbs_of_scaled {k : Nat} (pos : 0 < k) {x : Int} (range : -32768 ≤ k * x ∧ k * x ≤ 32767) :
    ((k : Int) * x).natAbs ≤ 32768 ∧ x.natAbs ≤ 32768 := by
  have whole : ((k : Int) * x).natAbs ≤ 32768 := by omega
  have part : x.natAbs ≤ ((k : Int) * x).natAbs := by
    rw [Int.natAbs_mul, Int.natAbs_natCast]
    exact Nat.le_mul_of_pos_left _ pos
  exact ⟨whole, part.trans whole⟩

/-- Settles O34: on blocks of samples the decoders are the exact ones, and these do not see the factor. -/
theorem decodersIgnoreScale : Obligations.DecodersIgnoreScale := by
  intro cfg b k legal pos whole range
  have rate : 8000 ≤ cfg.fs := legal.1
  have small : ∀ x ∈ b, x.natAbs ≤ 32768 := fun x mem => (natAbs_of_scaled pos (range x mem)).2
  have smallScaled : ∀ y ∈ scaled k b, y.natAbs ≤ 32768 :=
    List.forall_mem_map.mpr fun x mem => (natAbs_of_scaled pos (range x mem)).1
  have wholeScaled : (scaled k b).length = 320 := (List.length_map _).trans whole
  constructor
  · calc specDecode cfg (scaled k b)
      _ = Reference.specDecode cfg (scaled k b) := specDecode_exact cfg _ wholeScaled smallScaled
      _ = Reference.specDecode cfg b := reference_specDecode_scaled cfg b pos
      _ = specDecode cfg b := (specDecode_exact cfg b whole small).symm
  · calc fbDecode cfg (scaled k b)
      _ = Reference.fbDecode cfg (scaled k b) := fbDecode_exact cfg rate _ wholeScaled smallScaled
      _ = Reference.fbDecode cfg b := reference_fbDecode_scaled cfg b pos
      _ = fbDecode cfg b := (fbDecode_exact cfg rate b whole small).symm

/-! ### Streams, block by block (R53, R84) -/

theorem execAll_append {is js : List Instr} {s t : State} (h : execAll is s = .next t) :
    execAll (is ++ js) s = execAll js t := by
  induction is generalizing s with
  | nil =>
    cases h
    rfl
  | cons i is ih =>
    obtain ⟨s', e, -⟩ := exec_completes i s
    rw [execAll_cons e] at h
    exact (execAll_cons e _).trans (ih h)

/-- Samples that do not fill the block are loaded and dropped. -/
theorem decodeFrom_partial (dec : Instr) {k : Nat} {vs : List Sample} (few : k + vs.length < 320) :
    decodeFrom dec k vs = loadProgram vs ++ [.ends] := by
  induction vs generalizing k with
  | nil => rfl
  | cons v vs ih =>
    rw [List.length_cons] at few
    have notFull : k + 1 ≠ blockLength := by
      unfold blockLength
      omega
    rw [decodeFrom, if_neg notFull, ih (by omega)]
    rfl

/-- Samples that fill the block are loaded and decoded, and what follows starts an empty block. -/
theorem decodeFrom_whole (dec : Instr) {k : Nat} {vs : List Sample} (room : k < 320) (full : k + vs.length = 320)
    (rest : List Sample) : decodeFrom dec k (vs ++ rest) = loadProgram vs ++ dec :: decodeFrom dec 0 rest := by
  induction vs generalizing k with
  | nil => exact absurd full room.ne
  | cons v vs ih =>
    rw [List.length_cons] at full
    rw [List.cons_append, decodeFrom]
    split
    · next last =>
      have none : vs = [] := List.length_eq_zero_iff.mp (by unfold blockLength at last; omega)
      rw [none]
      rfl
    · next notFull =>
      rw [ih (by unfold blockLength at notFull; omega) (by omega)]
      rfl

/-- The characters of a stream's whole blocks, each that of its block alone. -/
def streamChars (decoder : List Int → Decoded) (samples : List Sample) : List Char8 :=
  (List.range (samples.length / 320)).map fun j => (decoder ((streamBlock samples j).map BitVec.toInt)).char

theorem streamChars_partial (decoder : List Int → Decoded) {samples : List Sample} (few : samples.length < 320) :
    streamChars decoder samples = [] := by
  rw [streamChars, Nat.div_eq_of_lt few]
  rfl

theorem streamChars_append (decoder : List Int → Decoded) {block : List Sample} (whole : block.length = 320)
    (rest : List Sample) :
    streamChars decoder (block ++ rest) = (decoder (block.map BitVec.toInt)).char :: streamChars decoder rest := by
  have count : (block ++ rest).length / 320 = rest.length / 320 + 1 := by
    rw [List.length_append, whole]
    omega
  have first : streamBlock (block ++ rest) 0 = block := List.take_left' whole
  have later : ∀ j, streamBlock (block ++ rest) (j + 1) = streamBlock rest j := by
    intro j
    have offset : blockLength * (j + 1) = block.length + blockLength * j := by
      rw [whole, blockLength]
      omega
    rw [streamBlock, offset, ← List.drop_drop, List.drop_left, streamBlock]
  rw [streamChars, count, List.range_succ_eq_map, List.map_cons, List.map_map, first]
  exact congrArg _ (List.map_congr_left fun j _ => by rw [Function.comp, later])

/-- `dec` runs `decoder` on the full block, whatever else the state of a block with parameters `cfg` holds. -/
def RunsDecoder (dec : Instr) (cfg : Config) (decoder : List Int → Decoded) : Prop :=
  ∀ s : State, s.config = cfg → exec dec s = .next (decodeCommand decoder s)

theorem runs_decs (cfg : Config) : RunsDecoder .decs cfg (specDecode cfg) := by
  rintro s rfl
  rfl

theorem runs_decf (cfg : Config) : RunsDecoder .decf cfg (fbDecode cfg) := by
  rintro s rfl
  rfl

/-- `t` is `s` with `chars` pushed to COUT, up to the block buffer and STATUS. -/
structure Decoding (s : State) (chars : List Char8) (t : State) : Prop where
  frame : t = { s with blk := t.blk, cout := t.cout, status := t.status }
  cout : t.cout = s.cout ++ chars

theorem Decoding.trans {s t u : State} {chars chars' : List Char8} (h : Decoding s chars t) (h' : Decoding t chars' u) :
    Decoding s (chars ++ chars') u where
  frame := by
    rw [h'.frame, h.frame]
  cout := by
    rw [h'.cout, h.cout, List.append_assoc]

/-- A whole block loaded from SCNT = 0 and decoded pushes the character of the block. -/
theorem execAll_block {dec : Instr} {cfg : Config} {decoder : List Int → Decoded} (runs : RunsDecoder dec cfg decoder)
    {block : List Sample} (whole : block.length = 320) {s : State} (config : s.config = cfg)
    (canonical : s.blk.wf = true) (empty : s.scnt = 0) (is : List Instr) :
    ∃ t, execAll (loadProgram block ++ dec :: is) s = execAll is t ∧ t.blk.wf = true ∧
      Decoding s [(decoder (block.map BitVec.toInt)).char] t := by
  have room : s.scnt.val + block.length ≤ blockLength := by
    rw [empty, whole]
    decide
  obtain ⟨u, load, stored⟩ := execAll_loadProgram block canonical room
  have full : u.scnt.val = 320 := by
    rw [stored.count, empty, whole]
    rfl
  have params : u.config = cfg := by
    rw [stored.frame]
    exact config
  have decoded : decodeCommand decoder u = deliver (decoder (block.map BitVec.toInt)) u := by
    rw [decodeCommand, if_neg (by rw [full]; decide), stored.block_eq empty whole]
  have run : execAll (loadProgram block ++ dec :: is) s = execAll is (decodeCommand decoder u) :=
    (execAll_append load).trans (execAll_cons (runs u params) is)
  rw [decoded, deliver_eq] at run
  refine ⟨_, run, stored.canonical, ?_, ?_⟩
  · rw [stored.frame, ← empty]
  · rw [stored.frame]

/-- A partial block loaded from SCNT = 0 and dropped pushes nothing. -/
theorem execAll_partial {vs : List Sample} (few : vs.length < 320) {s : State} (canonical : s.blk.wf = true)
    (empty : s.scnt = 0) : ∃ t, execAll (loadProgram vs ++ [.ends]) s = .next t ∧ Decoding s [] t := by
  have room : s.scnt.val + vs.length ≤ blockLength := by
    rw [empty, Fin.val_zero, Nat.zero_add]
    exact few.le
  obtain ⟨u, load, stored⟩ := execAll_loadProgram vs canonical room
  refine ⟨u.clearCount, execAll_append load, ?_, ?_⟩
  · rw [stored.frame]
    rw [State.clearCount, ← empty]
  · rw [stored.frame]
    exact (List.append_nil _).symm

/-- A decode program pushes the characters of the whole blocks, in order (R84, R170). -/
theorem execAll_decodeFrom {dec : Instr} {cfg : Config} {decoder : List Int → Decoded} (runs : RunsDecoder dec cfg decoder)
    (samples : List Sample) {s : State} (config : s.config = cfg) (canonical : s.blk.wf = true) (empty : s.scnt = 0) :
    ∃ t, execAll (decodeFrom dec 0 samples) s = .next t ∧ Decoding s (streamChars decoder samples) t := by
  by_cases few : samples.length < 320
  · rw [decodeFrom_partial dec ((Nat.zero_add _).trans_lt few), streamChars_partial decoder few]
    exact execAll_partial few canonical empty
  · have whole : (samples.take 320).length = 320 := by
      rw [List.length_take]
      omega
    obtain ⟨u, run, canonical', head⟩ :=
      execAll_block runs whole config canonical empty (decodeFrom dec 0 (samples.drop 320))
    have config' : u.config = cfg := by
      rw [head.frame]
      exact config
    have empty' : u.scnt = 0 := by
      rw [head.frame]
      exact empty
    obtain ⟨t, run', tail⟩ := execAll_decodeFrom runs (samples.drop 320) config' canonical' empty'
    rw [← List.take_append_drop 320 samples, streamChars_append decoder whole,
      decodeFrom_whole dec (by decide) ((Nat.zero_add _).trans whole)]
    exact ⟨t, run.trans run', head.trans tail⟩
termination_by samples.length
decreasing_by
  rw [List.length_drop]
  omega

theorem natAbs_toInt (v : Sample) : v.toInt.natAbs ≤ 32768 := by
  have low := BitVec.le_toInt v
  have high := BitVec.toInt_lt (x := v)
  omega

/-- Decoders that agree on blocks of 320 samples give a stream the same characters. -/
theorem streamChars_congr {decoder decoder' : List Int → Decoded}
    (same : ∀ b : List Int, b.length = 320 → (∀ a ∈ b, a.natAbs ≤ 32768) → decoder b = decoder' b)
    (samples : List Sample) : streamChars decoder samples = streamChars decoder' samples := by
  refine List.map_congr_left fun j lt => congrArg Decoded.char (same _ ?_ ?_)
  · have inside : j < samples.length / 320 := List.mem_range.mp lt
    rw [List.length_map, streamBlock, List.length_take, List.length_drop, blockLength]
    omega
  · exact List.forall_mem_map.mpr fun v _ => natAbs_toInt v

/-- Settles O35: `execAll_decodeFrom` for each of the two decoders, which are the exact ones on whole blocks. -/
theorem decodeStreamCharacters : Obligations.DecodeStreamCharacters := by
  intro samples s legal canonical empty
  obtain ⟨t, run, frame, cout⟩ := execAll_decodeFrom (runs_decs s.config) samples rfl canonical empty
  obtain ⟨u, run', frame', cout'⟩ := execAll_decodeFrom (runs_decf s.config) samples rfl canonical empty
  rw [streamChars_congr (specDecode_exact s.config)] at cout
  rw [streamChars_congr (fbDecode_exact s.config legal.1)] at cout'
  exact ⟨⟨t, run, frame, cout⟩, ⟨u, run', frame', cout'⟩⟩

end Sys2Proof.Proofs

/-! ## The encoding and ENCODE

A word is the append of the fields of its opcode's format, so a row of the opcode map accepts exactly the words of its
format, with the row's opcode. ENCODE is an induction over the text. -/

namespace Sys2Proof.Proofs

open Sys2Proof.Machine Sys2Proof.Safety Sys2Proof.Laws

/-- Settles O1: `decode_encode`. -/
theorem decodeEncodeRoundTrip : Obligations.DecodeEncodeRoundTrip :=
  fun _ legal => decode_encode legal

/-! ### Words as the append of their fields (R70 to R75) -/

/-- Two appends of the same widths are equal part by part. -/
theorem append_eq_append_iff {m n : Nat} {a c : BitVec m} {b d : BitVec n} : a ++ b = c ++ d ↔ a = c ∧ b = d := by
  constructor
  · intro h
    have high := congrArg (BitVec.extractLsb' n m) h
    have low := congrArg (BitVec.extractLsb' 0 n) h
    simp only [BitVec.extractLsb'_append_eq_left, BitVec.extractLsb'_append_eq_right] at high low
    exact ⟨high, low⟩
  · rintro ⟨rfl, rfl⟩
    rfl

theorem and_append_eq_iff {m n : Nat} {a b c : BitVec m} {x y z : BitVec n} :
    (a ++ x) &&& (b ++ y) = c ++ z ↔ a &&& b = c ∧ x &&& y = z := by
  rw [BitVec.and_append, append_eq_append_iff]

theorem exists_append (m n : Nat) (w : BitVec (m + n)) : ∃ (a : BitVec m) (b : BitVec n), w = a ++ b :=
  ⟨w.extractLsb' n m, w.extractLsb' 0 n, by
    rw [BitVec.extractLsb'_append_extractLsb'_eq_extractLsb' (by omega), BitVec.extractLsb'_eq_self]⟩

/-- One bit is a flag. -/
theorem exists_ofBool (b : BitVec 1) : ∃ u, b = BitVec.ofBool u :=
  ⟨b.getLsbD 0, (BitVec.setWidth_eq b).symm.trans (BitVec.setWidth_one)⟩

/-- Keeping the opcode and the bits `m` of the rest gives an opcode alone exactly if that is the word's opcode and
the bits are 0. -/
theorem and_mask_eq_iff (w : Word) (opc : BitVec 8) (m : BitVec 24) :
    w &&& (0xFF#8 ++ m) = opc ++ 0#24 ↔ opcodeOf w = opc ∧ w &&& (0#8 ++ m) = 0#32 := by
  obtain ⟨a, b, rfl⟩ := exists_append 8 24 w
  have opcode : opcodeOf (a ++ b) = a := BitVec.extractLsb'_append_eq_left
  have zero : 0#32 = 0#8 ++ 0#24 := rfl
  have ones : a &&& 0xFF#8 = a := BitVec.and_allOnes
  rw [opcode, zero, and_append_eq_iff, and_append_eq_iff, ones, BitVec.and_zero]
  simp

/-! The words with the opcode and the must-be-zero bits of a format are those of the format. -/

theorem eq_formatZ_of_and {w : Word} {opc : BitVec 8} (h : w &&& 0xFFFFFFFF#32 = formatZ opc) : w = formatZ opc :=
  BitVec.and_allOnes.symm.trans h

theorem exists_formatB_of_and {w : Word} {opc : BitVec 8} (h : w &&& 0xFFFFFF00#32 = formatB opc 0) :
    ∃ imm8, w = formatB opc imm8 := by
  obtain ⟨a, imm8, rfl⟩ := exists_append 24 8 w
  obtain ⟨a, z, rfl⟩ := exists_append 8 16 a
  have mask : 0xFFFFFF00#32 = BitVec.allOnes 8 ++ BitVec.allOnes 16 ++ 0#8 := rfl
  rw [mask, formatB, and_append_eq_iff, and_append_eq_iff,
    BitVec.and_allOnes, BitVec.and_allOnes] at h
  obtain ⟨⟨rfl, rfl⟩, -⟩ := h
  exact ⟨imm8, rfl⟩

theorem exists_formatH_of_and {w : Word} {opc : BitVec 8} (h : w &&& 0xFFFF0000#32 = formatH opc 0) :
    ∃ imm16, w = formatH opc imm16 := by
  obtain ⟨a, imm16, rfl⟩ := exists_append 16 16 w
  obtain ⟨a, z, rfl⟩ := exists_append 8 8 a
  have mask : 0xFFFF0000#32 = BitVec.allOnes 8 ++ BitVec.allOnes 8 ++ 0#16 := rfl
  rw [mask, formatH, and_append_eq_iff, and_append_eq_iff,
    BitVec.and_allOnes, BitVec.and_allOnes] at h
  obtain ⟨⟨rfl, rfl⟩, -⟩ := h
  exact ⟨imm16, rfl⟩

theorem exists_formatY_of_and {w : Word} {opc : BitVec 8} (h : w &&& 0xFFFFFEE0#32 = formatY opc false 0) :
    ∃ u sym, w = formatY opc u sym := by
  obtain ⟨a, sym, rfl⟩ := exists_append 27 5 w
  obtain ⟨a, z', rfl⟩ := exists_append 24 3 a
  obtain ⟨a, b, rfl⟩ := exists_append 23 1 a
  obtain ⟨a, z, rfl⟩ := exists_append 8 15 a
  obtain ⟨u, rfl⟩ := exists_ofBool b
  have mask : 0xFFFFFEE0#32 = BitVec.allOnes 8 ++ BitVec.allOnes 15 ++ 0#1 ++ BitVec.allOnes 3 ++ 0#5 := rfl
  rw [mask, formatY, and_append_eq_iff, and_append_eq_iff, and_append_eq_iff, and_append_eq_iff,
    BitVec.and_allOnes, BitVec.and_allOnes, BitVec.and_allOnes] at h
  obtain ⟨⟨⟨⟨rfl, rfl⟩, -⟩, rfl⟩, -⟩ := h
  exact ⟨u, sym, rfl⟩

theorem exists_formatT_of_and {w : Word} {opc : BitVec 8} (h : w &&& 0xFFFFE000#32 = formatT opc false 0 0 0) :
    ∃ case j2 j1 j0, w = formatT opc case j2 j1 j0 := by
  obtain ⟨a, j0, rfl⟩ := exists_append 28 4 w
  obtain ⟨a, j1, rfl⟩ := exists_append 24 4 a
  obtain ⟨a, j2, rfl⟩ := exists_append 20 4 a
  obtain ⟨a, b, rfl⟩ := exists_append 19 1 a
  obtain ⟨a, z, rfl⟩ := exists_append 8 11 a
  obtain ⟨case, rfl⟩ := exists_ofBool b
  have mask : 0xFFFFE000#32 = BitVec.allOnes 8 ++ BitVec.allOnes 11 ++ 0#1 ++ 0#4 ++ 0#4 ++ 0#4 := rfl
  rw [mask, formatT, and_append_eq_iff, and_append_eq_iff, and_append_eq_iff, and_append_eq_iff, and_append_eq_iff,
    BitVec.and_allOnes, BitVec.and_allOnes] at h
  obtain ⟨⟨⟨⟨⟨rfl, rfl⟩, -⟩, -⟩, -⟩, -⟩ := h
  exact ⟨case, j2, j1, j0, rfl⟩

/-! ### What the rows of the opcode map accept (R77, R78) -/

/-- `row` accepts only the words of its commands: it reads each word it accepts as the command of that word. -/
def ReadsOwnWords (row : OpcodeRow) : Prop :=
  ∀ w : Word, w &&& row.mask = row.pattern → encode (row.fields w) = w

theorem readsOwnWords_of_formatZ {name : String} {opc : BitVec 8} {i : Instr} (word : encode i = formatZ opc) :
    ReadsOwnWords ⟨name, formatZ opc, 0xFFFFFFFF, fun _ => i⟩ :=
  fun _ h => word.trans (eq_formatZ_of_and h).symm

theorem readsOwnWords_of_formatB {name : String} {opc : BitVec 8} {mk : BitVec 8 → Instr}
    (word : ∀ v, encode (mk v) = formatB opc v) :
    ReadsOwnWords ⟨name, formatB opc 0, 0xFFFFFF00, fun w => mk (w.extractLsb' 0 8)⟩ := by
  intro w h
  obtain ⟨v, rfl⟩ := exists_formatB_of_and h
  exact (word _).trans (congrArg _ (formatB_imm8 opc v))

theorem readsOwnWords_of_formatH {name : String} {opc : BitVec 8} {mk : BitVec 16 → Instr}
    (word : ∀ v, encode (mk v) = formatH opc v) :
    ReadsOwnWords ⟨name, formatH opc 0, 0xFFFF0000, fun w => mk (w.extractLsb' 0 16)⟩ := by
  intro w h
  obtain ⟨v, rfl⟩ := exists_formatH_of_and h
  exact (word _).trans (congrArg _ (formatH_imm16 opc v))

theorem readsOwnWords_syn :
    ReadsOwnWords ⟨"SYN", 0x04000000, 0xFFFFFEE0, fun w => .syn (w.extractLsb' 0 5) (w.getLsbD 8)⟩ := by
  intro w h
  obtain ⟨u, sym, rfl⟩ := exists_formatY_of_and (opc := 0x04) h
  simp only [encode, formatY_sym, formatY_u]

theorem readsOwnWords_let :
    ReadsOwnWords ⟨"LET", 0x02000000, 0xFFFFE000, fun w =>
      .let_ (w.getLsbD 12) (w.extractLsb' 8 4) (w.extractLsb' 4 4) (w.extractLsb' 0 4)⟩ := by
  intro w h
  obtain ⟨case, j2, j1, j0, rfl⟩ := exists_formatT_of_and (opc := 0x02) h
  simp only [encode, formatT_case, formatT_j2, formatT_j1, formatT_j0]

theorem opcodeMap_readsOwnWords : ∀ row ∈ opcodeMap, ReadsOwnWords row := by
  simp only [opcodeMap, List.forall_mem_cons]
  exact ⟨readsOwnWords_of_formatZ (opc := 0x00) rfl, readsOwnWords_of_formatB (opc := 0x01) fun _ => rfl,
    readsOwnWords_let, readsOwnWords_of_formatH (opc := 0x03) fun _ => rfl, readsOwnWords_syn,
    readsOwnWords_of_formatB (opc := 0x05) fun _ => rfl, readsOwnWords_of_formatH (opc := 0x06) fun _ => rfl,
    readsOwnWords_of_formatZ (opc := 0x07) rfl, readsOwnWords_of_formatZ (opc := 0x08) rfl,
    readsOwnWords_of_formatH (opc := 0x09) fun _ => rfl, readsOwnWords_of_formatZ (opc := 0x0A) rfl,
    readsOwnWords_of_formatZ (opc := 0x0B) rfl, readsOwnWords_of_formatZ (opc := 0x0C) rfl,
    fun _ m => absurd m List.not_mem_nil⟩

/-- What the decoder answers: an error, or the legal command a row of the map reads from a word it accepts. -/
theorem decode_ok {w : Word} {i : Instr} (h : decode w = .ok i) :
    ∃ row ∈ opcodeMap, w &&& row.mask = row.pattern ∧ row.fields w = i ∧ i.WellFormed := by
  unfold decode at h
  split at h
  · cases h
  · next row found =>
    split at h
    · next accepted =>
      split at h
      · next legal =>
        cases h
        exact ⟨row, List.mem_of_getElem? found, accepted, rfl, legal⟩
      · cases h
    · cases h

/-- Settles O2: `decode_ok` names the row, which reads only its own words. -/
theorem encodeDecodeRoundTrip : Obligations.EncodeDecodeRoundTrip := by
  intro w i h
  obtain ⟨row, mem, accepted, rfl, legal⟩ := decode_ok h
  exact ⟨legal, opcodeMap_readsOwnWords row mem w accepted⟩

/-! ### The illegal words (R82) -/

theorem opcodeOf_toNat (w : Word) : (opcodeOf w).toNat = (w >>> 24).toNat := by
  rw [opcodeOf, BitVec.extractLsb'_toNat, BitVec.toNat_ushiftRight, Nat.shiftRight_eq_div_pow]
  omega

/-- A field of `k` bits is the word shifted and masked. -/
theorem toNat_extractLsb'_eq_and (w : Word) (start : Nat) {k : Nat} (fits : k ≤ 32) :
    (w.extractLsb' start k).toNat = ((w >>> start) &&& BitVec.ofNat 32 (2 ^ k - 1)).toNat := by
  have small : 2 ^ k - 1 < 2 ^ 32 :=
    (Nat.sub_lt (Nat.two_pow_pos k) Nat.one_pos).trans_le (Nat.pow_le_pow_right Nat.two_pos fits)
  rw [BitVec.extractLsb'_toNat, BitVec.toNat_and, BitVec.toNat_ushiftRight, BitVec.toNat_ofNat, Nat.mod_eq_of_lt small,
    Nat.and_two_pow_sub_one_eq_mod]

/-- Row `n` requires the whole of opcode `n`, and of the other bits it names that they are 0. -/
theorem opcodeMap_shape {n : Nat} {row : OpcodeRow} (found : opcodeMap[n]? = some row) :
    row.mask = 0xFF#8 ++ row.mask.extractLsb' 0 24 ∧ row.pattern = BitVec.ofNat 8 n ++ 0#24 := by
  have bound : n < 13 := (List.getElem?_eq_some_iff.mp found).1
  interval_cases n <;> cases found <;> exact ⟨rfl, rfl⟩

/-- With a row for its opcode, a word is refused for a must-be-zero bit or for a reserved operand. -/
theorem refused_iff_of_row {w : Word} {n : Nat} {row : OpcodeRow} (opcode : (w >>> 24).toNat = n)
    (found : opcodeMap[n]? = some row) :
    (∃ e, decode w = .error e) ↔
      w &&& (0#8 ++ row.mask.extractLsb' 0 24) ≠ 0#32 ∨ (row.fields w).legalOperands = false := by
  obtain ⟨mask, pattern⟩ := opcodeMap_shape found
  have here : (opcodeOf w).toNat = n := (opcodeOf_toNat w).trans opcode
  have same : opcodeOf w = BitVec.ofNat 8 n := by rw [← here, BitVec.ofNat_toNat, BitVec.setWidth_eq]
  have accepted : w &&& row.mask = row.pattern ↔ w &&& (0#8 ++ row.mask.extractLsb' 0 24) = 0#32 := by
    rw [pattern, ← and_iff_right (b := _ = 0#32) same, ← and_mask_eq_iff, ← mask]
  rw [decode, here, found]
  by_cases bits : w &&& (0#8 ++ row.mask.extractLsb' 0 24) = 0#32
  · cases legal : (row.fields w).legalOperands <;> simp [accepted, bits, legal]
  · simp [accepted, bits]

/-- A word with an opcode above the map is refused. -/
theorem refused_of_reservedOpcode {w : Word} (h : 0x0D ≤ (w >>> 24).toNat) : decode w = .error .reservedOpcode := by
  have none : opcodeMap[(opcodeOf w).toNat]? = none := List.getElem?_eq_none (by rwa [opcodeOf_toNat])
  rw [decode, none]

/-- A refused word written as a command sets ILL and changes nothing else (R198). -/
theorem command_of_refused {w : Word} {e : DecodeError} (h : decode w = .error e) (s : State) :
    command w s = .next { s with status := (s.status ||| 0x40#32) &&& 0x7F#32 } := by
  rw [command, h]
  rfl

theorem sig_illegal_iff (w : Word) :
    (Instr.sig (w.extractLsb' 0 8)).legalOperands = false ↔ 27 ≤ (w &&& 0xFF#32).toNat := by
  rw [Instr.legalOperands, isSym, decide_eq_false_iff_not, toNat_extractLsb'_eq_and w 0 (by decide), Nat.not_lt]
  rfl

theorem syn_illegal_iff (w : Word) (u : Bool) :
    (Instr.syn (w.extractLsb' 0 5) u).legalOperands = false ↔ 27 ≤ (w &&& 0x1F#32).toNat := by
  rw [Instr.legalOperands, isSym, decide_eq_false_iff_not, toNat_extractLsb'_eq_and w 0 (by decide), Nat.not_lt]
  rfl

theorem let_illegal_iff (w : Word) (u : Bool) :
    (Instr.let_ u (w.extractLsb' 8 4) (w.extractLsb' 4 4) (w.extractLsb' 0 4)).legalOperands = false ↔
      11 ≤ (w &&& 0xF#32).toNat ∨ 11 ≤ ((w >>> 4) &&& 0xF#32).toNat ∨ 11 ≤ ((w >>> 8) &&& 0xF#32).toNat := by
  have field : ∀ start, isCanonIndex (w.extractLsb' start 4).toNat = false ↔ 11 ≤ ((w >>> start) &&& 0xF#32).toNat := by
    intro start
    rw [isCanonIndex, decide_eq_false_iff_not, toNat_extractLsb'_eq_and w start (by decide), Nat.not_lt]
    rfl
  rw [Instr.legalOperands, Bool.and_eq_false_iff, Bool.and_eq_false_iff, field, field, field, BitVec.ushiftRight_zero]
  tauto

/-- Settles O3: above the map every word is refused (a); below, the row of the opcode names the must-be-zero bits (b),
and only SIG, LET and SYN have reserved operands (c) to (e). -/
theorem illegalWordsExactly : Obligations.IllegalWordsExactly := by
  intro w s
  refine ⟨?_, fun ⟨_, h⟩ => command_of_refused h s⟩
  obtain ⟨n, opcode⟩ : ∃ n, (w >>> 24).toNat = n := ⟨_, rfl⟩
  rw [opcode]
  by_cases above : 0x0D ≤ n
  · exact iff_of_true ⟨_, refused_of_reservedOpcode (opcode ▸ above)⟩ (.inl above)
  · have opcodes : n = 0x01 ∨ n = 0x02 ∨ n = 0x04 ∨ n ∈ [0x00, 0x03, 0x05, 0x06, 0x07, 0x08, 0x09, 0x0A, 0x0B, 0x0C] := by
      simp only [List.mem_cons, List.not_mem_nil, or_false]
      omega
    obtain rfl | rfl | rfl | anyOperand := opcodes
    · rw [refused_iff_of_row opcode rfl]
      simp [sig_illegal_iff]
    · rw [refused_iff_of_row opcode rfl]
      simp [let_illegal_iff]
    · rw [refused_iff_of_row opcode rfl]
      simp [syn_illegal_iff]
    · fin_cases anyOperand <;> rw [refused_iff_of_row opcode rfl] <;> simp [Instr.legalOperands]

/-! ### The worked encodings and the assembler (R79, R83) -/

/-- The word of a legal command decodes to the command. -/
theorem decode_of_encode {i : Instr} {w : Word} (word : encode i = w) (legal : i.WellFormed) : decode w = .ok i :=
  word ▸ decode_encode legal

/-- Settles O4: each worked word is the word of its command, which `decode_encode` reads back. -/
theorem workedEncodingsDecode : Obligations.WorkedEncodingsDecode :=
  ⟨decode_of_encode rfl rfl, decode_of_encode rfl rfl, decode_of_encode rfl rfl, decode_of_encode rfl rfl,
    decode_of_encode rfl rfl, decode_of_encode rfl rfl, decode_of_encode rfl rfl, decode_of_encode rfl rfl,
    decode_of_encode rfl rfl, decode_of_encode rfl rfl, decode_of_encode rfl rfl, decode_of_encode rfl rfl,
    decode_of_encode rfl rfl⟩

/-- Settles O5: the assembler evaluated on each line. -/
theorem assemblerExamples : Obligations.AssemblerExamples :=
  ⟨by decide, by decide, by decide, by decide, by decide, by decide, by decide, by decide, by decide, by decide⟩

/-! ### ENCODE (R84, R107) -/

theorem pcmBlock_length (cfg : Config) (s : Nat) (upper : Bool) (amp : Nat) : (pcmBlock cfg s upper amp).1.length = 320 := by
  rw [pcmBlock, forcedList_eq, List.length_map, synthRounded, withCosTable_eq, List.length_map, List.length_range]
  rfl

/-- The samples ENC appends for a character: the block of its symbol, nothing for any other character (R106). -/
def encodedChar (cfg : Config) (amp : BitVec 16) (c : Char8) : Option (List Sample) :=
  (symOfChar cfg.charcode c).map fun k => (pcmBlock cfg k (isUpper cfg.charcode c) amp.toNat).1

/-- The samples ENCODE appends for a text: the blocks of its accepted characters, in order (R107). -/
def encodedText (cfg : Config) (amp : BitVec 16) (text : List Char8) : List Sample :=
  (text.filterMap (encodedChar cfg amp)).flatten

theorem encodedText_cons (cfg : Config) (amp : BitVec 16) (c : Char8) (text : List Char8) :
    encodedText cfg amp (c :: text) = (encodedChar cfg amp c).getD [] ++ encodedText cfg amp text := by
  rw [encodedText, List.filterMap_cons, encodedText]
  cases encodedChar cfg amp c <;> rfl

/-- A rejected character adds nothing, an accepted one 320 samples (R106). -/
theorem encodedChar_cases (cfg : Config) (amp : BitVec 16) (c : Char8) :
    (isText cfg.charcode c = false ∧ encodedChar cfg amp c = none) ∨
    (isText cfg.charcode c = true ∧ ∃ block, encodedChar cfg amp c = some block ∧ block.length = 320) := by
  rw [isText, encodedChar]
  cases symOfChar cfg.charcode c with
  | none => exact .inl ⟨rfl, rfl⟩
  | some k => exact .inr ⟨rfl, _, rfl, pcmBlock_length _ _ _ _⟩

/-- The rejected characters add nothing (R107 (c)). -/
theorem encodedText_filter (cfg : Config) (amp : BitVec 16) (text : List Char8) :
    encodedText cfg amp (text.filter (isText cfg.charcode)) = encodedText cfg amp text := by
  induction text with
  | nil => rfl
  | cons c text ih =>
    obtain ⟨rejected, e⟩ | ⟨accepted, -⟩ := encodedChar_cases cfg amp c
    · rw [List.filter_cons_of_neg (by simp [rejected]), encodedText_cons, e, ih]
      rfl
    · rw [List.filter_cons_of_pos accepted, encodedText_cons, encodedText_cons, ih]

/-- 320 samples for each accepted character (R107 (b)). -/
theorem encodedText_length (cfg : Config) (amp : BitVec 16) (text : List Char8) :
    (encodedText cfg amp text).length = 320 * (text.filter (isText cfg.charcode)).length := by
  induction text with
  | nil => rfl
  | cons c text ih =>
    rw [encodedText_cons, List.length_append, ih]
    obtain ⟨rejected, e⟩ | ⟨accepted, block, e, length⟩ := encodedChar_cases cfg amp c
    · rw [List.filter_cons_of_neg (by simp [rejected]), e]
      exact Nat.zero_add _
    · rw [List.filter_cons_of_pos accepted, e, Option.getD_some, length, List.length_cons]
      omega

/-- `t` is `s` with `samples` pushed to SOUT, up to STATUS. -/
structure Encoding (s : State) (samples : List Sample) (t : State) : Prop where
  frame : t = { s with sout := t.sout, status := t.status }
  sout : t.sout = s.sout ++ samples

theorem Encoding.nothing (s : State) (status : Word) : Encoding s [] { s with status := status } where
  frame := rfl
  sout := (List.append_nil _).symm

theorem Encoding.block (s : State) (samples : List Sample) (status : Word) :
    Encoding s samples { s with sout := s.sout ++ samples, status := status } where
  frame := rfl
  sout := rfl

theorem Encoding.trans {s t u : State} {p q : List Sample} (h : Encoding s p t) (h' : Encoding t q u) :
    Encoding s (p ++ q) u where
  frame := by
    rw [h'.frame, h.frame]
  sout := by
    rw [h'.sout, h.sout, List.append_assoc]

/-- ENC pushes the block of its character, if it has one (R106). -/
theorem exec_enc_encodes (c : Char8) (s : State) :
    ∃ t, exec (.enc c) s = .next t ∧ Encoding s ((encodedChar s.config s.amp c).getD []) t := by
  cases e : symOfChar s.config.charcode c with
  | none =>
    rw [encodedChar, e]
    exact ⟨_, exec_enc_rejected e, .nothing s _⟩
  | some k =>
    rw [encodedChar, e]
    refine ⟨_, exec_enc_accepted e, ?_⟩
    rw [emitBlock_eq]
    exact .block s _ _

/-- ENCODE pushes the blocks of its text (R107). -/
theorem execAll_encodeProgram (text : List Char8) (s : State) :
    ∃ t, execAll (encodeProgram text) s = .next t ∧ Encoding s (encodedText s.config s.amp text) t := by
  induction text generalizing s with
  | nil => exact ⟨s, rfl, .nothing s s.status⟩
  | cons c text ih =>
    obtain ⟨u, e, head⟩ := exec_enc_encodes c s
    obtain ⟨t, run, tail⟩ := ih u
    have config : u.config = s.config := by rw [head.frame]
    have amp : u.amp = s.amp := by rw [head.frame]
    rw [config, amp] at tail
    rw [encodedText_cons]
    exact ⟨t, (execAll_cons e _).trans run, head.trans tail⟩

/-- Settles O24: `execAll_encodeProgram` for the text and for its accepted characters, whose samples are the same. -/
theorem encodeProgramConcatenates : Obligations.EncodeProgramConcatenates := by
  intro text s
  obtain ⟨t, run, frame, sout⟩ := execAll_encodeProgram text s
  obtain ⟨u, run', -, sout'⟩ := execAll_encodeProgram (text.filter (isText s.config.charcode)) s
  refine ⟨t, run, sout, ?_, frame, u, run', ?_⟩
  · rw [sout, List.length_append, encodedText_length]
  · rw [sout', encodedText_filter, sout]

end Sys2Proof.Proofs

/-! ## The symbol table, SIG and LET

Everything the parameters say about the sorted triples (three different members of R9, a different triple for each
symbol) is said once about `sigSorted`; what `letterOf` finds, SIG and LET follow from that. -/

namespace Sys2Proof.Proofs

open Sys2Proof.Machine Sys2Proof.Laws

/-- Settles O16: the table invariants are part of `decided_wellFormed`; the 27 rows are compared one by one (R91). -/
theorem tableInvariantsHold : Obligations.TableInvariantsHold :=
  ⟨decided_wellFormed, by decide⟩

/-! ### The sorted triples (R92, R93) -/

/-- Sorting forgets the order (R92). -/
theorem sortAsc_eq_of_perm {l l' : List Nat} (same : l.Perm l') : sortAsc l = sortAsc l' :=
  List.Perm.eq_of_pairwise' (r := (· ≤ ·)) (List.pairwise_insertionSort _ l) (List.pairwise_insertionSort _ l')
    ((sortAsc_perm l).trans (same.trans (sortAsc_perm l').symm))

theorem sigSorted_eq_getElem {cfg : Config} {k : Nat} (hk : k < cfg.sigtab.length) :
    sigSorted cfg k = cfg.sigtab[k].sorted := by
  rw [sigSorted, List.getElem?_eq_getElem hk]

/-- No two symbols share a sorted triple. -/
theorem sigSorted_injective {cfg : Config} (h : cfg.WellFormed) {i j : Nat} (hi : i < 27) (hj : j < 27)
    (same : sigSorted cfg i = sigSorted cfg j) : i = j := by
  obtain ⟨-, rows, -, different, -⟩ := h
  have hi : i < cfg.sigtab.length := by rwa [rows]
  have hj : j < cfg.sigtab.length := by rwa [rows]
  rw [sigSorted_eq_getElem hi, sigSorted_eq_getElem hj] at same
  refine (different.getElem_inj_iff (hi := ?_) (hj := ?_)).mp ?_
  · rwa [List.length_map]
  · rwa [List.length_map]
  · rwa [List.getElem_map, List.getElem_map]

/-- The triple of a symbol is made of different members of R9. -/
theorem sigSorted_legal {cfg : Config} (h : cfg.WellFormed) {k : Nat} (hk : k < 27) :
    (sigSorted cfg k).Nodup ∧ ∀ f ∈ sigSorted cfg k, f ∈ restricted := by
  obtain ⟨-, rows, legal, -, -⟩ := h
  have hk : k < cfg.sigtab.length := by rwa [rows]
  obtain ⟨nodup, members⟩ := legal _ (List.getElem_mem hk)
  have perm := sortAsc_perm cfg.sigtab[k].toList
  rw [sigSorted_eq_getElem hk]
  exact ⟨perm.nodup_iff.mpr nodup, fun f mem => members f (perm.mem_iff.mp mem)⟩

/-! ### letter_of (R94) -/

/-- Space has one code whatever the case. -/
theorem charOfSym_space (codes : CharCode) (upper : Bool) : charOfSym codes 26 upper = codes.space := if_pos rfl

theorem letterOf_eq_none_iff {cfg : Config} {t : List Nat} {upper : Bool} :
    letterOf cfg t upper = none ↔ ∀ k < 27, sigSorted cfg k ≠ t := by
  simp [letterOf, symbolCount]

/-- `letter_of` gives back the symbol of a triple: the one it finds cannot be another one. -/
theorem letterOf_sigSorted {cfg : Config} (h : cfg.WellFormed) {k : Nat} (hk : k < 27) (upper : Bool) :
    letterOf cfg (sigSorted cfg k) upper = some (charOfSym cfg.charcode k upper) := by
  obtain none | ⟨j, hj, same, found⟩ := letterOf_cases cfg (sigSorted cfg k) upper
  · exact absurd rfl (letterOf_eq_none_iff.mp none k hk)
  · rw [found, sigSorted_injective h hj hk same]

/-- Settles O15: `letterOf_sigSorted` for the triples of symbols, `letterOf_eq_none_iff` for the others. -/
theorem letterOfFindsTheRow : Obligations.LetterOfFindsTheRow := by
  intro cfg t upper h
  refine ⟨fun k hk e => ?_, letterOf_eq_none_iff.mpr⟩
  rw [← e]
  exact letterOf_sigSorted h hk upper

/-- Frequencies of which two are equal or one is no member of R9 are nobody's Signature. -/
theorem letterOf_sortAsc_eq_none {cfg : Config} (h : cfg.WellFormed) {l : List Nat} (upper : Bool)
    (illegal : ¬(l.Nodup ∧ ∀ f ∈ l, f ∈ restricted)) : letterOf cfg (sortAsc l) upper = none := by
  refine letterOf_eq_none_iff.mpr fun k hk e => illegal ?_
  obtain ⟨nodup, members⟩ := sigSorted_legal h hk
  rw [e] at nodup members
  exact ⟨(sortAsc_perm l).nodup_iff.mp nodup, fun f mem => members f ((sortAsc_perm l).mem_iff.mpr mem)⟩

/-! ### SIG (R95) -/

theorem exec_sig_legal {sym : BitVec 8} (legal : sym.toNat < 27) {s : State} {v : Word}
    (result : sigResult s.config sym.toNat = v) : exec (.sig sym) s = .next (s.setRes v) :=
  result ▸ congrArg _ (if_pos (decide_eq_true legal))

theorem exec_sig_reserved {sym : BitVec 8} (reserved : 27 ≤ sym.toNat) (s : State) :
    exec (.sig sym) s = .next (raise .illegalCommand s) :=
  congrArg _ (if_neg fun legal => absurd (of_decide_eq_true legal) (Nat.not_lt.mpr reserved))

theorem sigResult_of_sigSorted {cfg : Config} {k f0 f1 f2 : Nat} (e : sigSorted cfg k = [f0, f1, f2]) :
    sigResult cfg k = resOfSignature (canonIndex f0) (canonIndex f1) (canonIndex f2) := by
  rw [sigResult, e]
  rfl

/-- Settles O13: `sigSorted_indices` gives the indices SIG packs into RES. -/
theorem sigReturnsSignature : Obligations.SigReturnsSignature := by
  intro s sym
  refine ⟨fun h hk => ?_, fun reserved => exec_sig_reserved reserved s, fun decided => ?_, rfl, decode_of_encode rfl rfl⟩
  · obtain ⟨f0, f1, f2, e, low, rise01, rise12, high⟩ := sigSorted_indices h hk
    exact ⟨f0, f1, f2, e, low, rise01, rise12, high, exec_sig_legal hk (sigResult_of_sigSorted e)⟩
  · exact ⟨exec_sig_legal (by decide) (decided ▸ rfl), exec_sig_legal (by decide) (decided ▸ rfl)⟩

/-! ### LET (R96) -/

section
variable {upper : Bool} {j2 j1 j0 : BitVec 4}

theorem exec_let_legal (legal : ∀ j ∈ [j0, j1, j2], j.toNat < 11) {s : State} {v : Word}
    (result : letResult s.config upper j2.toNat j1.toNat j0.toNat = v) :
    exec (.let_ upper j2 j1 j0) s = .next (s.setRes v) := by
  refine result ▸ congrArg _ (if_pos ?_)
  simpa [isCanonIndex, canon, and_assoc] using legal

theorem exec_let_reserved (reserved : ¬∀ j ∈ [j0, j1, j2], j.toNat < 11) (s : State) :
    exec (.let_ upper j2 j1 j0) s = .next (raise .illegalCommand s) := by
  refine congrArg _ (if_neg fun legal => reserved ?_)
  simpa [isCanonIndex, canon, and_assoc] using legal

/-- LET takes its three indices in any order. -/
theorem exec_let_perm {i2 i1 i0 : BitVec 4} (same : [j0, j1, j2].Perm [i0, i1, i2]) (s : State) :
    exec (.let_ upper j2 j1 j0) s = exec (.let_ upper i2 i1 i0) s := by
  by_cases legal : ∀ j ∈ [j0, j1, j2], j.toNat < 11
  · have result : letResult s.config upper j2.toNat j1.toNat j0.toNat
        = letResult s.config upper i2.toNat i1.toNat i0.toNat := by
      have triple := sortAsc_eq_of_perm (same.map fun j => canonAt j.toNat)
      exact congrArg (fun t => resOfLookup s.config.charcode (letterOf s.config t upper)) triple
    rw [exec_let_legal legal result, exec_let_legal (fun j mem => legal j (same.mem_iff.mpr mem)) rfl]
  · rw [exec_let_reserved legal, exec_let_reserved fun other => legal fun j mem => other j (same.mem_iff.mp mem)]

/-- LET of indices that are equal somewhere or name a case tone is NotFound, rendered as `*`. -/
theorem exec_let_notFound {s : State} (h : s.config.WellFormed) (legal : ∀ j ∈ [j0, j1, j2], j.toNat < 11)
    (illegal : ¬([canonAt j0.toNat, canonAt j1.toNat, canonAt j2.toNat].Nodup ∧
      ∀ f ∈ [canonAt j0.toNat, canonAt j1.toNat, canonAt j2.toNat], f ∈ restricted)) :
    exec (.let_ upper j2 j1 j0) s = .next (s.setRes (resOfLookup s.config.charcode none)) := by
  refine exec_let_legal legal ?_
  rw [letResult, letterOf_sortAsc_eq_none h upper illegal]

end

theorem canonAt_caseTone : ∀ i < 2, canonAt i ∉ restricted := by decide

/-- At the decided parameters the indices 5, 8, 10 of row 26 give space in either case (R96). -/
theorem letResult_decided_space (upper : Bool) : letResult .decided upper 10 8 5 = 0x20#32 := by
  have triple : sortAsc [canonAt 5, canonAt 8, canonAt 10] = sigSorted .decided 26 := rfl
  rw [letResult, triple, letterOf_sigSorted decided_wellFormed (by decide), charOfSym_space]
  rfl

/-- Settles O14: LET's arm on legal and on reserved indices, `exec_let_perm` for their order, `exec_let_notFound` for
equal indices and case tones, the table evaluated for the examples. -/
theorem letReturnsLetter : Obligations.LetReturnsLetter := by
  intro s upper j2 j1 j0
  refine ⟨fun legal => ?_, fun reserved => ?_, exec_let_perm ((List.Perm.swap _ _ _).cons _) s,
    exec_let_perm (List.Perm.swap _ _ _) s, fun h h0 h1 => ?_, fun h h0 h1 h2 => ?_, fun decided => ?_, rfl,
    decode_of_encode rfl rfl, decode_of_encode rfl rfl⟩
  · exact exec_let_legal (by simpa using legal) rfl
  · refine exec_let_reserved (fun legal => ?_) s
    simp only [List.forall_mem_cons] at legal
    omega
  · exact exec_let_notFound h (by simp [h0, h1]) fun ⟨nodup, _⟩ => by simp at nodup
  · have legal : ∀ j ∈ [j0, j1, j2], j.toNat < 11 := by
      simp [h1, h2, show j0.toNat < 11 by omega]
    exact exec_let_notFound h legal fun ⟨_, members⟩ => canonAt_caseTone _ h0 (members _ List.mem_cons_self)
  · exact ⟨exec_let_legal (by decide) (decided ▸ letResult_decided_space upper), exec_let_legal (by decide) (decided ▸ rfl),
      exec_let_legal (by decide) (decided ▸ rfl), exec_let_legal (by decide) (decided ▸ rfl)⟩

end Sys2Proof.Proofs

/-! ## The synthesizer: SYN, ENC and the rendered block

What SYN and ENC do follows from `pcmBlock_exact`. The shape of a block and its clipping are read off one equation for
its samples, `sample_pcmBlock`, and off the symmetries and the bound of the sum of cosines (R103). -/

namespace Sys2Proof.Proofs

open Sys2Proof.Machine Sys2Proof.Laws

/-! ### SYN on legal and on reserved symbols (R105) -/

theorem exec_syn_legal {sym : BitVec 5} (legal : sym.toNat < 27) (upper : Bool) (s : State) :
    exec (.syn sym upper) s = .next (emitBlock (pcmBlock s.config sym.toNat upper s.amp.toNat) s) := by
  rw [exec, execSyn, if_pos (show isSym sym.toNat = true from decide_eq_true legal)]

theorem exec_syn_reserved {sym : BitVec 5} (reserved : 27 ≤ sym.toNat) (upper : Bool) (s : State) :
    exec (.syn sym upper) s = .next (raise .illegalCommand s) :=
  congrArg _ (if_neg fun legal => absurd (of_decide_eq_true legal) (Nat.not_lt.mpr reserved))

/-! ### The exact rendering (R102, R104) -/

/-- `pcm(synth(k, upper, AMP/256))` over the reals, with the block's parameters and AMP. -/
noncomputable def exactPcm (s : State) (k : Nat) (upper : Bool) : List ℤ × Bool :=
  Reference.pcm (Reference.synth s.config k upper ((s.amp.toNat : ℝ) / 256))

/-- At legal parameters the machine appends exactly that, and sets CLIP if it saturated. -/
theorem emitBlock_exact {s : State} (h : s.config.WellFormed) (k : Nat) (upper : Bool) :
    emitBlock (pcmBlock s.config k upper s.amp.toNat) s = { s with
      sout := s.sout ++ (exactPcm s k upper).1.map (BitVec.ofInt 16)
      status := if (exactPcm s k upper).2 = true then (s.status ||| 0x08#32) &&& 0x7F#32 else s.status } := by
  rw [emitBlock_eq, pcmBlock_exact s.config h k upper _ s.amp.isLt]
  rfl

/-- Settles O18: SYN emits the block of its symbol, which `emitBlock_exact` says is the exact one. -/
theorem synAppendsExactBlock : Obligations.SynAppendsExactBlock := by
  intro s sym upper
  refine ⟨fun h legal => ?_, fun reserved => exec_syn_reserved reserved upper s⟩
  rw [exec_syn_legal legal, emitBlock_exact h]
  rfl

/-- Settles O22: ENC emits the block SYN emits, `emitBlock_exact`; the symbol of a character is a legal operand. -/
theorem encAppendsExactBlock : Obligations.EncAppendsExactBlock := by
  intro s c
  refine ⟨fun h k up accepted casing => ?_, exec_enc_rejected⟩
  subst casing
  have legal : k < 27 := symOfChar_lt (charcode_wellFormed h) accepted
  have operand : (BitVec.ofNat 5 k).toNat = k := Nat.mod_eq_of_lt (by omega)
  constructor
  · rw [exec_enc_accepted accepted, emitBlock_exact h]
    rfl
  · rw [exec_enc_accepted accepted, exec_syn_legal (by rwa [operand]), operand]

/-! ### Space and silence, at any parameters (R103) -/

/-- The case tone of space is 100 Hz in either case (R102). -/
theorem tonesOf_space (cfg : Config) (upper : Bool) : tonesOf cfg 26 upper = tonesOf cfg 26 false := rfl

theorem pcmBlock_space (cfg : Config) (upper : Bool) (amp : Nat) :
    pcmBlock cfg 26 upper amp = pcmBlock cfg 26 false amp := by
  rw [pcmBlock, synthRounded, tonesOf_space]
  rfl

theorem roundHalfEven_zero (p : Nat) {d : Nat} (pos : 0 < d) : roundHalfEven p 0 d 0 = 0 := by
  have u : (0 : Int) < (d * 2 ^ p : Nat) := by positivity
  have t : (2 * 0 + ((d * 2 ^ p : Nat) : Int)) / (2 * (d * 2 ^ p : Nat)) = 0 := Int.ediv_eq_zero_of_lt (by omega) (by omega)
  simp only [roundHalfEven, t]
  rw [if_neg (by omega), if_neg (by omega)]

theorem synthRounded_zero (cfg : Config) (k : Nat) (upper : Bool) : synthRounded cfg k upper 0 = List.replicate 320 0 := by
  rw [synthRounded, withCosTable_eq]
  refine List.eq_replicate_iff.mpr ⟨by simp [blockLength], fun v mem => ?_⟩
  obtain ⟨n, -, rfl⟩ := List.mem_map.mp mem
  simpa [roundedSample] using roundHalfEven_zero _ (by decide)

/-- With amplitude 0 every sample is 0 and none saturates (R103 (f)). -/
theorem pcmBlock_zero (cfg : Config) (k : Nat) (upper : Bool) :
    pcmBlock cfg k upper 0 = (List.replicate 320 0, false) := by
  rw [pcmBlock, forcedList_eq, synthRounded_zero, List.map_replicate, List.any_replicate]
  rfl

/-- Settles O19: the block of space is the same in either case, and at amplitude 0 every block is 320 zeros. -/
theorem synSpecialCases : Obligations.SynSpecialCases := by
  intro s sym upper
  refine ⟨?_, fun legal silent => ?_⟩
  · have space : (26 : BitVec 5).toNat = 26 := rfl
    rw [exec_syn_legal (by decide), exec_syn_legal (by decide), space, pcmBlock_space]
  · have zeros : pcmBlock s.config sym.toNat upper s.amp.toNat = (List.replicate 320 0, false) := by
      rw [silent]
      exact pcmBlock_zero s.config sym.toNat upper
    rw [exec_syn_legal legal, zeros]
    rfl

/-! ### The samples of a block (R102, R104) -/

/-- The real that R104 rounds to stored sample `n`: `100 * x[n]` of `synth(k, upper, amp/256)`. -/
noncomputable def exactSample (cfg : Config) (k : Nat) (upper : Bool) (amp n : Nat) : ℝ :=
  100 * Reference.sample cfg k upper ((amp : ℝ) / 256) n

theorem exactSample_eq (cfg : Config) (k : Nat) (upper : Bool) (amp n : Nat) :
    exactSample cfg k upper amp n = 25 * amp / 64 * cosSum cfg (tonesOf cfg k upper) n := by
  rw [exactSample, sample_cosSum]
  ring

/-- Sample `n` of a block is the exact real rounded half to even and saturated. -/
theorem sample_pcmBlock {cfg : Config} (h : cfg.WellFormed) (k : Nat) (upper : Bool) {amp : Nat} (hamp : amp < 2 ^ 16)
    {n : Nat} (hn : n < 320) :
    (pcmBlock cfg k upper amp).1.getD n 0
      = BitVec.ofInt 16 (Reference.saturated (Reference.roundHalfEven (exactSample cfg k upper amp n))) := by
  have inside : n < (pcmBlock cfg k upper amp).1.length := by rwa [pcmBlock_length]
  rw [List.getD_eq_getElem _ _ inside]
  simp only [pcmBlock_exact cfg h k upper amp hamp, Reference.pcm, Reference.synth, List.getElem_map, List.getElem_range]
  rfl

/-- A block is clipped exactly if one of its rounded reals is outside the 16-bit range. -/
theorem clipped_pcmBlock {cfg : Config} (h : cfg.WellFormed) (k : Nat) (upper : Bool) {amp : Nat} (hamp : amp < 2 ^ 16) :
    (pcmBlock cfg k upper amp).2 = true ↔ ∃ n < 320,
      32767 < Reference.roundHalfEven (exactSample cfg k upper amp n) ∨
      Reference.roundHalfEven (exactSample cfg k upper amp n) < -32768 := by
  simp [pcmBlock_exact cfg h k upper amp hamp, Reference.pcm, Reference.synth, exactSample, blockLength]

/-! ### The sum of cosines (R103) -/

/-- A symbol has four tones. -/
theorem tonesOf_length {cfg : Config} (h : cfg.WellFormed) {k : Nat} (hk : k < 27) (upper : Bool) :
    (tonesOf cfg k upper).length = 4 := by
  obtain ⟨-, rows, -⟩ := h
  rw [tonesOf_some cfg k upper _ (List.getElem?_eq_getElem (rows.symm ▸ hk))]
  rfl

theorem caseTone_mem_canon (k : Nat) (upper : Bool) : caseTone k upper ∈ canon := by
  unfold caseTone
  split
  · decide
  · cases upper <;> decide

/-- All tones are canonical frequencies. -/
theorem tonesOf_subset_canon {cfg : Config} (h : cfg.WellFormed) (k : Nat) (upper : Bool) :
    ∀ f ∈ tonesOf cfg k upper, f ∈ canon := by
  obtain ⟨-, -, legal, -⟩ := h
  intro f mem
  rw [tonesOf] at mem
  split at mem
  · next g row =>
    obtain signature | caseTone := List.mem_append.mp mem
    · exact List.mem_of_mem_drop ((legal g (List.mem_of_getElem? row)).2 f signature)
    · exact List.mem_singleton.mp caseTone ▸ caseTone_mem_canon k upper
  · cases mem

/-- At sample 0 every cosine is 1. -/
theorem cosSum_zero (cfg : Config) (tones : List Nat) : cosSum cfg tones 0 = tones.length := by
  simp [cosSum]

theorem cosSum_congr {cfg : Config} {tones : List Nat} {m n : Nat}
    (same : ∀ f ∈ tones, Real.cos (2 * Real.pi * f * m / cfg.fs) = Real.cos (2 * Real.pi * f * n / cfg.fs)) :
    cosSum cfg tones m = cosSum cfg tones n :=
  congrArg List.sum (List.map_congr_left same)

/-- A whole number of periods is a multiple of the full turn. -/
theorem angle_of_dvd {q f m : Nat} (pos : 0 < q) (whole : q ∣ f * m) :
    ∃ j : Nat, 2 * Real.pi * f * m / q = j * (2 * Real.pi) := by
  obtain ⟨j, e⟩ := whole
  have q0 : (q : ℝ) ≠ 0 := by exact_mod_cast pos.ne'
  have eR : (f : ℝ) * m = q * j := by exact_mod_cast e
  exact ⟨j, by rw [mul_assoc, eR]; field_simp⟩

/-- The sum repeats after whole periods of every tone (R103 (c)). -/
theorem cosSum_add {cfg : Config} (pos : 0 < cfg.fs) {tones : List Nat} {m : Nat} (whole : ∀ f ∈ tones, cfg.fs ∣ f * m)
    (n : Nat) : cosSum cfg tones (n + m) = cosSum cfg tones n := by
  refine cosSum_congr fun f mem => ?_
  obtain ⟨j, e⟩ := angle_of_dvd pos (whole f mem)
  rw [Nat.cast_add, mul_add, add_div, e, Real.cos_add_nat_mul_two_pi]

/-- The sum reads the same backwards from whole periods of every tone (R103 (d)). -/
theorem cosSum_sub {cfg : Config} (pos : 0 < cfg.fs) {tones : List Nat} {m : Nat} (whole : ∀ f ∈ tones, cfg.fs ∣ f * m)
    {n : Nat} (le : n ≤ m) : cosSum cfg tones (m - n) = cosSum cfg tones n := by
  refine cosSum_congr fun f mem => ?_
  obtain ⟨j, e⟩ := angle_of_dvd pos (whole f mem)
  rw [Nat.cast_sub le, mul_sub, sub_div, e, Real.cos_nat_mul_two_pi_sub]

theorem fs_pos {cfg : Config} (h : cfg.WellFormed) : 0 < cfg.fs := lt_of_lt_of_le (by decide) h.1

/-- FS/100 samples are whole periods of every tone, where FS/100 is an integer (R103 (c)). -/
theorem dvd_mul_div_hundred {q f : Nat} (hq : 100 ∣ q) (hf : 100 ∣ f) : q ∣ f * (q / 100) := by
  obtain ⟨g, rfl⟩ := hf
  exact ⟨g, by rw [mul_right_comm, Nat.mul_div_cancel' hq]⟩

/-- The exact real at sample 0 is `100 * 4 * amp / 256` (R103 (a)). -/
theorem exactSample_zero {cfg : Config} (h : cfg.WellFormed) {k : Nat} (hk : k < 27) (upper : Bool) (amp : Nat) :
    exactSample cfg k upper amp 0 = 25 * amp / 16 := by
  rw [exactSample_eq, cosSum_zero, tonesOf_length h hk]
  push_cast
  ring

/-- No exact real of the block is larger than the first (R103 (b)). -/
theorem abs_exactSample_le (cfg : Config) (k : Nat) (upper : Bool) (amp n : Nat) :
    |exactSample cfg k upper amp n| ≤ 25 * amp / 16 := by
  have four : ((tonesOf cfg k upper).length : ℝ) ≤ 4 := by exact_mod_cast tones_length cfg k upper
  rw [exactSample_eq, abs_mul, abs_of_nonneg (by positivity)]
  calc 25 * (amp : ℝ) / 64 * |cosSum cfg (tonesOf cfg k upper) n| ≤ 25 * amp / 64 * 4 := by
        gcongr
        exact (cosSum_abs cfg _ n).trans four
    _ = 25 * amp / 16 := by ring

/-- Samples at which the cosines have the same sum are the same sample. -/
theorem sample_pcmBlock_congr {cfg : Config} (h : cfg.WellFormed) {k : Nat} {upper : Bool} {amp : Nat} (hamp : amp < 2 ^ 16)
    {m n : Nat} (hm : m < 320) (hn : n < 320)
    (same : cosSum cfg (tonesOf cfg k upper) m = cosSum cfg (tonesOf cfg k upper) n) :
    (pcmBlock cfg k upper amp).1.getD m 0 = (pcmBlock cfg k upper amp).1.getD n 0 := by
  rw [sample_pcmBlock h k upper hamp hm, sample_pcmBlock h k upper hamp hn, exactSample_eq, same, ← exactSample_eq]

/-- The first sample is `25*AMP/16`, rounded half to even and saturated (R103 (a), R104). -/
theorem sample_pcmBlock_zero {cfg : Config} (h : cfg.WellFormed) {k : Nat} (hk : k < 27) (upper : Bool) {amp : Nat}
    (hamp : amp < 2 ^ 16) :
    (pcmBlock cfg k upper amp).1.getD 0 0
      = BitVec.ofInt 16 (Reference.saturated (Reference.roundHalfEven ((25 : ℝ) * (amp : ℝ) / 16))) := by
  rw [sample_pcmBlock h k upper hamp (by decide), exactSample_zero h hk]

/-- Settles O20: period and symmetry are those of the sum of cosines, the first sample is `sample_pcmBlock_zero`. -/
theorem blockShape : Obligations.BlockShape := by
  intro cfg k amp upper h hk hamp
  refine ⟨pcmBlock_length cfg k upper amp, sample_pcmBlock_zero h hk upper hamp, fun hfs n hn => ?_,
    fun whole n _ hi => ?_⟩
  · have periods : ∀ f ∈ tonesOf cfg k upper, cfg.fs ∣ f * (cfg.fs / 100) := fun f mem =>
      dvd_mul_div_hundred hfs (hundred_dvd_tones cfg h k upper f mem)
    exact sample_pcmBlock_congr h hamp hn (by omega) (cosSum_add (fs_pos h) periods n)
  · have periods : ∀ f ∈ tonesOf cfg k upper, cfg.fs ∣ f * 320 := fun f mem =>
      whole f (tonesOf_subset_canon h k upper f mem)
    exact sample_pcmBlock_congr h hamp (by omega) hi (cosSum_sub (fs_pos h) periods hi.le)

/-! ### Clipping (R108) -/

/-- `round_half_even` answers one of the two integers around a real, none that is further than a half (R104). -/
theorem roundHalfEven_cases (r : ℝ) :
    (Reference.roundHalfEven r = ⌊r⌋ ∧ r - ⌊r⌋ ≤ 1 / 2) ∨ (Reference.roundHalfEven r = ⌊r⌋ + 1 ∧ 1 / 2 ≤ r - ⌊r⌋) := by
  unfold Reference.roundHalfEven
  split
  · next below => exact .inl ⟨rfl, below.le⟩
  · next notBelow =>
    split
    · next above => exact .inr ⟨rfl, above.le⟩
    · next notAbove =>
      split
      · exact .inl ⟨rfl, not_lt.mp notAbove⟩
      · exact .inr ⟨rfl, not_lt.mp notBelow⟩

/-- Rounding moves a real by at most a half. -/
theorem abs_roundHalfEven_sub_le (r : ℝ) : |(Reference.roundHalfEven r : ℝ) - r| ≤ 1 / 2 := by
  have floor := Int.floor_le r
  have succ := Int.lt_floor_add_one r
  rw [abs_le]
  obtain ⟨e, near⟩ | ⟨e, near⟩ := roundHalfEven_cases r
  · rw [e]
    constructor <;> linarith
  · rw [e]
    push_cast
    constructor <;> linarith

/-- Below 0x51EC no sample leaves the 16-bit range: `25 * 20971 / 16 + 1/2 < 32768`. -/
theorem roundHalfEven_inside {amp : Nat} (small : amp < 20972) {r : ℝ} (bound : |r| ≤ 25 * amp / 16) :
    -32768 < Reference.roundHalfEven r ∧ Reference.roundHalfEven r < 32768 := by
  have amp' : (amp : ℝ) ≤ 20971 := by exact_mod_cast Nat.le_of_lt_succ small
  obtain ⟨lo, hi⟩ := abs_le.mp bound
  obtain ⟨below, above⟩ := abs_le.mp (abs_roundHalfEven_sub_le r)
  constructor
  · have : ((-32768 : ℤ) : ℝ) < Reference.roundHalfEven r := by push_cast; linarith
    exact_mod_cast this
  · have : (Reference.roundHalfEven r : ℝ) < (32768 : ℤ) := by push_cast; linarith
    exact_mod_cast this

/-- From 0x51EC on the first sample does: `25 * 20972 / 16 - 1/2 > 32767`. -/
theorem roundHalfEven_outside {amp : Nat} (large : 20972 ≤ amp) :
    32767 < Reference.roundHalfEven ((25 : ℝ) * amp / 16) := by
  have amp' : (20972 : ℝ) ≤ amp := by exact_mod_cast large
  obtain ⟨below, -⟩ := abs_le.mp (abs_roundHalfEven_sub_le ((25 : ℝ) * amp / 16))
  have : ((32767 : ℤ) : ℝ) < Reference.roundHalfEven ((25 : ℝ) * amp / 16) := by push_cast; linarith
  exact_mod_cast this

/-- A block saturates somewhere exactly if its first sample does, which is from 0x51EC on. -/
theorem clipped_pcmBlock_iff {cfg : Config} (h : cfg.WellFormed) {k : Nat} (hk : k < 27) (upper : Bool) {amp : Nat}
    (hamp : amp < 2 ^ 16) : (pcmBlock cfg k upper amp).2 = true ↔ 20972 ≤ amp := by
  rw [clipped_pcmBlock h k upper hamp]
  constructor
  · rintro ⟨n, -, outside⟩
    by_contra small
    have inside := roundHalfEven_inside (not_le.mp small) (abs_exactSample_le cfg k upper amp n)
    omega
  · intro large
    refine ⟨0, by decide, .inl ?_⟩
    rw [exactSample_zero h hk]
    exact roundHalfEven_outside large

/-- At the default amplitude the first sample is `25 * 256 / 16 = 400`. -/
theorem sample_pcmBlock_default {cfg : Config} (h : cfg.WellFormed) {k : Nat} (hk : k < 27) (upper : Bool) :
    (pcmBlock cfg k upper 0x0100).1.getD 0 0 = 400 := by
  have rounded : Reference.roundHalfEven ((25 : ℝ) * (256 : ℕ) / 16) = 400 :=
    reference_round_inside (by norm_num) (by norm_num)
  rw [sample_pcmBlock_zero h hk upper (by decide), rounded]
  rfl

/-- Settles O21: `clipped_pcmBlock_iff` and the first sample at AMP = 0x0100. -/
theorem clipExactlyFromThreshold : Obligations.ClipExactlyFromThreshold := by
  intro cfg k amp upper h hk hamp
  refine ⟨clipped_pcmBlock_iff h hk upper hamp, ?_⟩
  rw [sample_pcmBlock_default h hk]
  rfl

end Sys2Proof.Proofs

/-! ## The frequency quantizer and QNT

Over the reals the loop of R120 answers the first index of least distance, so its thresholds are the midpoints of
neighbours. The machine's integers answer the same index on an exact quotient (`quantize_exact`). -/

namespace Sys2Proof.Proofs

open Sys2Proof.Machine Sys2Proof.Laws

/-! ### The first minimum (R120) -/

/-- Among the indices below `n`, `i` is the first one at which `d` is least. -/
structure FirstMinimum (d : ℕ → ℝ) (n i : ℕ) : Prop where
  lt : i < n
  least : ∀ j < n, d i ≤ d j
  first : ∀ j < i, d i < d j

/-- One more index, no nearer: an equal distance keeps the earlier one. -/
theorem FirstMinimum.keep {d : ℕ → ℝ} {n i : ℕ} (h : FirstMinimum d n i) (le : d i ≤ d n) : FirstMinimum d (n + 1) i where
  lt := Nat.lt_succ_of_lt h.lt
  least := Nat.forall_lt_succ_right.mpr ⟨h.least, le⟩
  first := h.first

/-- One more index, strictly nearer. -/
theorem FirstMinimum.replace {d : ℕ → ℝ} {n i : ℕ} (h : FirstMinimum d n i) (lt : d n < d i) : FirstMinimum d (n + 1) n where
  lt := Nat.lt_succ_self n
  least := Nat.forall_lt_succ_right.mpr ⟨fun j hj => lt.le.trans (h.least j hj), le_rfl⟩
  first j hj := lt.trans_le (h.least j hj)

/-- How far the canonical frequency of index `i` lies from `f`. -/
noncomputable def distance (f : ℝ) (i : ℕ) : ℝ := |f - canonAt i|

/-- The loop carries the first minimum of the indices it has passed. -/
theorem reference_quantizeLoop_firstMinimum (f : ℝ) {cs : List ℕ} {i best : ℕ} (rest : canon.drop i = cs)
    (h : FirstMinimum (distance f) i best) :
    FirstMinimum (distance f) (i + cs.length) (Reference.quantizeLoop f cs i best (distance f best)) := by
  induction cs generalizing i best with
  | nil => exact h
  | cons c cs ih =>
    have here : |f - c| = distance f i := by
      rw [distance, canonAt, List.getD_eq_getElem?_getD, ← List.head?_drop, rest]
      rfl
    have rest' : canon.drop (i + 1) = cs := by rw [← List.tail_drop, rest, List.tail_cons]
    rw [Reference.quantizeLoop, here, List.length_cons, Nat.add_comm cs.length, ← Nat.add_assoc]
    split
    · next nearer => exact ih rest' (h.replace nearer)
    · next notNearer => exact ih rest' (h.keep (not_lt.mp notNearer))

theorem reference_quantize_firstMinimum (f : ℝ) : FirstMinimum (distance f) 11 (Reference.quantize f) :=
  reference_quantizeLoop_firstMinimum f (i := 1) rfl
    ⟨Nat.zero_lt_one, fun _ lt => (congrArg _ (Nat.lt_one_iff.mp lt)).ge, fun _ lt => absurd lt (Nat.not_lt_zero _)⟩

/-! ### The midpoints are the thresholds (R121) -/

/-- The frequency exactly between the canonical frequencies of index `i` and `i + 1`, in hertz. -/
def midpoint (i : ℕ) : ℕ := (canonAt i + canonAt (i + 1)) / 2

theorem two_mul_midpoint : ∀ i < 10, 2 * midpoint i = canonAt i + canonAt (i + 1) := by decide

theorem canonAt_lt : ∀ j < 11, ∀ i < j, canonAt i < canonAt j := by decide

theorem canonAt_le {i j : ℕ} (hj : j < 11) (le : i ≤ j) : canonAt i ≤ canonAt j := by
  obtain rfl | lt := le.eq_or_lt
  · exact le_rfl
  · exact (canonAt_lt j hj i lt).le

/-- Of two canonical frequencies the higher is strictly nearer to what lies above their midpoint. -/
theorem distance_lt_iff (f : ℝ) {i j : ℕ} (lt : i < j) (hj : j < 11) :
    distance f j < distance f i ↔ (canonAt i + canonAt j : ℝ) < 2 * f := by
  have rise : (canonAt i : ℝ) < canonAt j := by exact_mod_cast canonAt_lt j hj i lt
  rw [distance, distance, ← sq_lt_sq]
  constructor
  · intro nearer
    nlinarith
  · intro above
    nlinarith

/-- The quantized index exceeds `i` exactly above the midpoint of `i` and `i + 1`, for every real frequency. -/
theorem lt_reference_quantize_iff (f : ℝ) {i : ℕ} (hi : i < 10) : i < Reference.quantize f ↔ midpoint i < f := by
  have nearest := reference_quantize_firstMinimum f
  have middle : 2 * (midpoint i : ℝ) = canonAt i + canonAt (i + 1) := by exact_mod_cast two_mul_midpoint i hi
  constructor
  · intro lt
    have above := (distance_lt_iff f lt nearest.lt).mp (nearest.first i lt)
    have rise : (canonAt (i + 1) : ℝ) ≤ canonAt (Reference.quantize f) := by exact_mod_cast canonAt_le nearest.lt lt
    linarith
  · intro above
    by_contra le
    have rise : (canonAt (Reference.quantize f) : ℝ) ≤ canonAt i := by
      exact_mod_cast canonAt_le (hi.trans (by decide)) (not_lt.mp le)
    have nearer := (distance_lt_iff f (Nat.lt_succ_of_le (not_lt.mp le)) (Nat.succ_lt_succ hi)).mpr (by linarith)
    exact absurd (nearest.least (i + 1) (Nat.succ_lt_succ hi)) (not_le.mpr nearer)

/-- The same threshold for the machine, on the frequency `num / den`. -/
theorem lt_quantize_iff (num : ℕ) {den : ℕ} (pos : 0 < den) {i : ℕ} (hi : i < 10) :
    i < quantize num den ↔ midpoint i * den < num := by
  have pos' : (0 : ℝ) < den := by exact_mod_cast pos
  rw [quantize_exact num den pos, lt_reference_quantize_iff _ hi, lt_div_iff₀ pos']
  exact_mod_cast Iff.rfl

section Staircase
variable {num den : ℕ} (pos : 0 < den)
include pos

theorem quantizeHz_lowest (low : num ≤ 150 * den) : quantizeHz num den = 100 := by
  have notAbove := (lt_quantize_iff num pos (i := 0) (by decide)).not.mpr (not_lt.mpr low)
  rw [quantizeHz, Nat.eq_zero_of_not_pos notAbove]
  rfl

/-- A midpoint belongs to the lower step. -/
theorem quantizeHz_between {i : ℕ} (hi : i < 9) (above : midpoint i * den < num) (upTo : num ≤ midpoint (i + 1) * den) :
    quantizeHz num den = canonAt (i + 1) := by
  have lower := (lt_quantize_iff num pos (by omega : i < 10)).mpr above
  have upper := (lt_quantize_iff num pos (by omega : i + 1 < 10)).not.mpr (not_lt.mpr upTo)
  rw [quantizeHz, le_antisymm (not_lt.mp upper) lower]

theorem quantizeHz_highest (high : 3200 * den < num) : quantizeHz num den = 4000 := by
  have above := (lt_quantize_iff num pos (i := 9) (by decide)).mpr high
  rw [quantizeHz, le_antisymm (quantize_le num den) above]
  rfl

end Staircase

/-- A canonical frequency is at distance 0 from itself, so from the one nearest to it. -/
theorem quantizeHz_canonAt {i : ℕ} (hi : i < 11) : quantizeHz (canonAt i) 1 = canonAt i := by
  have nearest := (reference_quantize_firstMinimum (canonAt i)).least i hi
  rw [distance, distance, sub_self, abs_zero, abs_nonpos_iff, sub_eq_zero] at nearest
  rw [quantizeHz, quantize_exact _ _ Nat.one_pos, Nat.cast_one, div_one]
  exact_mod_cast nearest.symm

theorem canonAt_of_mem : ∀ f ∈ canon, ∃ i < 11, canonAt i = f := by decide

theorem reference_quantizeHz_negative {f : ℝ} (negative : f < 0) : Reference.quantizeHz f = 100 := by
  have notAbove : ¬0 < Reference.quantize f := by
    rw [lt_reference_quantize_iff f (by decide), not_lt]
    exact negative.le.trans (Nat.cast_nonneg _)
  rw [Reference.quantizeHz, Nat.eq_zero_of_not_pos notAbove]
  rfl

/-- Settles O26: the thresholds of `lt_quantize_iff`, step by step. -/
theorem quantizerStaircase : Obligations.QuantizerStaircase := by
  refine ⟨fun num den pos => ?_, fun f mem => ?_, fun f => reference_quantizeHz_negative⟩
  · have step (i : ℕ) (hi : i < 9) := quantizeHz_between (num := num) pos hi
    exact ⟨quantizeHz_lowest pos, step 0 (by decide), step 1 (by decide), step 2 (by decide), step 3 (by decide),
      step 4 (by decide), step 5 (by decide), step 6 (by decide), step 7 (by decide), step 8 (by decide),
      quantizeHz_highest pos⟩
  · obtain ⟨i, hi, rfl⟩ := canonAt_of_mem f mem
    exact quantizeHz_canonAt hi

/-! ### QNT (R122) -/

theorem exec_qnt {v : BitVec 16} {i : ℕ} (index : quantize v.toNat 8 = i) (s : State) :
    exec (.qnt v) s = .next { s with res := BitVec.ofNat 32 i } := index ▸ rfl

/-- The operand counts eighths of a hertz, and so do the distances of R122. -/
theorem abs_eighths_eq (v : BitVec 16) (i : ℕ) :
    ((|(v.toNat : ℤ) - 8 * (canonAt i : ℤ)| : ℤ) : ℝ) = 8 * distance ((v.toNat : ℝ) / (8 : ℕ)) i := by
  have scaled := distance_scaled v.toNat 8 (canonAt i) (by decide)
  rwa [Nat.cast_natAbs] at scaled

theorem abs_eighths_le_iff (v : BitVec 16) (i j : ℕ) :
    |(v.toNat : ℤ) - 8 * (canonAt i : ℤ)| ≤ |(v.toNat : ℤ) - 8 * (canonAt j : ℤ)| ↔
      distance ((v.toNat : ℝ) / (8 : ℕ)) i ≤ distance ((v.toNat : ℝ) / (8 : ℕ)) j := by
  rw [← Int.cast_le (R := ℝ), abs_eighths_eq, abs_eighths_eq, mul_le_mul_iff_right₀ (by norm_num)]

/-- R122's midpoints in eighths of a hertz, and one eighth above each. -/
theorem quantize_midpoints : ∀ k < 10,
    quantize (BitVec.ofNat 16 ([1200, 2400, 4000, 5600, 7200, 8800, 11200, 14400, 17600, 25600].getD k 0)).toNat 8 = k ∧
    quantize (BitVec.ofNat 16 ([1200, 2400, 4000, 5600, 7200, 8800, 11200, 14400, 17600, 25600].getD k 0 + 1)).toNat 8 = k + 1 := by
  decide

/-- Settles O25: the machine's index is the first minimum of the reals' distances. -/
theorem qntReturnsNearest : Obligations.QntReturnsNearest := by
  intro s v
  have nearest := reference_quantize_firstMinimum ((v.toNat : ℝ) / (8 : ℕ))
  rw [← quantize_exact v.toNat 8 (by decide)] at nearest
  refine ⟨⟨quantize v.toNat 8, quantize_le _ _, exec_qnt rfl s, fun j hj => ?_, fun j hj => ?_⟩,
    exec_qnt (by decide) s, exec_qnt (by decide) s, fun k hk => ?_, rfl,
    decode_of_encode rfl rfl, decode_of_encode rfl rfl⟩
  · exact (abs_eighths_le_iff v _ j).mpr (nearest.least j (Nat.lt_succ_of_le hj))
  · exact (lt_iff_lt_of_le_iff_le (abs_eighths_le_iff v j _)).mpr (nearest.first j hj)
  · obtain ⟨below, above⟩ := quantize_midpoints k hk
    exact ⟨exec_qnt below s, exec_qnt above s⟩

end Sys2Proof.Proofs

/-! ## The spectral decoder: DECS

On a full block a decode command is its decoder's answer, flags and all (`decodeCommand_full`), and the machine's
spectral decoder is the exact one. A block with one sample at most has the same power in every bin. -/

namespace Sys2Proof.Proofs

open Sys2Proof.Machine Sys2Proof.Laws

/-! ### The course of a decode command (R138, R160) -/

/-- A mask between two flags adds nothing to the mask at the end (R25). -/
theorem mask_or_mask (v w : Word) : (v &&& statusMask ||| w) &&& statusMask = (v ||| w) &&& statusMask := by
  rw [BitVec.and_comm, BitVec.and_or_distrib_left, BitVec.and_comm v, ← BitVec.and_assoc, BitVec.and_self,
    ← BitVec.and_or_distrib_left, BitVec.and_comm]

/-- STATUS after an answer that reports DEGEN only together with UNREC (R201 (d)). -/
theorem deliverStatus_eq {r : Decoded} (pair : r.degen = true → r.unrec = true) (v : Word) :
    deliverStatus r v = if r.degen then (v ||| 0x03#32) &&& 0x7F#32
      else if r.unrec then (v ||| 0x01#32) &&& 0x7F#32 else v := by
  unfold deliverStatus
  cases degen : r.degen with
  | true =>
    have both : setFlag .unrecognizedSymbol (setFlag .degenerateBlock v &&& statusMask) &&& statusMask
        = (v ||| 0x03#32) &&& 0x7F#32 := by
      rw [setFlag, setFlag, mask_or_mask, BitVec.or_assoc]
      rfl
    simpa [pair degen] using both
  | false => rfl

/-- A decode command on a full block pushes the answer's character, sets its flags and empties the block. -/
theorem decodeCommand_full {decoder : List Int → Decoded} {s : State} (full : s.scnt.val = 320) {r : Decoded}
    (answer : decoder s.block = r) (pair : r.degen = true → r.unrec = true) :
    decodeCommand decoder s = { s with
      cout := s.cout ++ [r.char]
      scnt := 0
      status := if r.degen then (s.status ||| 0x03#32) &&& 0x7F#32
        else if r.unrec then (s.status ||| 0x01#32) &&& 0x7F#32 else s.status } := by
  have notFew : ¬s.scnt.val < blockLength := by rw [full]; decide
  rw [decodeCommand, if_neg notFew, answer, deliver_eq, deliverStatus_eq pair]

/-- A decode command on a partial block sets UNDER and nothing else (R196). -/
theorem decodeCommand_partial (decoder : List Int → Decoded) {s : State} (few : s.scnt.val < 320) :
    decodeCommand decoder s = { s with status := (s.status ||| 0x10#32) &&& 0x7F#32 } :=
  if_pos few

/-- The machine's spectral decoder on the block of a state is the exact one (R137). -/
theorem specDecode_block (s : State) : specDecode s.config s.block = Reference.specDecode s.config s.block :=
  specDecode_exact s.config s.block (block_length s) (block_natAbs s)

/-- Settles O30: the two courses of a decode command, with the exact decoder's answer for a full block. -/
theorem decsDecodesExactly : Obligations.DecsDecodesExactly := by
  intro s
  rw [runs_decs s.config s rfl]
  refine ⟨fun legal full => ⟨_, rfl, ?_⟩, fun few => congrArg _ (decodeCommand_partial _ few)⟩
  obtain ⟨-, pair⟩ := specDecode_sound (charcode_wellFormed legal) s.block
  rw [specDecode_block] at pair
  exact congrArg _ (decodeCommand_full full (specDecode_block s) pair)

/-! ### Blocks with one sample at most (R136) -/

theorem getD_block {n : Nat} (inside : n < 320) (s : State) : s.block.getD n 0 = (s.blk.read n).toInt := by
  simp [State.block, blockLength, inside]

/-- Where all samples but that at `p` are 0, a sum over the block is its term at `p`. -/
theorem dot_single {b : List Int} {p : Nat} (single : ∀ n < b.length, n ≠ p → b.getD n 0 = 0) (c : Nat → ℝ) :
    dot b c = (b.getD p 0 : ℝ) * c p := by
  refine Finset.sum_eq_single p (fun n inside other => ?_) fun outside => ?_
  · rw [single n (Finset.mem_range.mp inside) other, Int.cast_zero, zero_mul]
  · have past : b.length ≤ p := by simpa using outside
    rw [List.getD_eq_default b 0 past, Int.cast_zero, zero_mul]

/-- The power of such a block is the square of its one sample in every bin: `cos² + sin² = 1`. -/
theorem binPower_single {b : List Int} {p : Nat} (whole : b.length = 320)
    (single : ∀ n < b.length, n ≠ p → b.getD n 0 = 0) (k : Nat) : binPower b k = (b.getD p 0 : ℝ) ^ 2 := by
  have circle : cosBin k p ^ 2 + sinBin k p ^ 2 = 1 := Real.cos_sq_add_sin_sq _
  rw [binPower, re_eq_dot b whole, im_eq_dot b whole, dot_single single, dot_single single, neg_sq, mul_pow, mul_pow,
    ← mul_add, circle, mul_one]

/-- The spectrum of such a block is flat: the exact decoder answers `*`, DEGEN and UNREC. -/
theorem reference_specDecode_single (cfg : Config) {b : List Int} {p : Nat} (whole : b.length = 320)
    (single : ∀ n < b.length, n ≠ p → b.getD n 0 = 0) : Reference.specDecode cfg b = .degenerate cfg.charcode := by
  have flat : ∀ k ∈ Finset.Icc 1 160, Reference.mag b k = Reference.mag b 0 := fun k _ =>
    (mag_eq_iff b k 0).mpr ((binPower_single whole single k).trans (binPower_single whole single 0).symm)
  rw [Reference.specDecode, if_pos flat]
  rfl

/-- Settles O32: `reference_specDecode_single` for the block of the state. -/
theorem decsDegenerateBlocks : Obligations.DecsDegenerateBlocks := by
  intro s p full zeros
  have single : ∀ n < s.block.length, n ≠ p → s.block.getD n 0 = 0 := by
    intro n inside other
    rw [block_length] at inside
    rw [getD_block inside, zeros n inside other]
    rfl
  have answer : specDecode s.config s.block = .degenerate s.config.charcode :=
    (specDecode_block s).trans (reference_specDecode_single s.config (block_length s) single)
  rw [runs_decs s.config s rfl]
  exact congrArg _ (decodeCommand_full full answer fun _ => rfl)

end Sys2Proof.Proofs

/-! ## The filter-bank decoder: DECF

On a full block DECF is `fbDecode`'s answer, which is the exact one at legal parameters (R159). The maximum of a
block is its greatest sample, so a block of samples at most 0 with a 0 among them is degenerate. A channel below
half the sampling rate has `0 < beta < 1` and its centre strictly inside the upper half of the unit circle, which
places its poles. -/

namespace Sys2Proof.Proofs

open Sys2Proof.Machine Sys2Proof.Laws

/-! ### The answer of DECF (R159, R160) -/

/-- The machine's filter-bank decoder on the block of a state with legal parameters is the exact one. -/
theorem fbDecode_block {s : State} (legal : s.config.WellFormed) :
    fbDecode s.config s.block = Reference.fbDecode s.config s.block :=
  fbDecode_exact s.config legal.1 s.block (block_length s) (block_natAbs s)

/-- Settles O31: the two courses of a decode command, with the exact decoder's answer for a full block. -/
theorem decfDecodesExactly : Obligations.DecfDecodesExactly := by
  intro s
  rw [runs_decf s.config s rfl]
  refine ⟨fun legal full => ⟨_, rfl, ?_⟩, fun few => congrArg _ (decodeCommand_partial _ few)⟩
  obtain ⟨-, pair⟩ := fbDecode_sound (charcode_wellFormed legal) s.block
  rw [fbDecode_block legal] at pair
  exact congrArg _ (decodeCommand_full full (fbDecode_block legal) pair)

/-! ### Blocks whose maximum is 0 (R151, R161) -/

theorem blockMax_isGreatest {b : List Int} (nonempty : b ≠ []) : IsGreatest {x | x ∈ b} (blockMax b) := by
  cases b with
  | nil => exact absurd rfl nonempty
  | cons x xs => exact List.max?_eq_some_iff.mp List.max?_cons'

/-- Where the maximum is 0 no filter runs (R161). -/
theorem fbDecode_silent (cfg : Config) {b : List Int} (silent : blockMax b = 0) :
    fbDecode cfg b = .degenerate cfg.charcode := by
  rw [fbDecode, forcedList_eq]
  exact if_pos silent

/-- The maximum of a state's block, by the samples stored (R151). -/
theorem blockMax_block_eq_zero {s : State} (nonpos : ∀ n < 320, (s.blk.read n).toInt ≤ 0)
    (zero : ∃ n < 320, s.blk.read n = 0) : blockMax s.block = 0 := by
  have upper : ∀ x ∈ s.block, x ≤ 0 :=
    List.forall_mem_map.mpr fun n inside => nonpos n (List.mem_range.mp inside)
  have attained : (0 : Int) ∈ s.block := by
    obtain ⟨n, inside, value⟩ := zero
    exact List.mem_map.mpr ⟨n, List.mem_range.mpr inside, congrArg BitVec.toInt value⟩
  exact (blockMax_isGreatest (List.ne_nil_of_mem attained)).unique ⟨attained, upper⟩

/-- Settles O33: the maximum of the block is 0, at any parameters. -/
theorem decfDegenerateBlocks : Obligations.DecfDegenerateBlocks := by
  intro s full nonpos zero
  have answer := fbDecode_silent s.config (blockMax_block_eq_zero nonpos zero)
  rw [runs_decf s.config s rfl]
  exact congrArg _ (decodeCommand_full full answer fun _ => rfl)

/-! ### The poles of a channel (R152, R162) -/

theorem canon_pos : ∀ f ∈ canon, 0 < f := by decide

section

variable {cfg : Config} {f : Nat} (pos : 0 < f) (below : 2 * f < cfg.fs)
include pos below

/-- The centre of the channel lies in the open upper half of the circle. -/
theorem centreAngle_mem_Ioo : 2 * Real.pi * f / cfg.fs ∈ Set.Ioo 0 Real.pi := by
  have f0 : (0 : ℝ) < f := Nat.cast_pos.mpr pos
  have half : (2 : ℝ) * f < cfg.fs := by exact_mod_cast below
  have fs0 : (0 : ℝ) < cfg.fs := by linarith
  refine ⟨by positivity, ?_⟩
  rw [div_lt_iff₀ fs0]
  nlinarith [Real.pi_pos]

theorem abs_centre_lt_one : |centre cfg f| < 1 := by
  obtain ⟨low, high⟩ := centreAngle_mem_Ioo pos below
  have sine := Real.sin_pos_of_pos_of_lt_pi low high
  have circle := Real.sin_sq_add_cos_sq (2 * Real.pi * f / cfg.fs)
  rw [← sq_lt_one_iff_abs_lt_one, centre]
  nlinarith

/-- `beta` is the tangent of a tenth of the centre's angle, which is below an eighth of a turn. -/
theorem beta_mem_Ioo : Reference.beta cfg f ∈ Set.Ioo 0 1 := by
  obtain ⟨low, high⟩ := centreAngle_mem_Ioo pos below
  have tenth : Real.pi * f / (5 * cfg.fs) = 2 * Real.pi * f / cfg.fs / 10 := by ring
  rw [Reference.beta, tenth]
  refine ⟨Real.tan_pos_of_pos_of_lt_pi_div_two (by linarith) (by linarith), ?_⟩
  rw [← Real.tan_pi_div_four]
  exact Real.tan_lt_tan_of_lt_of_lt_pi_div_two (by linarith) (by linarith) (by linarith)

theorem a2_mem_Ioo : Reference.a2 cfg f ∈ Set.Ioo 0 1 := by
  obtain ⟨low, high⟩ := beta_mem_Ioo pos below
  have den : 0 < 1 + Reference.beta cfg f := by linarith
  rw [Reference.a2]
  exact ⟨div_pos (by linarith) den, (div_lt_one den).mpr (by linarith)⟩

/-- `|a1|` is `1 + a2 = 2 / (1 + beta)` times the absolute value of the centre's cosine. -/
theorem abs_a1_lt : |Reference.a1 cfg f| < 1 + Reference.a2 cfg f := by
  obtain ⟨low, -⟩ := beta_mem_Ioo pos below
  have den : 0 < 1 + Reference.beta cfg f := by linarith
  calc |Reference.a1 cfg f| = 2 * |centre cfg f| / (1 + Reference.beta cfg f) := by
        rw [Reference.a1, ← centre, abs_div, abs_mul, abs_neg, abs_two, abs_of_pos den]
    _ < 2 / (1 + Reference.beta cfg f) := by
        gcongr
        linarith [abs_centre_lt_one pos below]
    _ = 1 + Reference.a2 cfg f := by
        rw [Reference.a2]
        field_simp
        ring

end

/-- Settles O36: `a2_mem_Ioo` and `abs_a1_lt`; every canonical frequency is above 0. -/
theorem filterStability : Obligations.FilterStability := by
  intro cfg f _ mem below
  have pos := canon_pos f mem
  obtain ⟨low, high⟩ := a2_mem_Ioo pos below
  exact ⟨low, high, abs_a1_lt pos below⟩

end Sys2Proof.Proofs

/-! ## The stream, block and housekeeping commands: NOP, LDS, ENDS, CLRF, RST

LDS stores at BLK[SCNT] and nowhere else, which is a read after a write in the block buffer; ENDS empties the block, so
the next LDS stores at BLK[0]. A word with NOP's opcode and another bit set fails the must-be-zero test of NOP's row. -/

namespace Sys2Proof.Proofs

open Sys2Proof.Machine Sys2Proof.Laws

/-! ### A sample in two's complement (R8) -/

theorem toInt_of_lt {v : Sample} (low : v.toNat < 2 ^ 15) : v.toInt = v.toNat :=
  BitVec.toInt_eq_toNat_of_lt (by omega)

theorem toInt_of_le {v : Sample} (high : 2 ^ 15 ≤ v.toNat) : v.toInt = (v.toNat : Int) - 2 ^ 16 := by
  rw [BitVec.toInt_eq_toNat_cond, if_neg (by omega)]
  rfl

/-! ### LDS (R172) -/

/-- The entry LDS stores at reads back as its sample. -/
theorem loadSample_read_count {s : State} (canonical : s.blk.wf = true) (v : Sample) (room : s.scnt.val < blockLength) :
    (s.loadSample v room).blk.read s.scnt.val = v :=
  read_write_same canonical _ _

/-- LDS keeps every entry but the one at SCNT. -/
theorem loadSample_read_other {s : State} (v : Sample) (room : s.scnt.val < blockLength) {a : Nat}
    (other : a ≠ s.scnt.val) : (s.loadSample v room).blk.read a = s.blk.read a :=
  read_write_other _ _ _ _ other

/-- Settles O27: with room LDS is `loadSample`, in a full block it raises the overrun. -/
theorem ldsStoresOrOverruns : Obligations.LdsStoresOrOverruns := by
  intro s v
  refine ⟨fun canonical room => ?_, exec_lds_full v, toInt_of_lt, toInt_of_le, rfl, decode_of_encode rfl rfl⟩
  exact ⟨s.loadSample v room, exec_lds_room v room, rfl, rfl, loadSample_read_count canonical v room,
    fun _ => loadSample_read_other v room⟩

/-! ### NOP (R171) -/

/-- A word whose opcode has a row that does not accept it has a must-be-zero bit set (R78, R82 (b)). -/
theorem decode_of_row_rejects {w : Word} {row : OpcodeRow} (found : opcodeMap[(w >>> 24).toNat]? = some row)
    (rejected : w &&& row.mask ≠ row.pattern) : decode w = .error .mustBeZero := by
  rw [← opcodeOf_toNat] at found
  simp only [decode, found, if_neg rejected]

/-- Settles O12: NOP's row fixes all 32 bits, so of the words with its opcode it accepts the all-zero one only. -/
theorem nopChangesNothing : Obligations.NopChangesNothing := by
  refine ⟨fun _ => rfl, decode_of_encode rfl rfl, rfl, fun w opcode nonzero => ?_⟩
  have found : opcodeMap[(w >>> 24).toNat]? = some ⟨"NOP", 0, 0xFFFFFFFF, fun _ => .nop⟩ := by
    rw [opcode]
    rfl
  exact decode_of_row_rejects found fun accepted => nonzero (eq_formatZ_of_and (opc := 0) accepted)

/-! ### ENDS (R173) -/

/-- Settles O29: after ENDS the count is 0, so the next LDS has room and stores at BLK[0]. -/
theorem endsDropsBlock : Obligations.EndsDropsBlock := by
  intro s v
  refine ⟨rfl, rfl, decode_of_encode rfl rfl, fun canonical => ?_⟩
  have room : s.clearCount.scnt.val < blockLength := by
    rw [clearCount_scnt]
    decide
  have ends : exec .ends s = .next s.clearCount := rfl
  refine ⟨s.clearCount.loadSample v room, ?_, rfl, loadSample_read_count (s := s.clearCount) canonical v room⟩
  rw [execAll_cons ends, execAll_cons (exec_lds_room v room), execAll]

/-! ### CLRF and RST (R174, R175, R31) -/

/-- Settles O37: CLRF's arm writes 0 to STATUS, which the mask keeps, and to nothing else. -/
theorem clrfClearsFlags : Obligations.ClrfClearsFlags :=
  fun _ => ⟨rfl, rfl, decode_of_encode rfl rfl⟩

/-- Settles O38: RST reaches `toReset`, whose laws give each reset value. -/
theorem rstRestoresResetValues : Obligations.RstRestoresResetValues :=
  fun s => ⟨s.toReset, rfl, toReset_amp s, toReset_scnt s, toReset_res s, toReset_status s, toReset_sout s, toReset_cout s,
    rfl, decode_of_encode rfl rfl⟩

end Sys2Proof.Proofs

/-! ## The exceptions: raising a condition, the illegal words, which command raises what

A flag that a command sets is the flag of a condition R199 lists for it, by the effects of `CommandEffect`. For ILL the
operands decide: with reserved ones the command is `raise .illegalCommand`, with legal ones it leaves ILL alone. -/

namespace Sys2Proof.Proofs

open Sys2Proof.Machine Sys2Proof.Safety Sys2Proof.Laws

/-- Settles O43: raising writes STATUS alone, and `raise_flag` gives the seven flags. -/
theorem raiseSetsOneFlag : Obligations.RaiseSetsOneFlag :=
  fun c s => ⟨raise_eq c s, fun d => raise_flag c d s⟩

/-- Settles O8: the step is the command port's answer to a refused word (R78, R82). -/
theorem illegalWordStepOnlySetsFlag : Obligations.IllegalWordStepOnlySetsFlag := by
  intro s w e rest waiting refused
  rw [step_of_command waiting, command_of_refused refused]

/-! ### The conditions of a command (R199) -/

/-- A decoder's answer sets UNREC and DEGEN at most. -/
theorem deliver_flag_newly_set {r : Decoded} {s : State} {c : Condition} (clear : s.flag c = false)
    (set : (deliver r s).flag c = true) : c = .unrecognizedSymbol ∨ c = .degenerateBlock := by
  rw [deliver_flag, clear] at set
  simp only [Bool.or_false, Bool.or_eq_true, Bool.and_eq_true, decide_eq_true_eq] at set
  exact set.imp And.right And.right

/-- A rendered block sets CLIP at most. -/
theorem emitBlock_flag_newly_set {p : List Sample × Bool} {s : State} {c : Condition} (clear : s.flag c = false)
    (set : (emitBlock p s).flag c = true) : c = .pcmClip := by
  rw [emitBlock_flag, clear, Bool.or_false, Bool.and_eq_true] at set
  exact of_decide_eq_true set.right

theorem raise_flag_newly_set {c d : Condition} {s : State} (clear : s.flag d = false)
    (set : (raise c s).flag d = true) : d = c := by
  rw [raise_flag, clear, Bool.or_false] at set
  exact of_decide_eq_true set

theorem flag_eq_false_of_status_zero {s : State} (zero : s.status = 0) (c : Condition) : s.flag c = false := by
  rw [State.flag, zero]
  exact BitVec.getLsbD_zero

/-- Whatever effect a command has, a flag it newly sets is one the table of R199 lists for it. -/
theorem CommandEffect.canRaise_of_newly_set {i : Instr} {s t : State} (effect : CommandEffect s i t) {c : Condition}
    (clear : s.flag c = false) (set : t.flag c = true) : canRaise c i = true := by
  cases effect with
  | raised can _ => exact raise_flag_newly_set clear set ▸ can
  | syn => exact emitBlock_flag_newly_set clear set ▸ rfl
  | enc _ => exact emitBlock_flag_newly_set clear set ▸ rfl
  | decs => obtain rfl | rfl := deliver_flag_newly_set clear set <;> rfl
  | decf => obtain rfl | rfl := deliver_flag_newly_set clear set <;> rfl
  | clrf => exact Bool.noConfusion ((flag_eq_false_of_status_zero rfl c).symm.trans set)
  | rst => exact Bool.noConfusion ((flag_eq_false_of_status_zero rfl c).symm.trans set)
  | nop | sig _ | let_ | seta | qnt | lds _ | ends => exact Bool.noConfusion (clear.symm.trans set)

/-! ### ILL and the operands (R82, R198, R201 (a)) -/

theorem sig_wellFormed_iff {imm8 : BitVec 8} : (Instr.sig imm8).WellFormed ↔ imm8.toNat < 27 := decide_eq_true_iff

theorem syn_wellFormed_iff {sym : BitVec 5} {upper : Bool} : (Instr.syn sym upper).WellFormed ↔ sym.toNat < 27 :=
  decide_eq_true_iff

theorem isCanonIndex_iff {n : Nat} : isCanonIndex n = true ↔ n < 11 := decide_eq_true_iff

theorem let_wellFormed_iff {upper : Bool} {j2 j1 j0 : BitVec 4} :
    (Instr.let_ upper j2 j1 j0).WellFormed ↔ ∀ j ∈ [j0, j1, j2], j.toNat < 11 := by
  simp only [Instr.WellFormed, Instr.legalOperands, Bool.and_eq_true, isCanonIndex_iff, List.forall_mem_cons]
  tauto

/-- A command with a reserved operand raises IllegalCommand and does nothing else. -/
theorem exec_of_reserved {i : Instr} (reserved : ¬i.WellFormed) (s : State) :
    exec i s = .next (raise .illegalCommand s) := by
  cases i with
  | sig imm8 => exact exec_sig_reserved (Nat.not_lt.mp (mt sig_wellFormed_iff.mpr reserved)) s
  | let_ upper j2 j1 j0 => exact exec_let_reserved (mt let_wellFormed_iff.mpr reserved) s
  | syn sym upper => exact exec_syn_reserved (Nat.not_lt.mp (mt syn_wellFormed_iff.mpr reserved)) upper s
  | nop | seta _ | enc _ | qnt _ | decs | decf | lds _ | ends | clrf | rst => exact absurd rfl reserved

/-- With legal operands SIG, LET and SYN, the commands R199 lists for ILL, leave ILL as it is. -/
theorem illegalFlag_kept_of_legal {i : Instr} (can : canRaise .illegalCommand i = true) (legal : i.WellFormed)
    {s t : State} (h : exec i s = .next t) : t.flag .illegalCommand = s.flag .illegalCommand := by
  cases i with
  | sig imm8 =>
    rw [exec_sig_legal (sig_wellFormed_iff.mp legal) rfl] at h
    cases h
    exact flag_of_status_eq rfl _
  | let_ upper j2 j1 j0 =>
    rw [exec_let_legal (let_wellFormed_iff.mp legal) rfl] at h
    cases h
    exact flag_of_status_eq rfl _
  | syn sym upper =>
    rw [exec_syn_legal (syn_wellFormed_iff.mp legal)] at h
    rw [← Host.Outcome.next.inj h, emitBlock_flag, decide_eq_false (by decide), Bool.and_false, Bool.false_or]
  | nop | seta _ | enc _ | qnt _ | decs | decf | lds _ | ends | clrf | rst => cases can

/-- Settles O45: `canRaise_of_newly_set` for the table; reserved operands raise ILL alone, legal ones keep ILL. -/
theorem conditionsByCommand : Obligations.ConditionsByCommand := by
  intro i s t c h clear set
  have can := (exec_effect h).canRaise_of_newly_set clear set
  refine ⟨can, ?_, fun reserved => ?_⟩
  · rintro rfl legal
    exact Bool.noConfusion (clear.symm.trans ((illegalFlag_kept_of_legal can legal h).symm.trans set))
  · rw [exec_of_reserved reserved] at h
    cases h
    exact raise_flag_newly_set clear set

end Sys2Proof.Proofs

/-! ## Hardware reset and the reset state (70_reset_and_hazards section 1)

Hardware reset and RST meet at `toReset`: the one is what the host's action does to the state it was taken from, the
other is RST's arm. -/

namespace Sys2Proof.Proofs

open Sys2Proof.Machine Sys2Proof.Laws

theorem exec_rst (s : State) : exec .rst s = .next s.toReset := rfl

theorem hostAction_reset (s : State) : hostAction .reset s = .next s.toReset := rfl

/-- Settles O39: the step is the host's reset with the action taken, and both resets are `toReset`. -/
theorem hardwareResetEqualsRst : Obligations.HardwareResetEqualsRst := by
  intro s rest waiting
  calc step s = hostAction .reset { s with inputs := rest } := step_of_inputs waiting
    _ = .next (State.toReset { s with inputs := rest }) := hostAction_reset _
    _ = exec .rst { s with inputs := rest } := (exec_rst _).symm

/-- Settles O40: the laws of `resetWith`, at the decided parameters. -/
theorem resetValues : Obligations.ResetValues :=
  ⟨resetWith_amp .decided, resetWith_scnt .decided, resetWith_res .decided, resetWith_status .decided,
    resetWith_sout .decided, resetWith_cout .decided⟩

end Sys2Proof.Proofs
